-- ==== Sys2Proof/Word.lean ====
section
/-! DEFINITION. The word types of MD5CE (00_scope.md R9: WORD_W = 32, ADDR_W = LEN_W = COUNTER_W = 64, VEC_W = 128). -/

namespace Sys2Proof

/-- One byte of memory or of a residual buffer. -/
abbrev Byte := BitVec 8

/-- A 32-bit word: digest words, message words, every host-visible register (R9). -/
abbrev Word := BitVec 32

/-- A 64-bit word: addresses, lengths, byte counters, one vector sub-lane (R9). -/
abbrev DWord := BitVec 64

/-- A 128-bit vector register of the dual-lane datapath (R9, R48). -/
abbrev Vec := BitVec 128

end Sys2Proof
end

