-- ==== Sys2Proof/Config.lean ====
section
/-! DEFINITION. What an implementation fixes and the spec leaves OPEN, and the free values: constants
without a body, so that no proof can rest on what they are. -/

namespace Sys2Proof.Config

/-- `ENGINE_BASE` (R9, R70): where the 128-byte register window lies. OPEN: it has no value here. -/
opaque engineBase : DWord

/-- `ZERO_DETECT` (R9, R143): whether an all-zero block is detected and takes the zero-fill path. OPEN. -/
opaque zeroDetect : Bool

/-- What a byte of host memory holds that nothing has written (log 3): a free value of its address. -/
opaque initByte (addr : Nat) : Byte

/-- Which of the values a byte held the engine uses, when the host raced with the command or had not made
its store visible (R72 item 2, U10, X5): a free choice for read `i` of stream `stream` in draw `draw`. -/
opaque freePick (draw stream i : Nat) : Nat

/-- What a host read of an unspecified register delivers (U1, U2, U3; R38, R260). -/
opaque freeRead (draw : Nat) : Word

/-- Digest word `i` of context `ctx` after a bus error (R232, U11). -/
opaque freeDigestWord (draw ctx i : Nat) : Word

/-- Byte counter of context `ctx` after a bus error (R232, U11). -/
opaque freeCount (draw ctx : Nat) : DWord

/-- Residual byte `i` of context `ctx` after a bus error (R232, U11). -/
opaque freeResByte (draw ctx i : Nat) : Byte

/-- The sequencer's command word after a completion (R45). -/
opaque freeSeqCmd (draw : Nat) : Word

/-- The sequencer's 64-bit field `i` (latched arguments, stream offsets) after a completion (R45). -/
opaque freeSeqField (draw i : Nat) : DWord

/-- The sequencer's step index after a completion (R45). -/
opaque freeSeqStep (draw : Nat) : BitVec 6

/-- Byte `i` of the pad buffer after a completion (R45, R49). -/
opaque freePadByte (draw i : Nat) : Byte

/-- 32-bit working register `i` after a completion (R46, R49). -/
opaque freeWork32 (draw i : Nat) : Word

/-- The 64-bit sub-lane after a completion (R47, R49). -/
opaque freeWork64 (draw : Nat) : DWord

/-- 128-bit LanePair register `i` after a completion (R48, R49). -/
opaque freeWork128 (draw i : Nat) : Vec

end Sys2Proof.Config
end

