-- ==== Sys2Proof/Syntax.lean ====
section
/-! DEFINITION. The seven commands of MD5CE (30_encoding.md R96) and the fields of a command word (R90). -/

namespace Sys2Proof

/-- A context: CTX0 (stream A of a dual command) or CTX1 (stream B) (R20, R92). -/
inductive CtxId where
  | c0
  | c1
  deriving DecidableEq, Repr

/-- The single-stream datapath a command asks for (R93). -/
inductive CoreSel where
  /-- CORE = 0: the scalar CompressionCore (R120). -/
  | scalar
  /-- CORE = 1: the SingleLaneVectorCore (R136). -/
  | vector
  deriving DecidableEq, Repr

/-- The commands, one constructor per row of spec/opcode_table.json (R96, R98). -/
inductive Instr where
  /-- BEGIN (R170). -/
  | beginCtx (n : CtxId) (core : CoreSel)
  /-- PROCESS (R175). -/
  | process (n : CtxId) (core : CoreSel)
  /-- END (R180). -/
  | endCtx (n : CtxId) (core : CoreSel)
  /-- COMPRESS (R145). -/
  | compress (n : CtxId) (core : CoreSel)
  /-- ZCOMPRESS (R148). -/
  | zcompress (n : CtxId) (core : CoreSel)
  /-- PROCESS_DUAL (R200): always CTX0 and CTX1. -/
  | processDual (core : CoreSel)
  /-- COMPRESS_DUAL (R151): always CTX0 and CTX1. -/
  | compressDual (core : CoreSel)
  deriving DecidableEq, Repr

/-- The fields of a command word in format C (R90), each with any value, legal or not. -/
structure Fields where
  /-- Bits 3:0. -/
  op : BitVec 4
  /-- Bit 4. -/
  ctx : BitVec 1
  /-- Bit 5. -/
  core : BitVec 1
  /-- Bits 31:6. -/
  rsvd : BitVec 26
  deriving DecidableEq, Repr

/-- The CTX field that names a context (R92). -/
def CtxId.bit : CtxId → BitVec 1
  | .c0 => 0
  | .c1 => 1

/-- The CORE field that asks for a datapath (R93). -/
def CoreSel.bit : CoreSel → BitVec 1
  | .scalar => 0
  | .vector => 1

/-- The fields of an instruction (R90, R92, R93, R94, R96). -/
def Instr.fields : Instr → Fields
  | .beginCtx n k => ⟨0x1, n.bit, k.bit, 0⟩
  | .process n k => ⟨0x2, n.bit, k.bit, 0⟩
  | .endCtx n k => ⟨0x3, n.bit, k.bit, 0⟩
  | .compress n k => ⟨0x4, n.bit, k.bit, 0⟩
  | .zcompress n k => ⟨0x5, n.bit, k.bit, 0⟩
  | .processDual k => ⟨0x6, 0, k.bit, 0⟩
  | .compressDual k => ⟨0x7, 0, k.bit, 0⟩

end Sys2Proof
end

