-- ==== Sys2Proof/Machine/State.lean ====
section
/-! DEFINITION. The state of MD5CE (10_state.md) and of what surrounds it, the reasons a step can stop, and the state
right after reset (70_reset_and_hazards.md R260). All of it is plain data. -/

namespace Sys2Proof.Machine

/-- R26: the phase of a context. -/
inductive Phase where
  | idle
  | active
  | final
  | fault
  deriving DecidableEq, Repr

/-- R221: the error codes; 8 to 15 are never produced, so they have no name. -/
inductive ErrCode where
  | none
  | encoding
  | phase
  | length
  | residual
  | lenMismatch
  | range
  | bus
  deriving DecidableEq, Repr

/-- The two streams of a dual command; a single-stream command reads stream A (R31). -/
inductive Stream where
  | a
  | b
  deriving DecidableEq, Repr

/-- R21: the DigestState of a context. -/
structure Digest where
  a : Word
  b : Word
  c : Word
  d : Word
  deriving DecidableEq, Repr

/-- R20 to R26: one context. `res` is the residual buffer of 64 bytes (R24). -/
structure Ctx where
  dig : Digest
  count : DWord
  res : List Byte
  phase : Phase
  deriving DecidableEq, Repr

/-- R30: the argument registers, each 64 bits with a LO and a HI half. -/
structure Args where
  srcA : DWord
  srcB : DWord
  lenA : DWord
  lenB : DWord
  deriving DecidableEq, Repr

/-- R32: the fields of STATUS. Its reserved bits read 0 and no write reaches them (R33). -/
structure Status where
  busy : Bool
  done : Bool
  ovr : Bool
  errctx : CtxId
  errcode : ErrCode
  deriving DecidableEq, Repr

/-- R45: the command sequencer. `seq.busy` mirrors STATUS.BUSY and is stored there. -/
structure Seq where
  cmd : Word
  args : Args
  posA : DWord
  posB : DWord
  step : BitVec 6
  /-- R182: the pad buffer of END, up to 72 bytes. -/
  pad : List Byte
  deriving DecidableEq, Repr

/-- R46: the working registers of a single-stream datapath: the rolling variables, the pre-block values and the
sixteen message words. -/
structure ScalarRegs where
  a : Word
  b : Word
  c : Word
  d : Word
  aa : Word
  bb : Word
  cc : Word
  dd : Word
  w : List Word
  deriving DecidableEq, Repr

/-- R48: the LanePair working registers. Bits 63:0 hold lane A, bits 127:64 lane B. -/
structure LaneRegs where
  a : Vec
  b : Vec
  c : Vec
  d : Vec
  aa : Vec
  bb : Vec
  cc : Vec
  dd : Vec
  w : List Vec
  deriving DecidableEq, Repr

/-- R46 to R48: all the working registers. None survives a command (R49). -/
structure Work where
  scalar : ScalarRegs
  /-- R47: the 64-bit sub-lane that holds a value in the duplicated form. -/
  sublane : DWord
  lanes : LaneRegs
  deriving DecidableEq, Repr

/-- A range of host addresses, from `base` up to but not including `base + size`. -/
structure Region where
  base : Nat
  size : Nat
  deriving DecidableEq, Repr

/-- The named parameters and the platform's memory map, which no command changes (R9, R66, R69). -/
structure Params where
  /-- `ENGINE_BASE` (R40, R70). -/
  base : DWord
  /-- `ZERO_DETECT` (R143). -/
  zeroDetect : Bool
  /-- Memory that answers every read with a bus error (R66). -/
  busErr : List Region
  /-- Memory whose reads have side effects or vary (R69, X3). -/
  device : List Region
  deriving DecidableEq, Repr

/-- Host memory: (address, byte) pairs in one canonical form, `Memory.wf`. -/
abbrev Memory := List Host.Cell

/-- The canonical form: addresses strictly rising, inside the 2^64-byte space (R60). An entry is a byte that was
written; an unlisted address has no entry and reads as a free value (log 3), so no entry can equal it. -/
abbrev Memory.wf (m : Memory) : Prop :=
  m.Pairwise (fun x y => x.1 < y.1) ∧ ∀ c ∈ m, c.1 < 2 ^ 64

/-- What the host or the platform does between two of the engine's turns. -/
inductive HostEvent where
  /-- A register write of `width` bytes at window offset `off` (R40, R41). -/
  | regWrite (off width : Nat) (v : Word)
  /-- A register read of `width` bytes at window offset `off` (R40, R41). -/
  | regRead (off width : Nat)
  /-- A store of one byte to host memory (R72). -/
  | memStore (addr : Nat) (b : Byte)
  /-- The host makes all its stores visible to the engine (R72 item 1, R73, R76). -/
  | publish
  /-- The platform's memory that signals bus errors is now this (R66). -/
  | busMap (rs : List Region)
  /-- The platform asserts RESET (R260). -/
  | reset
  deriving DecidableEq, Repr

/-- One entry of the schedule: the engine's turn, or an event of the host or the platform (log 1). -/
inductive Input where
  | engine
  | host (e : HostEvent)
  deriving DecidableEq, Repr

/-- The whole machine. -/
structure State where
  /-- CTX0 (R20). -/
  c0 : Ctx
  /-- CTX1 (R20). -/
  c1 : Ctx
  /-- The argument registers (R30). -/
  args : Args
  /-- STATUS (R32). -/
  status : Status
  /-- CTRL.IE (R34). -/
  ctrlIE : Bool
  /-- The command sequencer (R45). -/
  seq : Seq
  /-- The datapath working registers (R46 to R48). -/
  work : Work
  /-- Host memory (R60). -/
  mem : Memory
  /-- Named parameters and the platform's memory map. -/
  params : Params
  /-- Values that bytes held before stores the host has not made visible (R72 item 1, X5). -/
  stale : List Host.Cell
  /-- Values that bytes held during the running command (R72 item 2, U10). -/
  raced : List Host.Cell
  /-- The model's own: what the host and the platform do next (log 1). -/
  inputs : List Input
  /-- The model's own: what the host's last register read delivered. -/
  rdata : Option Word
  /-- The model's own: the number of the next free value (log 6). -/
  draws : Nat
  deriving DecidableEq, Repr

/-- Why a step can fault. The engine itself never does (R220). -/
inductive Fault where
  /-- Raised by a host store (`HostEvent.memStore`) at an address of 2^64 or more, which does not exist (R60). Safe. -/
  | noSuchAddress
  deriving DecidableEq, Repr

/-- Why a step can refuse: behaviour outside the spec. -/
inductive Refusal where
  /-- Raised by `exec` for an instruction without a meaning. No arm raises it. Safe. -/
  | notModelled (mnemonic : String)
  /-- Raised by a host access to the window that is not an aligned 32-bit access inside it (R41, X1). Safe. -/
  | registerAccess
  /-- Raised by a command whose source region overlaps the register window (R69, X2). Safe. -/
  | sourceOverlapsWindow
  /-- Raised by a command whose source region lies in memory whose reads have side effects (R69, X3). Safe. -/
  | sourceHasSideEffects
  deriving DecidableEq, Repr

/-- R260, log 4: a context at reset. The phase is the spec's, the rest is the model's choice. -/
def Ctx.reset : Ctx where
  dig := ⟨0, 0, 0, 0⟩
  count := 0
  res := List.replicate 64 0
  phase := .idle

/-- R30: the argument registers at reset. -/
def Args.reset : Args := ⟨0, 0, 0, 0⟩

/-- R32: STATUS at reset. -/
def Status.reset : Status := ⟨false, false, false, .c0, .none⟩

/-- R45, log 4: the idle sequencer at reset. -/
def Seq.reset : Seq := ⟨0, Args.reset, 0, 0, 0, []⟩

/-- R49, log 4: the working registers at reset. -/
def Work.reset : Work where
  scalar := ⟨0, 0, 0, 0, 0, 0, 0, 0, List.replicate 16 0⟩
  sublane := 0
  lanes := ⟨0, 0, 0, 0, 0, 0, 0, 0, List.replicate 16 0⟩

/-- The parameters before anything is known of the platform (log 2, log 5). -/
def Params.reset : Params := ⟨Config.engineBase, Config.zeroDetect, [], []⟩

/-- R260, R262: the machine right after reset, with nothing placed in memory and no event waiting. -/
def State.reset : State where
  c0 := Ctx.reset
  c1 := Ctx.reset
  args := Args.reset
  status := Status.reset
  ctrlIE := false
  seq := Seq.reset
  work := Work.reset
  mem := []
  params := Params.reset
  stale := []
  raced := []
  inputs := []
  rdata := none
  draws := 0

end Sys2Proof.Machine
end

