-- ==== Sys2Proof/Machine/Datapath.lean ====
section
/-! DEFINITION. The compression function and its datapaths (40_compression_core.md): the step schedule (R122 to R126),
one block on the scalar (R130), single-lane vector (R136) and dual-lane vector (R138 to R141) datapaths, and the
zero-fill path (R142). -/

namespace Sys2Proof.Machine

/-- R121: the initialisation vector. -/
def iv : Digest := ⟨0x67452301, 0xEFCDAB89, 0x98BADCFE, 0x10325476⟩

/-- R122: the round functions, by RFC1321's names (G3). -/
inductive RoundFn where
  | f
  | g
  | h
  | i
  deriving DecidableEq, Repr

/-- R122: a round function on three words of any width, bit by bit. -/
def roundFn {n : Nat} (fn : RoundFn) (x y z : BitVec n) : BitVec n :=
  match fn with
  | .f => (x &&& y) ||| (~~~x &&& z)
  | .g => (x &&& z) ||| (y &&& ~~~z)
  | .h => x ^^^ y ^^^ z
  | .i => y ^^^ (x ||| ~~~z)

/-- R125: one row of the schedule. -/
structure StepRow where
  fn : RoundFn
  idx : Nat
  rot : Nat
  k : Word
  deriving DecidableEq, Repr

/-- R125: round 1, steps 0 to 15. -/
def round1 : List StepRow := [
  ⟨.f, 0, 7, 0xD76AA478⟩,
  ⟨.f, 1, 12, 0xE8C7B756⟩,
  ⟨.f, 2, 17, 0x242070DB⟩,
  ⟨.f, 3, 22, 0xC1BDCEEE⟩,
  ⟨.f, 4, 7, 0xF57C0FAF⟩,
  ⟨.f, 5, 12, 0x4787C62A⟩,
  ⟨.f, 6, 17, 0xA8304613⟩,
  ⟨.f, 7, 22, 0xFD469501⟩,
  ⟨.f, 8, 7, 0x698098D8⟩,
  ⟨.f, 9, 12, 0x8B44F7AF⟩,
  ⟨.f, 10, 17, 0xFFFF5BB1⟩,
  ⟨.f, 11, 22, 0x895CD7BE⟩,
  ⟨.f, 12, 7, 0x6B901122⟩,
  ⟨.f, 13, 12, 0xFD987193⟩,
  ⟨.f, 14, 17, 0xA679438E⟩,
  ⟨.f, 15, 22, 0x49B40821⟩]

/-- R125: round 2, steps 16 to 31. -/
def round2 : List StepRow := [
  ⟨.g, 1, 5, 0xF61E2562⟩,
  ⟨.g, 6, 9, 0xC040B340⟩,
  ⟨.g, 11, 14, 0x265E5A51⟩,
  ⟨.g, 0, 20, 0xE9B6C7AA⟩,
  ⟨.g, 5, 5, 0xD62F105D⟩,
  ⟨.g, 10, 9, 0x02441453⟩,
  ⟨.g, 15, 14, 0xD8A1E681⟩,
  ⟨.g, 4, 20, 0xE7D3FBC8⟩,
  ⟨.g, 9, 5, 0x21E1CDE6⟩,
  ⟨.g, 14, 9, 0xC33707D6⟩,
  ⟨.g, 3, 14, 0xF4D50D87⟩,
  ⟨.g, 8, 20, 0x455A14ED⟩,
  ⟨.g, 13, 5, 0xA9E3E905⟩,
  ⟨.g, 2, 9, 0xFCEFA3F8⟩,
  ⟨.g, 7, 14, 0x676F02D9⟩,
  ⟨.g, 12, 20, 0x8D2A4C8A⟩]

/-- R125: round 3, steps 32 to 47. -/
def round3 : List StepRow := [
  ⟨.h, 5, 4, 0xFFFA3942⟩,
  ⟨.h, 8, 11, 0x8771F681⟩,
  ⟨.h, 11, 16, 0x6D9D6122⟩,
  ⟨.h, 14, 23, 0xFDE5380C⟩,
  ⟨.h, 1, 4, 0xA4BEEA44⟩,
  ⟨.h, 4, 11, 0x4BDECFA9⟩,
  ⟨.h, 7, 16, 0xF6BB4B60⟩,
  ⟨.h, 10, 23, 0xBEBFBC70⟩,
  ⟨.h, 13, 4, 0x289B7EC6⟩,
  ⟨.h, 0, 11, 0xEAA127FA⟩,
  ⟨.h, 3, 16, 0xD4EF3085⟩,
  ⟨.h, 6, 23, 0x04881D05⟩,
  ⟨.h, 9, 4, 0xD9D4D039⟩,
  ⟨.h, 12, 11, 0xE6DB99E5⟩,
  ⟨.h, 15, 16, 0x1FA27CF8⟩,
  ⟨.h, 2, 23, 0xC4AC5665⟩]

/-- R125: round 4, steps 48 to 63. -/
def round4 : List StepRow := [
  ⟨.i, 0, 6, 0xF4292244⟩,
  ⟨.i, 7, 10, 0x432AFF97⟩,
  ⟨.i, 14, 15, 0xAB9423A7⟩,
  ⟨.i, 5, 21, 0xFC93A039⟩,
  ⟨.i, 12, 6, 0x655B59C3⟩,
  ⟨.i, 3, 10, 0x8F0CCC92⟩,
  ⟨.i, 10, 15, 0xFFEFF47D⟩,
  ⟨.i, 1, 21, 0x85845DD1⟩,
  ⟨.i, 8, 6, 0x6FA87E4F⟩,
  ⟨.i, 15, 10, 0xFE2CE6E0⟩,
  ⟨.i, 6, 15, 0xA3014314⟩,
  ⟨.i, 13, 21, 0x4E0811A1⟩,
  ⟨.i, 4, 6, 0xF7537E82⟩,
  ⟨.i, 11, 10, 0xBD3AF235⟩,
  ⟨.i, 2, 15, 0x2AD7D2BB⟩,
  ⟨.i, 9, 21, 0xEB86D391⟩]

/-- R125: the 64 steps in order. -/
def schedule : List StepRow := round1 ++ round2 ++ round3 ++ round4

/-- R125: the row of step `i` of the schedule. -/
def rowAt (i : BitVec 6) : StepRow := schedule.getD i.toNat ⟨.f, 0, 0, 0⟩

/-- R11: circular rotate-left of a word by `r`, 0 < r < 32. -/
def rotl32 (x : Word) (r : Nat) : Word := (x <<< r) ||| (x >>> (32 - r))

/-- R47: the duplicated form `x ‖ x` in a 64-bit sub-lane. -/
def dup (x : Word) : DWord := x ++ x

/-- R136: the vector rotate: shift the duplicated word right by `32 - r` and keep the low half. -/
def vrot (x : Word) (r : Nat) : Word := (dup x >>> (32 - r)).setWidth 32

/-- R13: little-endian assembly of four bytes. -/
def le32 (b0 b1 b2 b3 : Byte) : Word :=
  b0.setWidth 32 ||| (b1.setWidth 32 <<< 8) ||| (b2.setWidth 32 <<< 16) ||| (b3.setWidth 32 <<< 24)

/-- R63: message word `j` of a block. -/
def messageWord (blk : List Byte) (j : Nat) : Word :=
  le32 (blk.getD (4 * j) 0) (blk.getD (4 * j + 1) 0) (blk.getD (4 * j + 2) 0) (blk.getD (4 * j + 3) 0)

/-- R63: the sixteen message words of a block. -/
def messageWords (blk : List Byte) : List Word := (List.range 16).map (messageWord blk)

/-- R130: the working registers before step 0. -/
def loadScalar (st : Digest) (w : List Word) : ScalarRegs :=
  ⟨st.a, st.b, st.c, st.d, st.a, st.b, st.c, st.d, w⟩

/-- R126: the sum a step rotates. -/
def stepSum (r : ScalarRegs) (row : StepRow) : Word :=
  r.a + roundFn row.fn r.b r.c r.d + r.w.getD row.idx 0 + row.k

/-- R126: the rolling variables after a step whose rotated sum is `x`. -/
def rolled (r : ScalarRegs) (x : Word) : ScalarRegs := { r with a := r.d, b := r.b + x, c := r.b, d := r.c }

/-- R126: one step, with the rotation the datapath has (`rotl32` or `vrot`). -/
def scalarStep (rot : Word → Nat → Word) (r : ScalarRegs) (row : StepRow) : ScalarRegs :=
  rolled r (rot (stepSum r row) row.rot)

/-- R130: the chaining addition. -/
def chainAdd (r : ScalarRegs) : Digest := ⟨r.aa + r.a, r.bb + r.b, r.cc + r.c, r.dd + r.d⟩

/-- R130: the 64 steps on sixteen message words. -/
def runScalar (rot : Word → Nat → Word) (st : Digest) (w : List Word) : Digest :=
  chainAdd (schedule.foldl (scalarStep rot) (loadScalar st w))

/-- R130: `Compress(st, blk)`, on the scalar CompressionCore. -/
def compress (st : Digest) (blk : List Byte) : Digest := runScalar rotl32 st (messageWords blk)

/-- R136: one block on the SingleLaneVectorCore. -/
def compressVector (st : Digest) (blk : List Byte) : Digest := runScalar vrot st (messageWords blk)

/-- R93: the rotation of the datapath CORE selects. -/
def rotOf : CoreSel → Word → Nat → Word
  | .scalar => rotl32
  | .vector => vrot

/-- R142: the zero-fill path, every message word the literal 0, on the datapath CORE selects. -/
def compressZeroOn (core : CoreSel) (st : Digest) : Digest := runScalar (rotOf core) st (List.replicate 16 0)

/-- R142: `CompressZero(st)`. -/
def compressZero (st : Digest) : Digest := runScalar rotl32 st (List.replicate 16 0)

/-- R143: the block is known to be all-zero. -/
def allZero (blk : List Byte) : Bool := blk.all (· == 0)

/-- R63, R143: the message words a single-stream datapath is given for a block: the literal zeros of the zero-fill path
for an all-zero block when the implementation detects them (`zd` is ZERO_DETECT). -/
def blockWords (zd : Bool) (blk : List Byte) : List Word :=
  if allZero blk && zd then List.replicate 16 0 else messageWords blk

/-- R131: `ChainBlocks` over the first `k` blocks of `m`. -/
def chainN : Nat → Digest → List Byte → Digest
  | 0, st, _ => st
  | k + 1, st, m => chainN k (compress st (m.take 64)) (m.drop 64)

/-- R131: `ChainBlocks(st, m)` for `|m|` a multiple of 64. -/
def chainBlocks (st : Digest) (m : List Byte) : Digest := chainN (m.length / 64) st m

/-- R48: a LanePair register from its two halves, lane A low. -/
def pair (lo hi : DWord) : Vec := hi ++ lo

/-- R48: the half that holds lane A. -/
def loHalf (v : Vec) : DWord := v.extractLsb' 0 64

/-- R48: the half that holds lane B. -/
def hiHalf (v : Vec) : DWord := v.extractLsb' 64 64

/-- R139: unpack one word of each stream into the duplicated-per-lane form. -/
def packLanes (xA xB : Word) : Vec := pair (dup xA) (dup xB)

/-- R48: the 32-bit value lane A holds. -/
def laneA (v : Vec) : Word := (loHalf v).setWidth 32

/-- R48: the 32-bit value lane B holds. -/
def laneB (v : Vec) : Word := (hiHalf v).setWidth 32

/-- R139: a 128-bit addition is two independent 32-bit additions, one per half. -/
def addLanes (u v : Vec) : Vec := packLanes (laneA u + laneA v) (laneB u + laneB v)

/-- R139: the rotation acts on each half alone; no bit crosses bit 63/64. -/
def rotLanes (v : Vec) (r : Nat) : Vec :=
  packLanes ((loHalf v >>> (32 - r)).setWidth 32) ((hiHalf v >>> (32 - r)).setWidth 32)

/-- R141: the two states loaded into the LanePair registers when a dual-lane run begins. -/
def loadLanes (r : LaneRegs) (sA sB : Digest) : LaneRegs :=
  { r with
    a := packLanes sA.a sB.a
    b := packLanes sA.b sB.b
    c := packLanes sA.c sB.c
    d := packLanes sA.d sB.d }

/-- R139: the interleaving load of a block of each stream, and R130: the pre-block values saved. -/
def startLanes (r : LaneRegs) (wA wB : List Word) : LaneRegs :=
  { r with
    aa := r.a
    bb := r.b
    cc := r.c
    dd := r.d
    w := (List.range 16).map (fun j => packLanes (wA.getD j 0) (wB.getD j 0)) }

/-- R139: one step on both halves, with the same row of the schedule. -/
def laneStep (r : LaneRegs) (row : StepRow) : LaneRegs :=
  { r with
    a := r.d
    b := addLanes r.b (rotLanes
      (addLanes (addLanes (addLanes r.a (roundFn row.fn r.b r.c r.d)) (r.w.getD row.idx 0))
        (packLanes row.k row.k)) row.rot)
    c := r.b
    d := r.c }

/-- R130, R139: the chaining addition on both halves. -/
def chainLanes (r : LaneRegs) : LaneRegs :=
  { r with
    a := addLanes r.aa r.a
    b := addLanes r.bb r.b
    c := addLanes r.cc r.c
    d := addLanes r.dd r.d }

/-- R141: the states of lane A and of lane B, stored back when a dual-lane run ends. -/
def storeLanes (r : LaneRegs) : Digest × Digest :=
  (⟨laneA r.a, laneA r.b, laneA r.c, laneA r.d⟩, ⟨laneB r.a, laneB r.b, laneB r.c, laneB r.d⟩)

/-- R139: one block of each stream in the LanePair registers. -/
def runLanes (r : LaneRegs) (wA wB : List Word) : LaneRegs :=
  chainLanes (schedule.foldl laneStep (startLanes r wA wB))

/-- R138 to R140: one block of each stream on the DualLaneVectorCore. What its registers held before is overwritten. -/
def compressDual (sA sB : Digest) (bA bB : List Byte) : Digest × Digest :=
  storeLanes (runLanes (loadLanes Work.reset.lanes sA sB) (messageWords bA) (messageWords bB))

/-- R22: byte `i` of a word, least significant first. -/
def wordByte (w : Word) (i : Nat) : Byte := w.extractLsb' (8 * i) 8

/-- R22: the 16 bytes of a digest. -/
def digestBytes (s : Digest) : List Byte :=
  [s.a, s.b, s.c, s.d].flatMap (fun w => (List.range 4).map (wordByte w))

end Sys2Proof.Machine
end

