-- ==== Sys2Proof/Machine/Flags.lean ====
section
/-! DEFINITION. The flags of MD5CE: the STATUS and CTRL words, the STATUS updates of accept and completion, the
write-1-to-clear rule, the phase's code, and the interrupt output (10_state.md R32 to R36, R42; 30_encoding.md R104,
R107; 60_exceptions.md R221, R240). There are no condition codes (R42). -/

namespace Sys2Proof.Machine

/-- R221: the value of ERRCODE. -/
def errCodeBits : ErrCode → BitVec 4
  | .none => 0
  | .encoding => 1
  | .phase => 2
  | .length => 3
  | .residual => 4
  | .lenMismatch => 5
  | .range => 6
  | .bus => 7

/-- R26: the value of PHASE. -/
def phaseBits : Phase → BitVec 2
  | .idle => 0
  | .active => 1
  | .final => 2
  | .fault => 3

/-- R32: the STATUS word: bits 31:12, 7:5 and 3 are reserved and read 0. -/
def statusWord (f : Status) : Word :=
  (0 : BitVec 20) ++ errCodeBits f.errcode ++ (0 : BitVec 3) ++ f.errctx.bit ++ (0 : BitVec 1) ++
    BitVec.ofBool f.ovr ++ BitVec.ofBool f.done ++ BitVec.ofBool f.busy

/-- R33: a host write of `v` to STATUS. -/
def statusWrite (f : Status) (v : Word) : Status :=
  { f with done := f.done && !v.getLsbD 1, ovr := f.ovr && !v.getLsbD 2 }

/-- R104: STATUS at an accept. OVR is not changed. -/
def statusAccept (f : Status) : Status :=
  { f with busy := true, done := false, errcode := .none, errctx := .c0 }

/-- R107: STATUS at a completion with result `(code, c)`. -/
def statusComplete (f : Status) (code : ErrCode) (c : CtxId) : Status :=
  { f with busy := false, done := true, errcode := code, errctx := c }

/-- R103: STATUS when a CMD write is discarded. -/
def statusOverrun (f : Status) : Status := { f with ovr := true }

/-- R34: the CTRL word. -/
def ctrlWord (ie : Bool) : Word := (0 : BitVec 31) ++ BitVec.ofBool ie

/-- R34: what a host write of `v` to CTRL leaves in IE. -/
def ctrlWrite (v : Word) : Bool := v.getLsbD 0

/-- R36: the CTXSTAT word of a phase and a residual length. -/
def ctxStatWord (p : Phase) (reslen : BitVec 6) : Word :=
  (0 : BitVec 18) ++ reslen ++ (0 : BitVec 6) ++ phaseBits p

/-- R240: the interrupt output, a level. -/
def irq (s : State) : Bool := s.status.done && s.ctrlIE

end Sys2Proof.Machine
end

