-- ==== Sys2Proof/Machine/Ops.lean ====
section
/-! DEFINITION. The named operations over memory, contexts and the sequencer: host memory, reading and writing a
context, accepting a command (30_encoding.md R104), completing it with a success or an error (R107, 60_exceptions.md
R220 to R228, R235: the engine's whole exception entry), putting a context in FAULT (R232) and reset (R260). -/

namespace Sys2Proof.Machine

/-- The byte listed at an address, if one is. -/
def memGet : Memory → Nat → Option Byte
  | [], _ => none
  | (x, b) :: m, a => if x = a then some b else memGet m a

/-- A store of one byte; it keeps the canonical form. -/
def memSet : Memory → Nat → Byte → Memory
  | [], a, b => [(a, b)]
  | (x, v) :: m, a, b =>
    if a < x then (a, b) :: (x, v) :: m
    else if a = x then (a, b) :: m
    else (x, v) :: memSet m a b

/-- What a byte of host memory holds; a byte nothing has written holds a free value of its address (log 3). -/
def hostByte (m : Memory) (a : Nat) : Byte := (memGet m a).getD (Config.initByte a)

/-- R20: context `n`. -/
def getCtx (s : State) : CtxId → Ctx
  | .c0 => s.c0
  | .c1 => s.c1

/-- R20: the state with context `n` replaced. -/
def setCtx (s : State) (n : CtxId) (c : Ctx) : State :=
  match n with
  | .c0 => { s with c0 := c }
  | .c1 => { s with c1 := c }

/-- The number of a context, where a free value is named after it. -/
def ctxNum : CtxId → Nat
  | .c0 => 0
  | .c1 => 1

/-- R25: the residual length of a context. -/
def resLen (c : Ctx) : Nat := c.count.toNat % 64

/-- R104: accepting word `v`, one indivisible event. -/
def accept (v : Word) (s : State) : State :=
  { s with
    seq := { s.seq with cmd := v, args := s.args, posA := 0, posB := 0 }
    status := statusAccept s.status
    raced := [] }

/-- R45: the sequencer after a completion holds no defined value: free values. -/
def freeSeq (d : Nat) : Seq where
  cmd := Config.freeSeqCmd d
  args := ⟨Config.freeSeqField d 0, Config.freeSeqField d 1, Config.freeSeqField d 2, Config.freeSeqField d 3⟩
  posA := Config.freeSeqField d 4
  posB := Config.freeSeqField d 5
  step := Config.freeSeqStep d
  pad := (List.range 72).map (Config.freePadByte d)

/-- R49: no working register survives a command: free values. -/
def freeWork (d : Nat) : Work where
  scalar := ⟨Config.freeWork32 d 0, Config.freeWork32 d 1, Config.freeWork32 d 2, Config.freeWork32 d 3,
    Config.freeWork32 d 4, Config.freeWork32 d 5, Config.freeWork32 d 6, Config.freeWork32 d 7,
    (List.range 16).map (fun i => Config.freeWork32 d (8 + i))⟩
  sublane := Config.freeWork64 d
  lanes := ⟨Config.freeWork128 d 0, Config.freeWork128 d 1, Config.freeWork128 d 2, Config.freeWork128 d 3,
    Config.freeWork128 d 4, Config.freeWork128 d 5, Config.freeWork128 d 6, Config.freeWork128 d 7,
    (List.range 16).map (fun i => Config.freeWork128 d (8 + i))⟩

/-- R107: a command completes with result `(code, c)`, one indivisible event. An error is such a completion and
nothing else: no state is saved, no mode changes, no vector is taken (R220, R235). -/
def complete (code : ErrCode) (c : CtxId) (s : State) : State :=
  { s with
    status := statusComplete s.status code c
    seq := freeSeq s.draws
    work := freeWork s.draws
    raced := []
    draws := s.draws + 1 }

/-- R232: a context that a bus error hit: FAULT, its digest, counter and residual unspecified. -/
def faultCtx (d : Nat) (n : CtxId) : Ctx where
  dig := ⟨Config.freeDigestWord d (ctxNum n) 0, Config.freeDigestWord d (ctxNum n) 1,
    Config.freeDigestWord d (ctxNum n) 2, Config.freeDigestWord d (ctxNum n) 3⟩
  count := Config.freeCount d (ctxNum n)
  res := (List.range 64).map (Config.freeResByte d (ctxNum n))
  phase := .fault

/-- R232: context `n` put in FAULT. -/
def faultAt (n : CtxId) (s : State) : State := setCtx s n (faultCtx s.draws n)

/-- R260, R261: a reset: every piece of engine state at its reset value, the running command stopped without a
completion. Host memory, the platform and the host's own list of events are not the engine's. -/
def resetEngine (s : State) : State :=
  { s with
    c0 := Ctx.reset
    c1 := Ctx.reset
    args := Args.reset
    status := Status.reset
    ctrlIE := false
    seq := Seq.reset
    work := Work.reset
    raced := [] }

end Sys2Proof.Machine
end

