-- ==== Sys2Proof/Machine/Operands.lean ====
section
/-! DEFINITION. The operands of the commands: the latched arguments (10_state.md R31), the source region and its bounds
(20_memory.md R61, R62, 60_exceptions.md R227), the precondition checks (R225) and the reads of the source region
(R65, R66, R72). -/

namespace Sys2Proof.Machine

/-- R61: the latched source address of a stream, as a byte address. -/
def srcOf (s : State) : Stream → Nat
  | .a => s.seq.args.srcA.toNat
  | .b => s.seq.args.srcB.toNat

/-- R61: the latched length of a stream. -/
def lenOf (s : State) : Stream → Nat
  | .a => s.seq.args.lenA.toNat
  | .b => s.seq.args.lenB.toNat

/-- R20: the context of a stream of a dual command. -/
def ctxOfStream : Stream → CtxId
  | .a => .c0
  | .b => .c1

/-- One precondition check (R225): whether it passes, and the code and context that failing it reports. -/
abbrev Check := Bool × ErrCode × CtxId

/-- R225, PHASE(n). -/
def phaseCheck (s : State) (n : CtxId) : Check := ((getCtx s n).phase == .active, .phase, n)

/-- R225, LENGTH(A), which names context `n`. -/
def lengthCheck (s : State) (n : CtxId) : Check := (lenOf s .a != 0 && lenOf s .a % 64 == 0, .length, n)

/-- R225, RESIDUAL(n). -/
def residualCheck (s : State) (n : CtxId) : Check := (resLen (getCtx s n) == 0, .residual, n)

/-- R225, R227, RANGE(X), which names context `n`: the exact, unwrapped sum. -/
def rangeCheck (s : State) (x : Stream) (n : CtxId) : Check :=
  (lenOf s x == 0 || srcOf s x + lenOf s x ≤ 2 ^ 64, .range, n)

/-- R225, LEN_MISMATCH, which names no context. -/
def lenMatchCheck (s : State) : Check := (lenOf s .a == lenOf s .b, .lenMismatch, .c0)

/-- R225: what the first failing check reports; later checks are not evaluated. -/
def firstError : List Check → Option (ErrCode × CtxId)
  | [] => none
  | (ok, e) :: l => if ok then firstError l else some e

/-- R105, R228: a command's body after its checks. A failing check completes the command with its report and changes
nothing else. -/
def guarded (checks : List Check) (s : State) (body : Host.Outcome State Fault Refusal) :
    Host.Outcome State Fault Refusal :=
  match firstError checks with
  | some e => .next (complete e.1 e.2 s)
  | none => body

/-- The addresses `[src, src + len)` and a region have one in common. -/
def overlaps (r : Region) (src len : Nat) : Bool :=
  len != 0 && r.size != 0 && r.base < src + len && src < r.base + r.size

/-- R40: the register window, 128 bytes at ENGINE_BASE. -/
def window (p : Params) : Region := ⟨p.base.toNat, 128⟩

/-- R69, X2, X3: why the spec gives no result for a source region, if it does not. -/
def sourceStop (s : State) (src len : Nat) : Option Refusal :=
  if overlaps (window s.params) src len then some .sourceOverlapsWindow
  else if s.params.device.any (fun r => overlaps r src len) then some .sourceHasSideEffects
  else none

/-- R69: a command's body when the spec gives its source regions a result, a refusal otherwise. -/
def unlessStopped (stop : Option Refusal) (body : State) : Host.Outcome State Fault Refusal :=
  match stop with
  | some r => .refused r
  | none => .next body

/-- R66: a read at this address ends in a bus error. -/
def busErrorAt (p : Params) (a : Nat) : Bool := p.busErr.any (fun r => decide (r.base ≤ a) && decide (a < r.base + r.size))

/-- The values listed for an address. -/
def valuesAt (l : List Host.Cell) (a : Nat) : List Byte := (l.filter (fun c => c.1 == a)).map (·.2)

/-- R72: the earlier values of a byte that the engine may still use: those it held during the command (item 2, U10)
and those whose replacement the host has not made visible (item 1, X5). -/
def oldBytes (s : State) (a : Nat) : List Byte := valuesAt s.raced a ++ valuesAt s.stale a

/-- The number of a stream, where a free choice is named after it. -/
def streamNum : Stream → Nat
  | .a => 0
  | .b => 1

/-- R65, R66, R72: read `i` of stream `x`: a bus error, the byte, or a free choice among the values it held. -/
def readByte (s : State) (x : Stream) (i a : Nat) : Option Byte :=
  if busErrorAt s.params a then none
  else match oldBytes s a with
    | [] => some (hostByte s.mem a)
    | o :: os =>
      let l := hostByte s.mem a :: o :: os
      some (l.getD (Config.freePick s.draws (streamNum x) i % l.length) (hostByte s.mem a))

/-- R61, R65, R77: `n` bytes of stream `x` from byte `i` on, each read once, ascending; none on a bus error. -/
def readFrom (s : State) (x : Stream) (src : Nat) : Nat → Nat → Option (List Byte)
  | _, 0 => some []
  | i, n + 1 =>
    match readByte s x i (src + i) with
    | none => none
    | some b =>
      match readFrom s x src (i + 1) n with
      | none => none
      | some bs => some (b :: bs)

/-- R61: all the bytes of a stream, or none when a read ended in a bus error (R232). -/
def readSource (s : State) (x : Stream) : Option (List Byte) := readFrom s x (srcOf s x) 0 (lenOf s x)

end Sys2Proof.Machine
end

