-- ==== Sys2Proof/Machine/Sequencer.lean ====
section
/-! DEFINITION. The command sequencer at work (10_state.md R45): the offset `seq.pos` of a stream, the step index
`seq.step`, and one block compressed in the working registers (R46 to R48) of the single-stream and dual-lane datapaths.
Every command of this model compresses its blocks here. -/

namespace Sys2Proof.Machine

/-- R45: the bytes of a stream the running command has consumed. -/
def posOf (s : State) : Stream → Nat
  | .a => s.seq.posA.toNat
  | .b => s.seq.posB.toNat

/-- R45: `seq.pos` of a stream set. -/
def setPos (x : Stream) (p : Nat) (s : State) : State :=
  match x with
  | .a => { s with seq := { s.seq with posA := BitVec.ofNat 64 p } }
  | .b => { s with seq := { s.seq with posB := BitVec.ofNat 64 p } }

/-- R45: `k` more bytes of a stream consumed. -/
def advancePos (x : Stream) (k : Nat) (s : State) : State := setPos x (posOf s x + k) s

/-- R22, R27: the digest words of a context replaced. -/
def setDigest (n : CtxId) (st : Digest) (s : State) : State := setCtx s n { getCtx s n with dig := st }

/-- R24: the residual buffer of a context replaced. -/
def setResidual (n : CtxId) (res : List Byte) (s : State) : State := setCtx s n { getCtx s n with res := res }

/-- R23: `len` more bytes counted. -/
def addCount (n : CtxId) (len : Nat) (s : State) : State :=
  setCtx s n { getCtx s n with count := (getCtx s n).count + BitVec.ofNat 64 len }

/-- R45, R126: step `seq.step` of the block in the single-stream working registers, and the index moved on (it is 0 again
after step 63). The vector datapath rotates in its sub-lane (R47, R136). -/
def singleStep (core : CoreSel) (s : State) : State :=
  let row := rowAt s.seq.step
  let x := stepSum s.work.scalar row
  let s := { s with seq := { s.seq with step := s.seq.step + 1 } }
  match core with
  | .scalar => { s with work := { s.work with scalar := rolled s.work.scalar (rotl32 x row.rot) } }
  | .vector =>
    let lane := dup x
    { s with work := { s.work with
        sublane := lane
        scalar := rolled s.work.scalar ((lane >>> (32 - row.rot)).setWidth 32) } }

/-- R130: the sixteen message words and the digest of context `n` loaded, before step 0. -/
def loadBlock (n : CtxId) (w : List Word) (s : State) : State :=
  { s with
    seq := { s.seq with step := 0 }
    work := { s.work with scalar := loadScalar (getCtx s n).dig w } }

/-- R130: the chaining addition into the digest of context `n`. -/
def storeBlock (n : CtxId) (s : State) : State := setDigest n (chainAdd s.work.scalar) s

/-- R130, R136: one block, given by its message words, compressed into context `n`. -/
def compressBlock (core : CoreSel) (n : CtxId) (w : List Word) (s : State) : State :=
  storeBlock n ((singleStep core)^[64] (loadBlock n w s))

/-- The block of `data` at offset `p`. -/
def blockAt (data : List Byte) (p : Nat) : List Byte := (data.drop p).take 64

/-- R145, R177: the next whole block of a stream into context `n`. Where `copy` holds of its offset it goes through the
residual buffer. -/
def nextBlock (core : CoreSel) (n : CtxId) (x : Stream) (copy : Nat → Bool) (data : List Byte) (s : State) : State :=
  let blk := blockAt data (posOf s x)
  let s := if copy (posOf s x) then setResidual n blk s else s
  advancePos x 64 (compressBlock core n (blockWords s.params.zeroDetect blk) s)

/-- R148: the next all-zero block of ZCOMPRESS, on the zero-fill path (R142); it counts in `seq.pos[A]` (log 15). -/
def nextZeroBlock (core : CoreSel) (n : CtxId) (s : State) : State :=
  advancePos .a 64 (compressBlock core n (List.replicate 16 0) s)

/-- R45, R139: step `seq.step` on both lanes, and the index moved on. -/
def pairStep (s : State) : State :=
  { s with
    seq := { s.seq with step := s.seq.step + 1 }
    work := { s.work with lanes := laneStep s.work.lanes (rowAt s.seq.step) } }

/-- R141: the LanePair registers loaded from both contexts. -/
def enterPair (s : State) : State :=
  { s with work := { s.work with lanes := loadLanes s.work.lanes s.c0.dig s.c1.dig } }

/-- R139: the message words of a block of each stream loaded, before step 0. -/
def loadPair (wA wB : List Word) (s : State) : State :=
  { s with
    seq := { s.seq with step := 0 }
    work := { s.work with lanes := startLanes s.work.lanes wA wB } }

/-- R139: the chaining addition in the LanePair registers. -/
def chainPair (s : State) : State := { s with work := { s.work with lanes := chainLanes s.work.lanes } }

/-- R151, R201 step 2: the next block of each stream, in lock-step. -/
def nextPair (dA dB : List Byte) (s : State) : State :=
  let s := loadPair (messageWords (blockAt dA (posOf s .a))) (messageWords (blockAt dB (posOf s .b))) s
  advancePos .b 64 (advancePos .a 64 (chainPair (pairStep^[64] s)))

/-- R141: both states stored back. -/
def leavePair (s : State) : State :=
  let st := storeLanes s.work.lanes
  setDigest .c1 st.2 (setDigest .c0 st.1 s)

/-- R141, R151, R201 step 2: a dual-lane run of `m` blocks of each stream. -/
def dualRun (m : Nat) (dA dB : List Byte) (s : State) : State := leavePair ((nextPair dA dB)^[m] (enterPair s))

end Sys2Proof.Machine
end

