-- ==== Sys2Proof/Machine/Hasher.lean ====
section
/-! DEFINITION. The residual buffer controller and the stream commands BEGIN, PROCESS and END (41_hasher.md). -/

namespace Sys2Proof.Machine

/-- `res[pos .. pos + |xs|) <- xs`. -/
def overwrite (res : List Byte) (pos : Nat) (xs : List Byte) : List Byte :=
  res.take pos ++ xs ++ res.drop (pos + xs.length)

/-- R175 with R176: `p <- 0` and step (a), the top-up of a residual that is not empty, with stream `x` for context `n`. -/
def topUp (n : CtxId) (x : Stream) (core : CoreSel) (data : List Byte) (s : State) : State :=
  let r := resLen (getCtx s n)
  let t := min (64 - r) data.length
  if r = 0 then setPos x 0 s
  else
    let res := overwrite (getCtx s n).res r (data.take t)
    let s := setPos x t (setResidual n res s)
    if r + t = 64 then compressBlock core n (blockWords s.params.zeroDetect res) s else s

/-- R177: step (b), the whole blocks that are left. -/
def wholeBlocks (n : CtxId) (x : Stream) (core : CoreSel) (copy : Nat → Bool) (data : List Byte) (s : State) : State :=
  (nextBlock core n x copy data)^[(data.length - posOf s x) / 64] s

/-- R178: step (c), the tail. -/
def tail (n : CtxId) (x : Stream) (data : List Byte) (s : State) : State :=
  if posOf s x < data.length then
    setPos x data.length (setResidual n (overwrite (getCtx s n).res 0 (data.drop (posOf s x))) s)
  else s

/-- R175: steps (b) and (c) from where the stream stands. -/
def finishStream (n : CtxId) (x : Stream) (core : CoreSel) (copy : Nat → Bool) (data : List Byte) (s : State) : State :=
  tail n x data (wholeBlocks n x core copy data s)

/-- R175: stream `x` fed to context `n`: steps (a) to (c) and the counter. -/
def feedStream (n : CtxId) (x : Stream) (core : CoreSel) (copy : Nat → Bool) (data : List Byte) (s : State) : State :=
  addCount n data.length (finishStream n x core copy data (topUp n x core data s))

/-- R177: a block goes through the residual buffer when its address is not 4-byte aligned (log 8). -/
def copyPath (src : Nat) (p : Nat) : Bool := (src + p) % 4 != 0

/-- R181: the length of the padding of a counter. -/
def padLen (c : DWord) : Nat :=
  let l := 64 - c.toNat % 64
  if l < 9 then l + 64 else l

/-- R181: byte `j` of the length field, `L = (c · 8) mod 2^64`, little-endian. -/
def lengthByte (c : DWord) (j : Nat) : Byte := (c * 8).extractLsb' (8 * j) 8

/-- R181: `Pad(c)`. -/
def padBytes (c : DWord) : List Byte :=
  [0x80] ++ List.replicate (padLen c - 9) 0 ++ (List.range 8).map (lengthByte c)

/-- R132: `MD5(m)`, as a digest. -/
def md5 (m : List Byte) : Digest := chainBlocks iv (m ++ padBytes (BitVec.ofNat 64 m.length))

/-- R170: a context just begun. The residual bytes stay, only made invalid. -/
def begunCtx (c : Ctx) : Ctx := { c with dig := iv, count := 0, phase := .active }

/-- R170: BEGIN. -/
def execBegin (n : CtxId) (_core : CoreSel) (s : State) : Host.Outcome State Fault Refusal :=
  .next (complete .none .c0 (setCtx s n (begunCtx (getCtx s n))))

/-- R175, R232: what a single-stream command leaves that has passed its checks, given the bytes it read: the state its
steps on them made, or the context in FAULT after a bus error. -/
def finishSingle (n : CtxId) (s : State) (data : Option (List Byte)) (run : List Byte → State → State) : State :=
  match data with
  | none => complete .bus n (faultAt n s)
  | some d => complete .none .c0 (run d s)

/-- R175: PROCESS. -/
def execProcess (n : CtxId) (core : CoreSel) (s : State) : Host.Outcome State Fault Refusal :=
  guarded [phaseCheck s n, rangeCheck s .a n] s
    (unlessStopped (sourceStop s (srcOf s .a) (lenOf s .a))
      (finishSingle n s (readSource s .a) (feedStream n .a core (copyPath (srcOf s .a)))))

/-- R182: the pad of context `n` in the sequencer's pad buffer. -/
def loadPad (n : CtxId) (s : State) : State :=
  { s with seq := { s.seq with pad := padBytes (getCtx s n).count } }

/-- R180: the phase of a finished context. -/
def finalise (n : CtxId) (s : State) : State := setCtx s n { getCtx s n with phase := .final }

/-- R180: END's body: the pad built in the pad buffer and fed from there, with `seq.pos[A]` for its offset (log 15). The
pad is not in memory, so no block of it takes the copy path. -/
def feedPad (n : CtxId) (core : CoreSel) (s : State) : State :=
  let s := loadPad n s
  finalise n (feedStream n .a core (fun _ => false) s.seq.pad s)

/-- R180: END. -/
def execEnd (n : CtxId) (core : CoreSel) (s : State) : Host.Outcome State Fault Refusal :=
  guarded [phaseCheck s n] s (.next (complete .none .c0 (feedPad n core s)))

end Sys2Proof.Machine
end

