-- ==== Sys2Proof/Machine/CompressCommands.lean ====
section
/-! DEFINITION. The commands that drive a single-stream datapath directly: COMPRESS and ZCOMPRESS (40_compression_core.md
R145, R148). -/

namespace Sys2Proof.Machine

/-- R145: the blocks of stream `x` compressed in order into context `n`, and the counter. -/
def compressRun (n : CtxId) (x : Stream) (core : CoreSel) (data : List Byte) (s : State) : State :=
  addCount n data.length ((nextBlock core n x (fun _ => false) data)^[data.length / 64] (setPos x 0 s))

/-- R145: COMPRESS. -/
def execCompress (n : CtxId) (core : CoreSel) (s : State) : Host.Outcome State Fault Refusal :=
  guarded [phaseCheck s n, lengthCheck s n, residualCheck s n, rangeCheck s .a n] s
    (unlessStopped (sourceStop s (srcOf s .a) (lenOf s .a))
      (finishSingle n s (readSource s .a) (compressRun n .a core)))

/-- R148: `len` zero bytes compressed into context `n` on the zero-fill path, and the counter. -/
def zeroRun (n : CtxId) (core : CoreSel) (len : Nat) (s : State) : State :=
  addCount n len ((nextZeroBlock core n)^[len / 64] (setPos .a 0 s))

/-- R148: ZCOMPRESS. -/
def execZcompress (n : CtxId) (core : CoreSel) (s : State) : Host.Outcome State Fault Refusal :=
  guarded [phaseCheck s n, lengthCheck s n, residualCheck s n] s
    (.next (complete .none .c0 (zeroRun n core (lenOf s .a) s)))

end Sys2Proof.Machine
end

