-- ==== Sys2Proof/Machine/Dual.lean ====
section
/-! DEFINITION. The dual-stream commands: PROCESS_DUAL through the coordinator (42_dual_stream.md R200 to R204) and
COMPRESS_DUAL (40_compression_core.md R151). -/

namespace Sys2Proof.Machine

/-- R201 step 1: `open[X]`, the residual of context `c` is empty after the top-up with `data`. -/
def openAfterTopUp (c : Ctx) (data : List Byte) : Bool := resLen c == 0 || decide (64 ≤ resLen c + data.length)

/-- R201 step 2: `q[X]`, the whole blocks a stream whose context was `c` has left after its top-up. -/
def openBlocks (c : Ctx) (data : List Byte) (pos : Nat) : Nat :=
  if openAfterTopUp c data then (data.length - pos) / 64 else 0

/-- R201: the canonical schedule on two streams that read without a bus error. -/
def coordinate (core : CoreSel) (copyA copyB : Nat → Bool) (dA dB : List Byte) (s : State) : State :=
  let u := topUp .c1 .b core dB (topUp .c0 .a core dA s)
  let m := min (openBlocks s.c0 dA (posOf u .a)) (openBlocks s.c1 dB (posOf u .b))
  let v := dualRun m dA dB u
  let w := finishStream .c1 .b core copyB dB (finishStream .c0 .a core copyA dA v)
  addCount .c1 dB.length (addCount .c0 dA.length w)

/-- R107, R232: what a dual command leaves that has passed its checks, given the bytes of each stream (none after a bus
error): `both` runs on two streams, and `one` on the stream a bus error has left alone. -/
def finishDual (s : State) (dA dB : Option (List Byte)) (both : List Byte → List Byte → State → State)
    (one : CtxId → Stream → List Byte → State → State) : State :=
  match dA, dB with
  | some a, some b => complete .none .c0 (both a b s)
  | some a, none => complete .bus .c1 (faultAt .c1 (one .c0 .a a s))
  | none, some b => complete .bus .c0 (faultAt .c0 (one .c1 .b b s))
  | none, none => complete .bus .c0 (faultAt .c1 (faultAt .c0 s))

/-- R69: the first stream whose source region the spec gives no result for. -/
def dualStop (s : State) : Option Refusal :=
  match sourceStop s (srcOf s .a) (lenOf s .a) with
  | some r => some r
  | none => sourceStop s (srcOf s .b) (lenOf s .b)

/-- R200: PROCESS_DUAL. The stream a bus error has left alone runs to the end of its data as PROCESS does (R232). -/
def execProcessDual (core : CoreSel) (s : State) : Host.Outcome State Fault Refusal :=
  guarded [phaseCheck s .c0, phaseCheck s .c1, lenMatchCheck s, rangeCheck s .a .c0, rangeCheck s .b .c1] s
    (unlessStopped (dualStop s)
      (finishDual s (readSource s .a) (readSource s .b)
        (coordinate core (copyPath (srcOf s .a)) (copyPath (srcOf s .b)))
        (fun n x => feedStream n x core (copyPath (srcOf s x)))))

/-- R151: the blocks of both streams in lock-step, and the counters. -/
def compressPair (dA dB : List Byte) (s : State) : State :=
  addCount .c1 dB.length (addCount .c0 dA.length
    (dualRun (dA.length / 64) dA dB (setPos .b 0 (setPos .a 0 s))))

/-- R151: COMPRESS_DUAL. CORE selects nothing. The stream a bus error has left alone ends as COMPRESS on it alone would
leave it (R232 item 3), on the scalar datapath (log 12). -/
def execCompressDual (_core : CoreSel) (s : State) : Host.Outcome State Fault Refusal :=
  guarded [phaseCheck s .c0, phaseCheck s .c1, lenMatchCheck s, lengthCheck s .c0, residualCheck s .c0,
      residualCheck s .c1, rangeCheck s .a .c0, rangeCheck s .b .c1] s
    (unlessStopped (dualStop s)
      (finishDual s (readSource s .a) (readSource s .b) compressPair (fun n x => compressRun n x .scalar)))

end Sys2Proof.Machine
end

