-- ==== Sys2Proof/Machine/Dispatch.lean ====
section
/-! DEFINITION. The dispatch of a decoded command to its meaning (30_encoding.md R99). -/

namespace Sys2Proof.Machine

def exec (i : Instr) (s : State) : Host.Outcome State Fault Refusal :=
  match i with
  | .beginCtx n core => Sys2Proof.Machine.execBegin n core s
  | .process n core => Sys2Proof.Machine.execProcess n core s
  | .endCtx n core => Sys2Proof.Machine.execEnd n core s
  | .compress n core => Sys2Proof.Machine.execCompress n core s
  | .zcompress n core => Sys2Proof.Machine.execZcompress n core s
  | .processDual core => Sys2Proof.Machine.execProcessDual core s
  | .compressDual core => Sys2Proof.Machine.execCompressDual core s

end Sys2Proof.Machine
end

