-- ==== Sys2Proof/WellFormed.lean ====
section
/-! DEFINITION. The three checks a command word's fields must pass (30_encoding.md R97, R99). An `Instr` cannot be
built ill-formed (the type has no place for a bad field); the checks are on `Fields`, what a word says. -/

namespace Sys2Proof

/-- R94: bits 31:6 are zero. -/
def Fields.rsvdOk (f : Fields) : Bool := f.rsvd == 0

/-- R96: OP is one of 0x1 to 0x7. -/
def Fields.opOk (f : Fields) : Bool := 0x1 ≤ f.op && f.op ≤ 0x7

/-- R92: a dual-stream command (OP 0x6, 0x7) has CTX = 0. -/
def Fields.ctxOk (f : Fields) : Bool := !((f.op == 0x6 || f.op == 0x7) && f.ctx == 1)

/-- A legal command word's fields (the complement of R97). -/
def Fields.wellFormed (f : Fields) : Bool := f.rsvdOk && f.opOk && f.ctxOk

/-- An instruction is well-formed when the fields it is written with are. -/
def Instr.wellFormed (i : Instr) : Bool := i.fields.wellFormed

end Sys2Proof
end

