-- ==== Sys2Proof/Decode.lean ====
section
/-! DEFINITION. The decoder of 30_encoding.md R99, total on every 32-bit word, rejecting by name, and the encoder. -/

namespace Sys2Proof

/-- Why a word is illegal: the check of R99 that fails first. -/
inductive DecodeError where
  /-- RSVD ≠ 0 (R94). -/
  | reservedBits
  /-- OP is 0x0 or in 0x8..0xF (R97). -/
  | badOpcode
  /-- A dual-stream word with CTX = 1 (R92). -/
  | dualContext
  deriving DecidableEq, Repr

/-- R90: the fields of a command word. -/
def fieldsOfWord (w : Word) : Fields where
  op := w.extractLsb' 0 4
  ctx := w.extractLsb' 4 1
  core := w.extractLsb' 5 1
  rsvd := w.extractLsb' 6 26

/-- R90: the word that holds the fields. -/
def wordOfFields (f : Fields) : Word := f.rsvd ++ f.core ++ f.ctx ++ f.op

/-- R92: the context a CTX field names. -/
def ctxOfBit (b : BitVec 1) : CtxId := if b = 0 then .c0 else .c1

/-- R93: the datapath a CORE field asks for. -/
def coreOfBit (b : BitVec 1) : CoreSel := if b = 0 then .scalar else .vector

/-- R99: the dispatch on OP; every OP outside 0x1..0x7 is illegal. -/
def dispatchOp (f : Fields) : Except DecodeError Instr :=
  let n := ctxOfBit f.ctx
  let k := coreOfBit f.core
  if f.op = 0x1 then .ok (.beginCtx n k)
  else if f.op = 0x2 then .ok (.process n k)
  else if f.op = 0x3 then .ok (.endCtx n k)
  else if f.op = 0x4 then .ok (.compress n k)
  else if f.op = 0x5 then .ok (.zcompress n k)
  else if f.op = 0x6 then (if f.ctx = 0 then .ok (.processDual k) else .error .dualContext)
  else if f.op = 0x7 then (if f.ctx = 0 then .ok (.compressDual k) else .error .dualContext)
  else .error .badOpcode

/-- R99: the decoder. The order of the checks is the rule's; every failure has the same effect (R97). -/
def decode (w : Word) : Except DecodeError Instr :=
  if (fieldsOfWord w).rsvdOk then dispatchOp (fieldsOfWord w) else .error .reservedBits

/-- The word of an instruction (R90, R96). -/
def encode (i : Instr) : Word := wordOfFields i.fields

/-- The instruction the decoder reads from a word of `nbits` bits numbered as spec/opcode_table.json numbers
them. CMD is 32 bits wide (R35), so the word is the low 32 bits. -/
def decodeTableWord (nbits w : Nat) : Option Instr :=
  match decode (BitVec.ofNat 32 (w % 2 ^ nbits)) with
  | .ok i => some i
  | .error _ => none

end Sys2Proof
end

