-- ==== Sys2Proof/Machine/HostPort.lean ====
section
/-! DEFINITION. The host's and the platform's side: the register window (10_state.md R30 to R41), the CMD write
(30_encoding.md R103), stores to host memory and their visibility (20_memory.md R72, R76), the platform's memory map
(R66) and RESET (70_reset_and_hazards.md R260). -/

namespace Sys2Proof.Machine

/-- R40: the four argument registers. -/
inductive ArgName where
  | srcA
  | srcB
  | lenA
  | lenB
  deriving DecidableEq, Repr

/-- The two halves of a 64-bit register (R30, R37). -/
inductive Half where
  | lo
  | hi
  deriving DecidableEq, Repr

/-- R40: the registers of the window. -/
inductive Reg where
  | cmd
  | status
  | ctrl
  | arg (x : ArgName) (h : Half)
  | digA (n : CtxId)
  | digB (n : CtxId)
  | digC (n : CtxId)
  | digD (n : CtxId)
  | cnt (n : CtxId) (h : Half)
  | ctxstat (n : CtxId)
  | reserved
  deriving DecidableEq, Repr

/-- R40: the register map; an offset that is not listed is reserved. -/
def regMap : List (Nat × Reg) := [
  (0x000, .cmd), (0x004, .status), (0x008, .ctrl),
  (0x010, .arg .srcA .lo), (0x014, .arg .srcA .hi),
  (0x018, .arg .srcB .lo), (0x01C, .arg .srcB .hi),
  (0x020, .arg .lenA .lo), (0x024, .arg .lenA .hi),
  (0x028, .arg .lenB .lo), (0x02C, .arg .lenB .hi),
  (0x040, .digA .c0), (0x044, .digB .c0), (0x048, .digC .c0), (0x04C, .digD .c0),
  (0x050, .cnt .c0 .lo), (0x054, .cnt .c0 .hi), (0x058, .ctxstat .c0),
  (0x060, .digA .c1), (0x064, .digB .c1), (0x068, .digC .c1), (0x06C, .digD .c1),
  (0x070, .cnt .c1 .lo), (0x074, .cnt .c1 .hi), (0x078, .ctxstat .c1)]

/-- R40: the register at an offset of the window. -/
def regAt (off : Nat) : Reg := (regMap.lookup off).getD .reserved

/-- R41: the accesses whose effect the spec defines: 32 bits, 4-byte aligned, inside the window. -/
def accessOk (off width : Nat) : Bool := width == 4 && off % 4 == 0 && off < 0x080

/-- R30: bits 31:0 or 63:32. -/
def halfOf (v : DWord) : Half → Word
  | .lo => v.extractLsb' 0 32
  | .hi => v.extractLsb' 32 32

/-- R30, R95: `HI ‖ LO` with one half replaced. -/
def setHalf (v : DWord) (h : Half) (w : Word) : DWord :=
  match h with
  | .lo => halfOf v .hi ++ w
  | .hi => w ++ halfOf v .lo

/-- R30: the value of an argument register. -/
def getArg (r : Args) : ArgName → DWord
  | .srcA => r.srcA
  | .srcB => r.srcB
  | .lenA => r.lenA
  | .lenB => r.lenB

/-- R30: an argument register replaced. -/
def setArg (r : Args) (x : ArgName) (v : DWord) : Args :=
  match x with
  | .srcA => { r with srcA := v }
  | .srcB => { r with srcB := v }
  | .lenA => { r with lenA := v }
  | .lenB => { r with lenB := v }

/-- R20, R92: the contexts a command uses. -/
def instrUses (i : Instr) (n : CtxId) : Bool :=
  match i with
  | .beginCtx m _ => m == n
  | .process m _ => m == n
  | .endCtx m _ => m == n
  | .compress m _ => m == n
  | .zcompress m _ => m == n
  | .processDual _ => true
  | .compressDual _ => true

/-- R38: the running command uses context `n`; an illegal word uses none (R97). -/
def inUse (s : State) (n : CtxId) : Bool :=
  s.status.busy &&
    match decode s.seq.cmd with
    | .ok i => instrUses i n
    | .error _ => false

/-- R37: digest and counter of a context in this phase are unspecified. -/
def undefinedPhase (p : Phase) : Bool := p == .idle || p == .fault

/-- R37, R38: a read of a digest or counter register of context `n` that holds `v`. -/
def readCtxWord (s : State) (n : CtxId) (v : Word) : Word :=
  if inUse s n || undefinedPhase (getCtx s n).phase then Config.freeRead s.draws else v

/-- R36, R38: a read of CTXSTAT_n. RESLEN alone is unspecified in IDLE and FAULT. -/
def readCtxStat (s : State) (n : CtxId) : Word :=
  let c := getCtx s n
  if inUse s n then Config.freeRead s.draws
  else if undefinedPhase c.phase then ctxStatWord c.phase ((Config.freeRead s.draws).extractLsb' 0 6)
  else ctxStatWord c.phase (c.count.extractLsb' 0 6)

/-- R35 to R40: what a host read of a register returns. -/
def readReg (s : State) : Reg → Word
  | .cmd => 0
  | .status => statusWord s.status
  | .ctrl => ctrlWord s.ctrlIE
  | .arg x h => halfOf (getArg s.args x) h
  | .digA n => readCtxWord s n (getCtx s n).dig.a
  | .digB n => readCtxWord s n (getCtx s n).dig.b
  | .digC n => readCtxWord s n (getCtx s n).dig.c
  | .digD n => readCtxWord s n (getCtx s n).dig.d
  | .cnt n h => readCtxWord s n (halfOf (getCtx s n).count h)
  | .ctxstat n => readCtxStat s n
  | .reserved => 0

/-- R103: a host write of `v` to CMD: discarded with OVR while BUSY = 1, accepted otherwise. -/
def writeCmd (v : Word) (s : State) : State :=
  if s.status.busy then { s with status := statusOverrun s.status } else accept v s

/-- R30, R33 to R37, R39: what a host write of `v` to a register does. -/
def writeReg (r : Reg) (v : Word) (s : State) : State :=
  match r with
  | .cmd => writeCmd v s
  | .status => { s with status := statusWrite s.status v }
  | .ctrl => { s with ctrlIE := ctrlWrite v }
  | .arg x h => { s with args := setArg s.args x (setHalf (getArg s.args x) h v) }
  | .digA _ => s
  | .digB _ => s
  | .digC _ => s
  | .digD _ => s
  | .cnt _ _ => s
  | .ctxstat _ => s
  | .reserved => s

/-- A host read: the value it delivers, and one draw used. -/
def hostRead (r : Reg) (s : State) : State := { s with rdata := some (readReg s r), draws := s.draws + 1 }

/-- R72: a host store of one byte. Until the host makes it visible the engine may still see the old value (item 1),
and a running command may use either (item 2). -/
def hostStore (a : Nat) (b : Byte) (s : State) : State :=
  let old : Host.Cell := (a, hostByte s.mem a)
  { s with
    mem := memSet s.mem a b
    stale := old :: s.stale
    raced := if s.status.busy then old :: s.raced else s.raced }

/-- R72 item 1, R76: the host makes its stores visible. A running command may have read old values before. -/
def publishStores (s : State) : State :=
  { s with
    stale := []
    raced := if s.status.busy then s.stale ++ s.raced else s.raced }

/-- R40: an address inside the register window. -/
def inWindow (p : Params) (a : Nat) : Bool := p.base.toNat ≤ a && a < p.base.toNat + 128

/-- One event of the host or of the platform. -/
def hostEvent (e : HostEvent) (s : State) : Host.Outcome State Fault Refusal :=
  match e with
  | .regWrite off width v => if accessOk off width then .next (writeReg (regAt off) v s) else .refused .registerAccess
  | .regRead off width => if accessOk off width then .next (hostRead (regAt off) s) else .refused .registerAccess
  | .memStore a b =>
    if 2 ^ 64 ≤ a then .fault .noSuchAddress
    else if inWindow s.params a then .refused .registerAccess
    else .next (hostStore a b s)
  | .publish => .next (publishStores s)
  | .busMap rs => .next { s with params := { s.params with busErr := rs } }
  | .reset => .next (resetEngine s)

end Sys2Proof.Machine
end

