-- ==== Sys2Proof/Machine/Step.lean ====
section
/-! DEFINITION. One step: the next entry of the schedule, the engine's turn or an event of the host (log 1). The engine's
turn runs the accepted command from its decoding to its completion (30_encoding.md R105 to R107). -/

namespace Sys2Proof.Machine

/-- R105: the accepted word decoded and executed; an illegal word completes with (ERR_ENCODING, 0) (R97, R226). -/
def runCommand (s : State) : Host.Outcome State Fault Refusal :=
  match decode s.seq.cmd with
  | .ok i => exec i s
  | .error _ => .next (complete .encoding .c0 s)

/-- The engine's turn: the running command to its completion; an idle engine waits (R262). -/
def engineTurn (s : State) : Host.Outcome State Fault Refusal :=
  if s.status.busy then runCommand s else .next s

/-- One step of the machine. -/
def step (s : State) : Host.Outcome State Fault Refusal :=
  match s.inputs with
  | [] => engineTurn s
  | .engine :: rest => engineTurn { s with inputs := rest }
  | .host e :: rest => hostEvent e { s with inputs := rest }

/-- The engine has accepted the command word `w` (R104) and has its turn next, so that the very next step runs
exactly that command. CMD is 32 bits wide (R35); nothing is fetched from memory (R75). -/
def State.withFetchWord (s : State) (nbits w : Nat) : State :=
  accept (BitVec.ofNat 32 (w % 2 ^ nbits)) { s with inputs := .engine :: s.inputs }

end Sys2Proof.Machine
end

