-- ==== Sys2Proof/Safety.lean ====
section
/-! DEFINITION. The terms the statements use: the stream a context holds (10_state.md R27), contexts that no command and
no read can tell apart (R24, R50), the precondition checks as one ordered list (60_exceptions.md R225), source regions
that can be read, and the invariant every step keeps. -/

namespace Sys2Proof

open Sys2Proof.Machine

/-- R24: the valid residual of a context. -/
def validRes (c : Ctx) : List Byte := c.res.take (resLen c)

/-- R24, R50: equal but for the residual bytes that hold no defined value. -/
def SameCtx (c c' : Ctx) : Prop :=
  c.dig = c'.dig ∧ c.count = c'.count ∧ c.phase = c'.phase ∧ validRes c = validRes c'

/-- The whole 64-byte blocks of a byte sequence. -/
def wholePart (m : List Byte) : List Byte := m.take (64 * (m.length / 64))

/-- What is left of a byte sequence after its whole blocks. -/
def tailPart (m : List Byte) : List Byte := m.drop (64 * (m.length / 64))

/-- R27: the context's stream since its last BEGIN is `m`. -/
structure Holds (c : Ctx) (m : List Byte) : Prop where
  count : c.count = BitVec.ofNat 64 m.length
  dig : c.dig = chainBlocks iv (wholePart m)
  res : validRes c = tailPart m

/-- R27: every ACTIVE or FINAL context holds some stream. -/
def StreamsHeld (s : State) : Prop :=
  ∀ n, (getCtx s n).phase = .active ∨ (getCtx s n).phase = .final → ∃ m, Holds (getCtx s n) m

/-- R40, R69: byte `j` of a stream's source region lies in the 128 bytes at ENGINE_BASE. -/
def OverWindow (s : State) (x : Stream) : Prop :=
  ∃ j, j < lenOf s x ∧ s.params.base.toNat ≤ srcOf s x + j ∧ srcOf s x + j < s.params.base.toNat + 128

/-- R69, X3: byte `j` of a stream's source region lies in memory whose reads have side effects. -/
def OverDevice (s : State) (x : Stream) : Prop :=
  ∃ j, j < lenOf s x ∧ ∃ r ∈ s.params.device, r.base ≤ srcOf s x + j ∧ srcOf s x + j < r.base + r.size

/-- R61: the source region of a stream is neither the register window nor memory with side effects. -/
def SourceClear (s : State) (x : Stream) : Prop := sourceStop s (srcOf s x) (lenOf s x) = none

/-- R66: no read of the source region ends in a bus error. -/
def SourceReadable (s : State) (x : Stream) : Prop :=
  ∀ i, i < lenOf s x → busErrorAt s.params (srcOf s x + i) = false

/-- R72: the host has made its stores to the source region visible and none races with the command. -/
def SourceSettled (s : State) (x : Stream) : Prop := ∀ i, i < lenOf s x → oldBytes s (srcOf s x + i) = []

/-- R61: the bytes host memory holds in the source region of a stream. -/
def sourceBytes (s : State) (x : Stream) : List Byte :=
  (List.range (lenOf s x)).map (fun i => hostByte s.mem (srcOf s x + i))

/-- R72: byte `b` is one of the values address `a` held that the engine may use. -/
def HeldAt (s : State) (a : Nat) (b : Byte) : Prop := b = hostByte s.mem a ∨ b ∈ oldBytes s a

/-- R72, U10: `data` is a possible reading of a stream's source region: byte by byte one of the values held there. -/
def ReadingOf (s : State) (x : Stream) (data : List Byte) : Prop :=
  data.length = lenOf s x ∧ ∀ i, i < lenOf s x → HeldAt s (srcOf s x + i) (data.getD i 0)

/-- R225: the precondition checks of a command, in order, on the latched arguments. -/
def checksOf (i : Instr) (s : State) : List Check :=
  let ph := fun n => (decide ((getCtx s n).phase = .active), ErrCode.phase, n)
  let rsd := fun n => (decide ((getCtx s n).count.toNat % 64 = 0), ErrCode.residual, n)
  let rng := fun x n => (decide (lenOf s x = 0 ∨ srcOf s x + lenOf s x ≤ 2 ^ 64), ErrCode.range, n)
  let len := fun n => (decide (lenOf s .a ≠ 0 ∧ lenOf s .a % 64 = 0), ErrCode.length, n)
  let mis := (decide (lenOf s .a = lenOf s .b), ErrCode.lenMismatch, CtxId.c0)
  match i with
  | .beginCtx _ _ => []
  | .process n _ => [ph n, rng .a n]
  | .endCtx n _ => [ph n]
  | .compress n _ => [ph n, len n, rsd n, rng .a n]
  | .zcompress n _ => [ph n, len n, rsd n]
  | .processDual _ => [ph .c0, ph .c1, mis, rng .a .c0, rng .b .c1]
  | .compressDual _ => [ph .c0, ph .c1, mis, len .c0, rsd .c0, rsd .c1, rng .a .c0, rng .b .c1]

/-- R60: the streams whose source region a command reads. -/
def streamsOf : Instr → List Stream
  | .beginCtx _ _ => []
  | .process _ _ => [.a]
  | .endCtx _ _ => []
  | .compress _ _ => [.a]
  | .zcompress _ _ => []
  | .processDual _ => [.a, .b]
  | .compressDual _ => [.a, .b]

/-- R93: the same command with another CORE. -/
def withCore (k : CoreSel) : Instr → Instr
  | .beginCtx n _ => .beginCtx n k
  | .process n _ => .process n k
  | .endCtx n _ => .endCtx n k
  | .compress n _ => .compress n k
  | .zcompress n _ => .zcompress n k
  | .processDual _ => .processDual k
  | .compressDual _ => .compressDual k

/-- The latched arguments replaced: the same machine with another command's operands. -/
def withLatched (s : State) (r : Args) : State := { s with seq := { s.seq with args := r } }

/-- The latched arguments with stream B's operands in the place of stream A's. -/
def streamBFirst (r : Args) : Args := { r with srcA := r.srcB, lenA := r.lenB }

/-- Everything a command leaves alone whatever it does: host memory (R60), argument registers (R77), CTRL and OVR (R33),
the platform, the host's own lists. -/
def OutsideUnchanged (s t : State) : Prop :=
  t.mem = s.mem ∧ t.args = s.args ∧ t.ctrlIE = s.ctrlIE ∧ t.status.ovr = s.status.ovr ∧ t.params = s.params ∧
    t.stale = s.stale ∧ t.inputs = s.inputs ∧ t.rdata = s.rdata

/-- R107: STATUS after a completion with result `(code, c)`. -/
def Reported (s t : State) (code : ErrCode) (c : CtxId) : Prop :=
  t.status = { busy := false, done := true, ovr := s.status.ovr, errctx := c, errcode := code }

/-- R41, R60: an event that neither stops the model nor resets the engine. -/
def OrdinaryEvent (p : Params) : HostEvent → Prop
  | .regWrite off width _ => width = 4 ∧ off % 4 = 0 ∧ off < 0x080
  | .regRead off width => width = 4 ∧ off % 4 = 0 ∧ off < 0x080
  | .memStore a _ => a < 2 ^ 64 ∧ ¬(p.base.toNat ≤ a ∧ a < p.base.toNat + 128)
  | .publish => True
  | .busMap _ => True
  | .reset => False

/-- What holds in every state a run reaches, and every step keeps. -/
structure Inv (s : State) : Prop where
  /-- Host memory is in its canonical form. -/
  mem : Memory.wf s.mem
  /-- R24: a residual buffer has 64 bytes. -/
  res : ∀ n, (getCtx s n).res.length = 64
  /-- R104: while a command runs there is no completion and no error to report. -/
  busy : s.status.busy = true → s.status.done = false ∧ s.status.errcode = .none
  /-- R32: ERRCTX is 0 when ERRCODE is 0, and for the errors that name no context (R221). -/
  errctx : s.status.errcode ∈ [ErrCode.none, ErrCode.encoding, ErrCode.lenMismatch] → s.status.errctx = .c0
  /-- R72: only a running command races. -/
  raced : s.status.busy = false → s.raced = []
  /-- R45: while a command runs, no offset has passed the length of its stream. -/
  pos : s.status.busy = true → ∀ x, posOf s x ≤ lenOf s x
  /-- R182: the pad buffer has at most 72 bytes. -/
  pad : s.seq.pad.length ≤ 72
  /-- R46, R48: sixteen message words. -/
  words : s.work.scalar.w.length = 16 ∧ s.work.lanes.w.length = 16

end Sys2Proof
end

