-- ==== Sys2Proof/Certificates/Slice0/Obligations.lean ====
section
/-! DEFINITION. The statements about MD5CE, each formalising or resting on numbered rules of spec/. -/

open Sys2Proof Sys2Proof.Machine

/-! ## Encoding -/

/-- R90, R99: decoding an encoded instruction gives it back, and the only word that decodes to an instruction is its
encoding, over all 2^32 words. -/
def Obligations.DecodeEncodeAgree : Prop :=
  ∀ (w : Word) (i : Instr), decode w = .ok i ↔ w = encode i

/-- R98: the match and mask table selects the commands, and a word that matches no row is illegal. -/
def Obligations.MatchMaskTable : Prop :=
  ∀ w : Word,
    ((∃ n k, decode w = .ok (.beginCtx n k)) ↔ w &&& 0xFFFFFFCF = 0x00000001) ∧
    ((∃ n k, decode w = .ok (.process n k)) ↔ w &&& 0xFFFFFFCF = 0x00000002) ∧
    ((∃ n k, decode w = .ok (.endCtx n k)) ↔ w &&& 0xFFFFFFCF = 0x00000003) ∧
    ((∃ n k, decode w = .ok (.compress n k)) ↔ w &&& 0xFFFFFFCF = 0x00000004) ∧
    ((∃ n k, decode w = .ok (.zcompress n k)) ↔ w &&& 0xFFFFFFCF = 0x00000005) ∧
    ((∃ k, decode w = .ok (.processDual k)) ↔ w &&& 0xFFFFFFDF = 0x00000006) ∧
    ((∃ k, decode w = .ok (.compressDual k)) ↔ w &&& 0xFFFFFFDF = 0x00000007) ∧
    ((∃ e, decode w = .error e) ↔
      (∀ v ∈ [0x00000001, 0x00000002, 0x00000003, 0x00000004, 0x00000005], w &&& 0xFFFFFFCF ≠ v) ∧
      (∀ v ∈ [0x00000006, 0x00000007], w &&& 0xFFFFFFDF ≠ v))

/-- R97, R226: the illegal words, and what the engine's turn does with one: it completes with (ERR_ENCODING, 0) and
changes no context. -/
def Obligations.IllegalWordCompletes : Prop :=
  (∀ w : Word, (∃ e, decode w = .error e) ↔
    w.toNat % 16 = 0 ∨ 8 ≤ w.toNat % 16 ∨ w.toNat / 64 ≠ 0 ∨
      ((w.toNat % 16 = 6 ∨ w.toNat % 16 = 7) ∧ w.toNat / 16 % 2 = 1)) ∧
  (∀ (s : State) (rest : List Input) (e : DecodeError), s.status.busy = true → decode s.seq.cmd = .error e →
    s.inputs = .engine :: rest → ∃ t, step s = .next t ∧ Reported s t .encoding .c0 ∧ t.c0 = s.c0 ∧ t.c1 = s.c1 ∧
      OutsideUnchanged { s with inputs := rest } t)

/-- R100: the common command words. -/
def Obligations.CommonWordsDecode : Prop :=
  decode 0x00000001 = .ok (.beginCtx .c0 .scalar) ∧ decode 0x00000011 = .ok (.beginCtx .c1 .scalar) ∧
  decode 0x00000002 = .ok (.process .c0 .scalar) ∧ decode 0x00000022 = .ok (.process .c0 .vector) ∧
  decode 0x00000012 = .ok (.process .c1 .scalar) ∧ decode 0x00000032 = .ok (.process .c1 .vector) ∧
  decode 0x00000003 = .ok (.endCtx .c0 .scalar) ∧ decode 0x00000013 = .ok (.endCtx .c1 .scalar) ∧
  decode 0x00000004 = .ok (.compress .c0 .scalar) ∧ decode 0x00000034 = .ok (.compress .c1 .vector) ∧
  decode 0x00000005 = .ok (.zcompress .c0 .scalar) ∧ decode 0x00000025 = .ok (.zcompress .c0 .vector) ∧
  decode 0x00000006 = .ok (.processDual .scalar) ∧ decode 0x00000026 = .ok (.processDual .vector) ∧
  decode 0x00000007 = .ok (.compressDual .scalar) ∧ decode 0x00000027 = .ok (.compressDual .vector)

/-! ## Command lifecycle -/

/-- R103, R104: a host write to CMD is discarded with OVR while BUSY = 1, and is accepted otherwise. -/
def Obligations.CmdWriteAcceptedOrDiscarded : Prop :=
  ∀ (s : State) (v : Word) (rest : List Input), s.inputs = .host (.regWrite 0x000 4 v) :: rest →
    (s.status.busy = true → step s = .next { s with inputs := rest, status := { s.status with ovr := true } }) ∧
    (s.status.busy = false → step s = .next { s with
      inputs := rest
      seq := { s.seq with cmd := v, args := s.args, posA := 0, posB := 0 }
      status := { s.status with busy := true, done := false, errcode := .none, errctx := .c0 }
      raced := [] })

/-- R99, R105, R262: the engine's turn runs the command the accepted word decodes to; so does the step after
`withFetchWord` places that word; and an idle engine waits. -/
def Obligations.StepRunsDecodedCommand : Prop :=
  (∀ (s : State) (i : Instr), decode s.seq.cmd = .ok i → s.status.busy = true →
    (s.inputs = [] → step s = exec i s) ∧
    (∀ rest, s.inputs = .engine :: rest → step s = exec i { s with inputs := rest })) ∧
  (∀ (s : State) (w : Nat) (i : Instr), w < 2 ^ 32 → decode (BitVec.ofNat 32 w) = .ok i →
    step (s.withFetchWord 32 w) = exec i (accept (BitVec.ofNat 32 w) s)) ∧
  (∀ s : State, s.status.busy = false → (s.inputs = [] → step s = .next s) ∧
    (∀ rest, s.inputs = .engine :: rest → step s = .next { s with inputs := rest }))

/-- R225, R228: the first failing check of R225's table is what a command reports; it changes no context and reads no
memory (its outcome is the same on every memory and platform). When every check passes, no check's code is reported. -/
def Obligations.FirstFailingCheckReported : Prop :=
  ∀ (i : Instr) (s : State),
    (∀ code c, firstError (checksOf i s) = some (code, c) →
      ∃ t, exec i s = .next t ∧ Reported s t code c ∧ t.c0 = s.c0 ∧ t.c1 = s.c1 ∧ OutsideUnchanged s t ∧
        ∀ m p, exec i { s with mem := m, params := p } = .next { t with mem := m, params := p }) ∧
    (firstError (checksOf i s) = none → ∀ t, exec i s = .next t →
      Reported s t .none .c0 ∨ ∃ c, Reported s t .bus c)

/-- R106: an accepted command completes, whatever ordinary events the host puts before the engine's turn, unless its
source region is one the spec gives no result for (X2, X3). -/
def Obligations.AcceptedCommandCompletes : Prop :=
  ∀ s : State, s.status.busy = true →
    (∀ x ∈ s.inputs, x = .engine ∨ ∃ e, x = .host e ∧ OrdinaryEvent s.params e) →
    ∃ k, k ≤ s.inputs.length + 1 ∧
      ((∃ t : State, Sys2Proof.core.run k s = .next t ∧ t.status.busy = false ∧ t.status.done = true) ∨
       (∃ r, Sys2Proof.core.run k s = .refused r ∧ (r = .sourceOverlapsWindow ∨ r = .sourceHasSideEffects)))

/-! ## Frames and phases -/

/-- R60, R77, R20: no command writes host memory, an argument register, CTRL, OVR or the platform, nor a context it does
not use. -/
def Obligations.CommandFrame : Prop :=
  ∀ (i : Instr) (s t : State), exec i s = .next t →
    OutsideUnchanged s t ∧ (∀ a, hostByte t.mem a = hostByte s.mem a) ∧
      ∀ n, instrUses i n = false → getCtx t n = getCtx s n

/-- R26: the only phase changes a step makes: reset to IDLE, BEGIN to ACTIVE, END from ACTIVE to FINAL, and a bus error
of a command on the context, from ACTIVE to FAULT. -/
def Obligations.PhaseTransitions : Prop :=
  ∀ (s t : State) (n : CtxId), step s = .next t →
    (getCtx t n).phase = (getCtx s n).phase ∨
    (s.inputs.head? = some (.host .reset) ∧ (getCtx t n).phase = .idle) ∨
    (s.status.busy = true ∧ ∃ i, decode s.seq.cmd = .ok i ∧
      ((∃ k, i = .beginCtx n k ∧ (getCtx t n).phase = .active) ∨
       (∃ k, i = .endCtx n k ∧ (getCtx s n).phase = .active ∧ (getCtx t n).phase = .final) ∨
       (instrUses i n = true ∧ (getCtx s n).phase = .active ∧ (getCtx t n).phase = .fault ∧ t.status.errcode = .bus)))

/-- R186: after END the context is FINAL, and on a FINAL context every command but BEGIN is rejected with ERR_PHASE and
leaves both contexts as they were. -/
def Obligations.FinalisationIsOneWay : Prop :=
  (∀ (n : CtxId) (k : CoreSel) (s t : State), (getCtx s n).phase = .active → exec (.endCtx n k) s = .next t →
    (getCtx t n).phase = .final) ∧
  (∀ (i : Instr) (n : CtxId) (s : State), (getCtx s n).phase = .final → instrUses i n = true →
    (∀ k, i ≠ .beginCtx n k) →
    ∃ t c, exec i s = .next t ∧ Reported s t .phase c ∧ t.c0 = s.c0 ∧ t.c1 = s.c1 ∧ OutsideUnchanged s t)

/-- R21, R37: no event of the host but RESET changes a context, and only a CMD write or RESET touches the sequencer. -/
def Obligations.HostCannotWriteContexts : Prop :=
  ∀ (s t : State) (e : HostEvent) (rest : List Input), s.inputs = .host e :: rest → e ≠ .reset → step s = .next t →
    t.c0 = s.c0 ∧ t.c1 = s.c1 ∧ ((∀ v, e ≠ .regWrite 0x000 4 v) → t.seq = s.seq ∧ t.status.busy = s.status.busy)

/-- R237, R33: OVR is set by a CMD write while BUSY = 1 and by nothing else, and cleared by RESET or by writing 1 to it
and by nothing else. -/
def Obligations.OverrunIsSticky : Prop :=
  ∀ s t : State, step s = .next t →
    (s.status.ovr = true → t.status.ovr = false →
      s.inputs.head? = some (.host .reset) ∨
      ∃ v : Word, s.inputs.head? = some (.host (.regWrite 0x004 4 v)) ∧ v.getLsbD 2 = true) ∧
    (s.status.ovr = false → t.status.ovr = true →
      s.status.busy = true ∧ ∃ v, s.inputs.head? = some (.host (.regWrite 0x000 4 v)))

/-- The invariant of Safety.lean (R24, R32, R45, R60, R72, R104, R182) is kept by every step from every state; and so is
the chaining invariant of R27, that every ACTIVE or FINAL context holds some stream. -/
def Obligations.StepKeepsInvariant : Prop :=
  ∀ s t : State, Inv s → step s = .next t → Inv t ∧ (StreamsHeld s → StreamsHeld t)

/-- Both invariants hold right after reset. The residual buffer's length rests on the model's reset value (log 4). -/
def Obligations.ResetMeetsInvariant : Prop := Inv State.reset ∧ StreamsHeld State.reset

/-! ## Stream commands -/

/-- R170: BEGIN, from every phase. The residual bytes stay. -/
def Obligations.BeginResult : Prop :=
  ∀ (n : CtxId) (core : CoreSel) (s : State), ∃ t, exec (.beginCtx n core) s = .next t ∧
    getCtx t n = ⟨⟨0x67452301, 0xEFCDAB89, 0x98BADCFE, 0x10325476⟩, 0, (getCtx s n).res, .active⟩ ∧
    (∀ m, m ≠ n → getCtx t m = getCtx s m) ∧ Reported s t .none .c0 ∧ OutsideUnchanged s t

/-- R175 to R178: PROCESS on an ACTIVE context whose region is in range, clear and readable. With `x` the valid residual
followed by the data read, the digest is chained over the whole blocks of `x`, the rest of `x` is the new residual, and
the counter grows by LEN_A. R45: `seq.pos[A]` has moved by the bytes of the top-up after step (a), and by all of LEN_A in
the state the command completes from. -/
def Obligations.ProcessResult : Prop :=
  ∀ (n : CtxId) (core : CoreSel) (s : State), (getCtx s n).phase = .active → (getCtx s n).res.length = 64 →
    (lenOf s .a = 0 ∨ srcOf s .a + lenOf s .a ≤ 2 ^ 64) → SourceClear s .a → SourceReadable s .a →
    ∃ t data, exec (.process n core) s = .next t ∧ ReadingOf s .a data ∧
      (getCtx t n).dig = chainBlocks (getCtx s n).dig (wholePart (validRes (getCtx s n) ++ data)) ∧
      validRes (getCtx t n) = tailPart (validRes (getCtx s n) ++ data) ∧
      (getCtx t n).count = (getCtx s n).count + s.seq.args.lenA ∧
      (getCtx t n).phase = .active ∧ (getCtx t n).res.length = 64 ∧
      (∀ m, m ≠ n → getCtx t m = getCtx s m) ∧ Reported s t .none .c0 ∧ OutsideUnchanged s t ∧
      posOf (topUp n .a core data s) .a =
        (if resLen (getCtx s n) = 0 then 0 else min (64 - resLen (getCtx s n)) (lenOf s .a)) ∧
      t = complete .none .c0 (feedStream n .a core (copyPath (srcOf s .a)) data s) ∧
      posOf (feedStream n .a core (copyPath (srcOf s .a)) data s) .a = lenOf s .a

/-- R179, R27: PROCESS appends the data it reads to the context's stream, for every stream. -/
def Obligations.ProcessAppendsToStream : Prop :=
  ∀ (n : CtxId) (core : CoreSel) (s : State) (m : List Byte), (getCtx s n).phase = .active →
    (getCtx s n).res.length = 64 → Holds (getCtx s n) m →
    (lenOf s .a = 0 ∨ srcOf s .a + lenOf s .a ≤ 2 ^ 64) → SourceClear s .a → SourceReadable s .a → SourceSettled s .a →
    ∃ t, exec (.process n core) s = .next t ∧ Holds (getCtx t n) (m ++ sourceBytes s .a) ∧
      (getCtx t n).phase = .active ∧ Reported s t .none .c0

/-- R179: feeding two runs of bytes with two PROCESS commands or their concatenation with one leaves contexts that
nothing can tell apart, whatever CORE and alignment each command has. -/
def Obligations.ChunkSizeIndependence : Prop :=
  ∀ (n : CtxId) (k1 k2 k3 : CoreSel) (s1 s2 s3 t1 t2 t3 : State),
    (getCtx s1 n).res.length = 64 → getCtx s2 n = getCtx t1 n → getCtx s3 n = getCtx s1 n →
    SourceSettled s1 .a → SourceSettled s2 .a → SourceSettled s3 .a →
    sourceBytes s3 .a = sourceBytes s1 .a ++ sourceBytes s2 .a →
    exec (.process n k1) s1 = .next t1 → Reported s1 t1 .none .c0 →
    exec (.process n k2) s2 = .next t2 → Reported s2 t2 .none .c0 →
    exec (.process n k3) s3 = .next t3 → Reported s3 t3 .none .c0 →
    SameCtx (getCtx t2 n) (getCtx t3 n)

/-- R180, R183: END on an ACTIVE context feeds the padding of its counter and makes it FINAL. -/
def Obligations.EndResult : Prop :=
  ∀ (n : CtxId) (core : CoreSel) (s : State), (getCtx s n).phase = .active → (getCtx s n).res.length = 64 →
    ∃ t, exec (.endCtx n core) s = .next t ∧
      (getCtx t n).dig = chainBlocks (getCtx s n).dig (validRes (getCtx s n) ++ padBytes (getCtx s n).count) ∧
      (getCtx t n).count.toNat = ((getCtx s n).count.toNat + padLen (getCtx s n).count) % 2 ^ 64 ∧
      (getCtx t n).count.toNat % 64 = 0 ∧ (getCtx t n).phase = .final ∧
      (∀ m, m ≠ n → getCtx t m = getCtx s m) ∧ Reported s t .none .c0 ∧ OutsideUnchanged s t

/-- R183: END of a context that holds the message `m` leaves the MD5 digest of `m`; the counter has grown by the pad's
length and is a multiple of 64, and the stream is `m` followed by the pad. -/
def Obligations.EndGivesMd5 : Prop :=
  ∀ (n : CtxId) (core : CoreSel) (s : State) (m : List Byte), (getCtx s n).phase = .active →
    (getCtx s n).res.length = 64 → Holds (getCtx s n) m →
    ∃ t, exec (.endCtx n core) s = .next t ∧ (getCtx t n).phase = .final ∧ (getCtx t n).dig = md5 m ∧
      (getCtx t n).count = (getCtx s n).count + BitVec.ofNat 64 (padLen (getCtx s n).count) ∧
      (getCtx t n).count.toNat % 64 = 0 ∧ resLen (getCtx t n) = 0 ∧
      Holds (getCtx t n) (m ++ padBytes (BitVec.ofNat 64 m.length))

/-- R184: END compresses one block when the residual has at most 55 bytes, two otherwise. -/
def Obligations.PaddingBlockCount : Prop :=
  ∀ (n : CtxId) (core : CoreSel) (s : State), (getCtx s n).phase = .active → (getCtx s n).res.length = 64 →
    ∃ t, exec (.endCtx n core) s = .next t ∧
      ((getCtx s n).count.toNat % 64 ≤ 55 →
        (getCtx t n).dig = compress (getCtx s n).dig (validRes (getCtx s n) ++ padBytes (getCtx s n).count)) ∧
      (56 ≤ (getCtx s n).count.toNat % 64 →
        (getCtx t n).dig = compress
          (compress (getCtx s n).dig ((validRes (getCtx s n) ++ padBytes (getCtx s n).count).take 64))
          ((validRes (getCtx s n) ++ padBytes (getCtx s n).count).drop 64))

/-- R181: the padding of a counter: its length and every one of its bytes. -/
def Obligations.PaddingBytes : Prop :=
  ∀ c : DWord,
    padLen c = (if 64 - c.toNat % 64 < 9 then 128 - c.toNat % 64 else 64 - c.toNat % 64) ∧
    9 ≤ padLen c ∧ padLen c ≤ 72 ∧ (c.toNat % 64 + padLen c = 64 ∨ c.toNat % 64 + padLen c = 128) ∧
    (padBytes c).length = padLen c ∧ (padBytes c).getD 0 0 = 0x80 ∧
    (∀ i, 1 ≤ i → i < padLen c - 8 → (padBytes c).getD i 0 = 0) ∧
    (∀ j, j < 8 → ((padBytes c).getD (padLen c - 8 + j) 0).toNat = c.toNat * 8 % 2 ^ 64 / 2 ^ (8 * j) % 256)

/-- R185: for a message of any length `n`, with its counter `c = n mod 2^64`, the length field is `c[60:0] ‖ 000`, the
true bit length `8 · n` modulo 2^64, and the last eight bytes of the padding are its bytes. -/
def Obligations.BitLengthWraps : Prop :=
  ∀ n : Nat,
    let c : DWord := BitVec.ofNat 64 n
    let l : DWord := c.extractLsb' 0 61 ++ (0 : BitVec 3)
    l.toNat = 8 * n % 2 ^ 64 ∧
    ∀ j, j < 8 → lengthByte c j = l.extractLsb' (8 * j) 8 ∧
      ((padBytes c).getD (padLen c - 8 + j) 0).toNat = 8 * n / 2 ^ (8 * j) % 256

/-! ## Compression function and compress commands -/

/-- R123, R125: every row of the schedule is the one the formulas give. R126, R45: on the single-stream datapaths each step
runs the row of the step index and moves the index on, so that a block runs the 64 steps in order and ends at index 0. -/
def Obligations.ScheduleFollowsFormulas : Prop :=
  schedule.length = 64 ∧ (∀ s, s < 64 →
    (schedule.map (·.fn)).getD s .f = [RoundFn.f, .g, .h, .i].getD (s / 16) .f ∧
    (schedule.map (·.idx)).getD s 0 =
      [s % 16, (1 + 5 * (s % 16)) % 16, (5 + 3 * (s % 16)) % 16, 7 * (s % 16) % 16].getD (s / 16) 0 ∧
    (schedule.map (·.rot)).getD s 0 =
      ([[7, 12, 17, 22], [5, 9, 14, 20], [4, 11, 16, 23], [6, 10, 15, 21]].getD (s / 16) []).getD (s % 4) 0) ∧
  (∀ (core : CoreSel) (s : State),
    let r := s.work.scalar
    let row := rowAt s.seq.step
    schedule[s.seq.step.toNat]? = some row ∧ (singleStep core s).seq.step = s.seq.step + 1 ∧
      (singleStep core s).work.scalar = { r with
        a := r.d
        b := r.b + rotl32 (r.a + roundFn row.fn r.b r.c r.d + r.w.getD row.idx 0 + row.k) row.rot
        c := r.b
        d := r.c }) ∧
  (∀ (core : CoreSel) (n : CtxId) (w : List Word) (s : State),
    (∀ k, k < 64 → ((singleStep core)^[k] (loadBlock n w s)).seq.step.toNat = k) ∧
      (compressBlock core n w s).seq.step = 0)

/-- R63: message words are little-endian. -/
def Obligations.MessageWordsLittleEndian : Prop :=
  ∀ (blk : List Byte) (j : Nat), j < 16 →
    ((messageWords blk).getD j 0).toNat = (blk.getD (4 * j) 0).toNat + 2 ^ 8 * (blk.getD (4 * j + 1) 0).toNat +
      2 ^ 16 * (blk.getD (4 * j + 2) 0).toNat + 2 ^ 24 * (blk.getD (4 * j + 3) 0).toNat

/-- R22: byte `i` of a digest. -/
def Obligations.DigestByteOrder : Prop :=
  ∀ (s : Digest) (i : Nat), i < 16 →
    (digestBytes s).length = 16 ∧
      ((digestBytes s).getD i 0).toNat = ([s.a, s.b, s.c, s.d].getD (i / 4) 0).toNat / 2 ^ (8 * (i % 4)) % 256

/-- R136: the vector rotate is the rotation, for every amount from 1 to 31. -/
def Obligations.VectorRotateIsRotate : Prop :=
  ∀ (x : Word) (r : Nat), 0 < r → r < 32 → vrot x r = rotl32 x r

/-- R137: the SingleLaneVectorCore computes Compress, as a function and on the working registers the commands run on, as
the scalar datapath does; and CORE never changes the outcome of any command. -/
def Obligations.DatapathsEquivalent : Prop :=
  (∀ (st : Digest) (blk : List Byte), compressVector st blk = compress st blk) ∧
  (∀ (core : CoreSel) (n : CtxId) (blk : List Byte) (s : State),
    (getCtx (compressBlock core n (messageWords blk) s) n).dig = compress (getCtx s n).dig blk) ∧
  (∀ (i : Instr) (k : CoreSel) (s : State), exec (withCore k i) s = exec i s)

/-- R140: the DualLaneVectorCore computes Compress on each lane, as a function; and a run of `m` blocks in the LanePair
registers chains each stream's blocks from its own offset into its own context. -/
def Obligations.LaneIndependence : Prop :=
  (∀ (sA sB : Digest) (bA bB : List Byte), compressDual sA sB bA bB = (compress sA bA, compress sB bB)) ∧
  (∀ (m : Nat) (dA dB : List Byte) (s : State), posOf s .a + 64 * m < 2 ^ 64 → posOf s .b + 64 * m < 2 ^ 64 →
    (dualRun m dA dB s).c0.dig = chainN m s.c0.dig (dA.drop (posOf s .a)) ∧
    (dualRun m dA dB s).c1.dig = chainN m s.c1.dig (dB.drop (posOf s .b)))

/-- R142: the zero-fill path is Compress on 64 zero bytes, as a function and in the block ZCOMPRESS runs. -/
def Obligations.ZeroFillIsCompress : Prop :=
  (∀ (core : CoreSel) (st : Digest), compressZeroOn core st = compress st (List.replicate 64 0)) ∧
  (∀ (core : CoreSel) (n : CtxId) (s : State),
    (getCtx (nextZeroBlock core n s) n).dig = compress (getCtx s n).dig (List.replicate 64 0))

/-- R145: COMPRESS when its checks pass and its region is clear and readable. R27: the data joins the context's stream. -/
def Obligations.CompressResult : Prop :=
  ∀ (n : CtxId) (core : CoreSel) (s : State), firstError (checksOf (.compress n core) s) = none →
    SourceClear s .a → SourceReadable s .a →
    ∃ t data, exec (.compress n core) s = .next t ∧ ReadingOf s .a data ∧
      getCtx t n = ⟨chainBlocks (getCtx s n).dig data, (getCtx s n).count + s.seq.args.lenA, (getCtx s n).res, .active⟩ ∧
      (∀ m, Holds (getCtx s n) m → Holds (getCtx t n) (m ++ data)) ∧
      (∀ m, m ≠ n → getCtx t m = getCtx s m) ∧ Reported s t .none .c0 ∧ OutsideUnchanged s t

/-- R146: when COMPRESS's checks pass, PROCESS on the same state leaves a context that nothing can tell apart, bus errors
included. -/
def Obligations.CompressAgreesWithProcess : Prop :=
  ∀ (n : CtxId) (core : CoreSel) (s : State), firstError (checksOf (.compress n core) s) = none → SourceClear s .a →
    ∃ t u, exec (.compress n core) s = .next t ∧ exec (.process n core) s = .next u ∧
      SameCtx (getCtx t n) (getCtx u n) ∧ t.status = u.status

/-- R148: ZCOMPRESS when its checks pass: LEN_A zero bytes, whatever memory holds. R27: they join the context's stream. -/
def Obligations.ZcompressResult : Prop :=
  ∀ (n : CtxId) (core : CoreSel) (s : State), firstError (checksOf (.zcompress n core) s) = none →
    ∃ t, exec (.zcompress n core) s = .next t ∧
      getCtx t n = ⟨chainBlocks (getCtx s n).dig (List.replicate (lenOf s .a) 0),
        (getCtx s n).count + s.seq.args.lenA, (getCtx s n).res, .active⟩ ∧
      (∀ m, Holds (getCtx s n) m → Holds (getCtx t n) (m ++ List.replicate (lenOf s .a) 0)) ∧
      (∀ m, m ≠ n → getCtx t m = getCtx s m) ∧ Reported s t .none .c0 ∧ OutsideUnchanged s t

/-- R151: COMPRESS_DUAL when its checks pass and both regions are clear and readable. R27: the data of each stream joins
its context's stream. -/
def Obligations.CompressDualResult : Prop :=
  ∀ (core : CoreSel) (s : State), firstError (checksOf (.compressDual core) s) = none →
    SourceClear s .a → SourceClear s .b → SourceReadable s .a → SourceReadable s .b →
    ∃ t dA dB, exec (.compressDual core) s = .next t ∧ ReadingOf s .a dA ∧ ReadingOf s .b dB ∧
      t.c0 = ⟨chainBlocks s.c0.dig dA, s.c0.count + s.seq.args.lenA, s.c0.res, .active⟩ ∧
      t.c1 = ⟨chainBlocks s.c1.dig dB, s.c1.count + s.seq.args.lenB, s.c1.res, .active⟩ ∧
      (∀ m, Holds s.c0 m → Holds t.c0 (m ++ dA)) ∧ (∀ m, Holds s.c1 m → Holds t.c1 (m ++ dB)) ∧
      Reported s t .none .c0 ∧ OutsideUnchanged s t

/-- R152: COMPRESS_DUAL is COMPRESS on CTX0 and then COMPRESS on CTX1 with stream B's operands, when the host keeps its
duties (R69, R72). -/
def Obligations.CompressDualEquivalence : Prop :=
  ∀ (core k : CoreSel) (s : State), firstError (checksOf (.compressDual core) s) = none →
    SourceClear s .a → SourceClear s .b → SourceReadable s .a → SourceReadable s .b →
    SourceSettled s .a → SourceSettled s .b →
    ∃ t t1 t2, exec (.compressDual core) s = .next t ∧ exec (.compress .c0 k) s = .next t1 ∧
      exec (.compress .c1 k) (withLatched t1 (streamBFirst s.seq.args)) = .next t2 ∧
      t.c0 = t2.c0 ∧ t.c1 = t2.c1 ∧ t.status = t2.status

/-! ## Dual-stream commands -/

/-- R200, R201: PROCESS_DUAL when its checks pass and both regions are clear and readable: each context as PROCESS on
its own stream leaves it, whatever its residual was. R202, R27: the data of each stream joins its context's stream. R45:
both offsets have moved by LEN in the state the command completes from. -/
def Obligations.ProcessDualResult : Prop :=
  ∀ (core : CoreSel) (s : State), firstError (checksOf (.processDual core) s) = none →
    s.c0.res.length = 64 → s.c1.res.length = 64 →
    SourceClear s .a → SourceClear s .b → SourceReadable s .a → SourceReadable s .b →
    ∃ t dA dB, exec (.processDual core) s = .next t ∧ ReadingOf s .a dA ∧ ReadingOf s .b dB ∧
      t.c0.dig = chainBlocks s.c0.dig (wholePart (validRes s.c0 ++ dA)) ∧
      t.c1.dig = chainBlocks s.c1.dig (wholePart (validRes s.c1 ++ dB)) ∧
      validRes t.c0 = tailPart (validRes s.c0 ++ dA) ∧ validRes t.c1 = tailPart (validRes s.c1 ++ dB) ∧
      t.c0.count = s.c0.count + s.seq.args.lenA ∧ t.c1.count = s.c1.count + s.seq.args.lenB ∧
      (∀ m, Holds s.c0 m → Holds t.c0 (m ++ dA)) ∧ (∀ m, Holds s.c1 m → Holds t.c1 (m ++ dB)) ∧
      t.c0.phase = .active ∧ t.c1.phase = .active ∧ Reported s t .none .c0 ∧ OutsideUnchanged s t ∧
      let u := coordinate core (copyPath (srcOf s .a)) (copyPath (srcOf s .b)) dA dB s
      t = complete .none .c0 u ∧ posOf u .a = lenOf s .a ∧ posOf u .b = lenOf s .b

/-- R202: PROCESS_DUAL is PROCESS on CTX0 and then PROCESS on CTX1 with stream B's operands, when the host keeps its
duties (R69, R72). -/
def Obligations.ProcessDualEquivalence : Prop :=
  ∀ (core k : CoreSel) (s : State), firstError (checksOf (.processDual core) s) = none →
    s.c0.res.length = 64 → s.c1.res.length = 64 →
    SourceClear s .a → SourceClear s .b → SourceReadable s .a → SourceReadable s .b →
    SourceSettled s .a → SourceSettled s .b →
    ∃ t t1 t2, exec (.processDual core) s = .next t ∧ exec (.process .c0 k) s = .next t1 ∧
      exec (.process .c1 k) (withLatched t1 (streamBFirst s.seq.args)) = .next t2 ∧
      SameCtx t.c0 t2.c0 ∧ SameCtx t.c1 t2.c1 ∧ t.status = t2.status

/-! ## Bus errors and regions outside the spec -/

/-- R232 items 1 and 4: a bus error of a single-stream command that passed its checks. -/
def Obligations.BusErrorFaultsContext : Prop :=
  ∀ (i : Instr) (n : CtxId) (core : CoreSel) (s : State), i = .process n core ∨ i = .compress n core →
    firstError (checksOf i s) = none → SourceClear s .a →
    (∃ j, j < lenOf s .a ∧ busErrorAt s.params (srcOf s .a + j) = true) →
    ∃ t, exec i s = .next t ∧ (getCtx t n).phase = .fault ∧ (∀ m, m ≠ n → getCtx t m = getCtx s m) ∧
      Reported s t .bus n ∧ OutsideUnchanged s t

/-- R232, R233: bus errors of a dual command. A faulted stream's context is FAULT; the other ends exactly as the
single-stream command on it alone leaves it; the report names the faulted context, or CTX0 when both faulted. -/
def Obligations.BusErrorIsolatesLanes : Prop :=
  ∀ (i iA iB : Instr) (core : CoreSel) (s : State),
    (i = .processDual core ∧ iA = .process .c0 core ∧ iB = .process .c1 core) ∨
      (i = .compressDual core ∧ iA = .compress .c0 core ∧ iB = .compress .c1 core) →
    firstError (checksOf i s) = none → SourceClear s .a → SourceClear s .b →
    let badA := ∃ j, j < lenOf s .a ∧ busErrorAt s.params (srcOf s .a + j) = true
    let badB := ∃ j, j < lenOf s .b ∧ busErrorAt s.params (srcOf s .b + j) = true
    (SourceReadable s .a → badB → ∃ t u, exec i s = .next t ∧ t.c1.phase = .fault ∧ Reported s t .bus .c1 ∧
      OutsideUnchanged s t ∧ exec iA s = .next u ∧ t.c0 = u.c0) ∧
    (badA → SourceReadable s .b → SourceSettled s .b → ∃ t u, exec i s = .next t ∧ t.c0.phase = .fault ∧
      Reported s t .bus .c0 ∧ OutsideUnchanged s t ∧
      exec iB (withLatched s (streamBFirst s.seq.args)) = .next u ∧ t.c1 = u.c1) ∧
    (badA → badB → ∃ t, exec i s = .next t ∧ t.c0.phase = .fault ∧ t.c1.phase = .fault ∧ Reported s t .bus .c0 ∧
      OutsideUnchanged s t)

/-- R227, R62: PROCESS on an ACTIVE context: a region of length 0 is never out of range and changes no context, a region
that passes the top of the address space is rejected, and one that ends at the top is not. -/
def Obligations.RangeBoundary : Prop :=
  ∀ (n : CtxId) (core : CoreSel) (s : State), (getCtx s n).phase = .active →
    (s.seq.args.lenA = 0 → ∃ t, exec (.process n core) s = .next t ∧ Reported s t .none .c0 ∧
      t.c0 = s.c0 ∧ t.c1 = s.c1) ∧
    (0 < s.seq.args.lenA.toNat → 2 ^ 64 < s.seq.args.srcA.toNat + s.seq.args.lenA.toNat →
      ∃ t, exec (.process n core) s = .next t ∧ Reported s t .range n ∧ t.c0 = s.c0 ∧ t.c1 = s.c1) ∧
    (s.seq.args.srcA.toNat + s.seq.args.lenA.toNat ≤ 2 ^ 64 →
      ∀ t c, exec (.process n core) s = .next t → ¬Reported s t .range c)

/-- R69, X2, X3: a command that passed its checks is refused for the first of its streams with a byte of its source region
in the 128 bytes at ENGINE_BASE or in memory whose reads have side effects, the window first; otherwise it ends in a next
state. Which of several overlaps is named, and that a refusal comes even where a bus error would come first, is the
model's choice (log 11). -/
def Obligations.UndefinedSourceRefused : Prop :=
  ∀ (i : Instr) (s : State), firstError (checksOf i s) = none →
    (∀ x ∈ streamsOf i, (x = .b → ¬OverWindow s .a ∧ ¬OverDevice s .a) →
      (OverWindow s x → exec i s = .refused .sourceOverlapsWindow) ∧
      (¬OverWindow s x → OverDevice s x → exec i s = .refused .sourceHasSideEffects)) ∧
    ((∀ x ∈ streamsOf i, ¬OverWindow s x ∧ ¬OverDevice s x) → ∃ t, exec i s = .next t)

/-! ## Operands and memory -/

/-- R31: a command runs on the latched arguments: other values in the argument registers change nothing else. -/
def Obligations.ArgumentsAreLatched : Prop :=
  ∀ (i : Instr) (s : State) (r : Args),
    (∀ t, exec i s = .next t → exec i { s with args := r } = .next { t with args := r }) ∧
    (∀ q, exec i s = .refused q → exec i { s with args := r } = .refused q)

/-- R95: the operands a command does not read do not matter. -/
def Obligations.UnreadOperandsIgnored : Prop :=
  ∀ (n : CtxId) (k : CoreSel) (s : State) (r : Args),
    exec (.beginCtx n k) (withLatched s r) = exec (.beginCtx n k) s ∧
    exec (.endCtx n k) (withLatched s r) = exec (.endCtx n k) s ∧
    (r.lenA = s.seq.args.lenA → exec (.zcompress n k) (withLatched s r) = exec (.zcompress n k) s) ∧
    (r.lenA = s.seq.args.lenA → r.srcA = s.seq.args.srcA →
      exec (.process n k) (withLatched s r) = exec (.process n k) s ∧
      exec (.compress n k) (withLatched s r) = exec (.compress n k) s)

/-- R61: only the bytes of the source regions matter. -/
def Obligations.OnlySourceRegionMatters : Prop :=
  ∀ (i : Instr) (s : State) (m : Memory),
    (∀ x ∈ streamsOf i, ∀ j, j < lenOf s x → hostByte m (srcOf s x + j) = hostByte s.mem (srcOf s x + j)) →
    ∀ t, exec i s = .next t → exec i { s with mem := m } = .next { t with mem := m }

/-- R72 items 1 and 2, U10: a byte the engine reads is one of the values held there, and the stored one when nothing
races and every store is visible. -/
def Obligations.SourceReadsHeldBytes : Prop :=
  ∀ (s : State) (x : Stream),
    ((∃ j, j < lenOf s x ∧ busErrorAt s.params (srcOf s x + j) = true) → readSource s x = none) ∧
    (SourceReadable s x → ∃ data, readSource s x = some data ∧ ReadingOf s x data ∧
      (SourceSettled s x → data = sourceBytes s x))

/-- R72 items 1 to 3: a host store, making stores visible, and a completion, as they bear on the values the engine may
use. -/
def Obligations.StoresAndVisibility : Prop :=
  ∀ (s : State) (rest : List Input),
    (∀ a b, a < 2 ^ 64 → ¬(s.params.base.toNat ≤ a ∧ a < s.params.base.toNat + 128) →
      s.inputs = .host (.memStore a b) :: rest → ∃ t, step s = .next t ∧ hostByte t.mem a = b ∧
        (∀ a', a' ≠ a → hostByte t.mem a' = hostByte s.mem a' ∧ oldBytes t a' = oldBytes s a') ∧
        HeldAt t a (hostByte s.mem a)) ∧
    (s.inputs = .host .publish :: rest → s.status.busy = false → s.raced = [] →
      ∃ t, step s = .next t ∧ ∀ a, oldBytes t a = []) ∧
    (s.inputs = .host .publish :: rest → s.status.busy = true →
      ∃ t, step s = .next t ∧ ∀ a b, b ∈ oldBytes t a ↔ b ∈ oldBytes s a) ∧
    (∀ i t a, exec i s = .next t → oldBytes t a = valuesAt s.stale a)

/-! ## The register window -/

/-- R32, R42: the STATUS word, field by field. -/
def Obligations.StatusWordLayout : Prop :=
  ∀ (s : State) (rest : List Input), s.inputs = .host (.regRead 0x004 4) :: rest →
    ∃ v : Word, step s = .next { s with inputs := rest, rdata := some v, draws := s.draws + 1 } ∧
      v.toNat = s.status.busy.toNat + 2 * s.status.done.toNat + 4 * s.status.ovr.toNat +
        16 * s.status.errctx.bit.toNat + 256 * (errCodeBits s.status.errcode).toNat

/-- R33: a host write to STATUS clears DONE and OVR where it writes 1, and does nothing else. -/
def Obligations.StatusWriteOneToClear : Prop :=
  ∀ (s : State) (v : Word) (rest : List Input), s.inputs = .host (.regWrite 0x004 4 v) :: rest →
    ∃ t, step s = .next t ∧ t = { s with
        inputs := rest, status := { s.status with done := t.status.done, ovr := t.status.ovr } } ∧
      (t.status.done = true ↔ s.status.done = true ∧ v.getLsbD 1 = false) ∧
      (t.status.ovr = true ↔ s.status.ovr = true ∧ v.getLsbD 2 = false)

/-- R30, R40: offsets 0x010 to 0x02C are the LO and HI halves of SRC_A, SRC_B, LEN_A and LEN_B in this order. A write
replaces the half at its offset (bits 31:0 at the register's own offset, bits 63:32 four bytes on) and no other half, and
the half then reads back as written. -/
def Obligations.ArgumentRegistersReadBack : Prop :=
  ∀ (s : State) (off : Nat) (v : Word) (rest : List Input),
    off ∈ [0x010, 0x014, 0x018, 0x01C, 0x020, 0x024, 0x028, 0x02C] →
    s.inputs = .host (.regWrite off 4 v) :: .host (.regRead off 4) :: rest →
    ∃ t u, step s = .next t ∧ step t = .next u ∧ u.rdata = some v ∧ u.args = t.args ∧
      (∀ p ∈ [(0x010, Args.srcA), (0x018, Args.srcB), (0x020, Args.lenA), (0x028, Args.lenB)],
        p.2 t.args = if off = p.1 then (p.2 s.args).extractLsb' 32 32 ++ v
          else if off = p.1 + 4 then v ++ (p.2 s.args).extractLsb' 0 32
          else p.2 s.args) ∧
      (∀ off' ∈ [0x010, 0x014, 0x018, 0x01C, 0x020, 0x024, 0x028, 0x02C], off' ≠ off →
        readReg u (regAt off') = readReg s (regAt off')) ∧ u.c0 = s.c0 ∧ u.c1 = s.c1 ∧ u.status = s.status

/-- R34: CTRL has one bit, 0 at reset. -/
def Obligations.CtrlHoldsOneBit : Prop :=
  State.reset.ctrlIE = false ∧ ∀ (s : State) (v : Word) (rest : List Input),
    s.inputs = .host (.regWrite 0x008 4 v) :: .host (.regRead 0x008 4) :: rest →
    ∃ t u, step s = .next t ∧ step t = .next u ∧ t.ctrlIE = v.getLsbD 0 ∧ u.rdata = some (v &&& 1)

/-- R36, R37: what the host reads of a context that is ACTIVE or FINAL and that no running command uses. -/
def Obligations.ContextRegistersRead : Prop :=
  ∀ (s : State) (n : CtxId) (rest : List Input), inUse s n = false →
    ((getCtx s n).phase = .active ∨ (getCtx s n).phase = .final) →
    let base := 0x040 + 0x020 * n.bit.toNat
    let c := getCtx s n
    let stat := BitVec.ofNat 32 ((if c.phase = .active then 1 else 2) + 256 * (c.count.toNat % 64))
    ∀ r ∈ [(base, c.dig.a), (base + 0x4, c.dig.b), (base + 0x8, c.dig.c), (base + 0xC, c.dig.d),
        (base + 0x10, BitVec.ofNat 32 c.count.toNat), (base + 0x14, BitVec.ofNat 32 (c.count.toNat / 2 ^ 32)),
        (base + 0x18, stat)],
      s.inputs = .host (.regRead r.1 4) :: rest →
      step s = .next { s with inputs := rest, rdata := some r.2, draws := s.draws + 1 }

/-- R36, R38: CTXSTAT of an IDLE or FAULT context that no running command uses: PHASE is exact, the reserved bits are 0,
only RESLEN is open. -/
def Obligations.IdleAndFaultPhaseReads : Prop :=
  ∀ (s : State) (n : CtxId) (rest : List Input), inUse s n = false →
    ((getCtx s n).phase = .idle ∨ (getCtx s n).phase = .fault) →
    s.inputs = .host (.regRead (0x058 + 0x020 * n.bit.toNat) 4) :: rest →
    ∃ v : Word, step s = .next { s with inputs := rest, rdata := some v, draws := s.draws + 1 } ∧
      v.toNat % 256 = (phaseBits (getCtx s n).phase).toNat ∧ v.toNat / 2 ^ 14 = 0

/-- R35 to R37, R39, R40: writes to read-only and reserved offsets are ignored; CMD and the reserved offsets read 0. -/
def Obligations.ReservedAndReadOnlyOffsets : Prop :=
  ∀ (s : State) (off : Nat) (rest : List Input), off % 4 = 0 → off < 0x080 →
    (off = 0x00C ∨ 0x030 ≤ off → ∀ v, s.inputs = .host (.regWrite off 4 v) :: rest →
      step s = .next { s with inputs := rest }) ∧
    (off ∈ [0x000, 0x00C, 0x030, 0x034, 0x038, 0x03C, 0x05C, 0x07C] → s.inputs = .host (.regRead off 4) :: rest →
      step s = .next { s with inputs := rest, rdata := some 0, draws := s.draws + 1 })

/-- R41, X1: every other register access is refused. -/
def Obligations.OddAccessRefused : Prop :=
  ∀ (s : State) (off width : Nat) (v : Word) (rest : List Input), ¬(width = 4 ∧ off % 4 = 0 ∧ off < 0x080) →
    (s.inputs = .host (.regWrite off width v) :: rest → step s = .refused .registerAccess) ∧
    (s.inputs = .host (.regRead off width) :: rest → step s = .refused .registerAccess)

/-- R240: the interrupt output is DONE ∧ IE: raised by every completion when enabled, and cleared by writing 1 to DONE, by
the next accept, by clearing IE and by RESET. -/
def Obligations.InterruptLevel : Prop :=
  (∀ s : State, irq s = true ↔ s.status.done = true ∧ s.ctrlIE = true) ∧
  (∀ (s t : State), s.status.busy = true → (s.inputs = [] ∨ ∃ rest, s.inputs = .engine :: rest) → step s = .next t →
    irq t = s.ctrlIE) ∧
  (∀ (s t : State) (e : HostEvent) (rest : List Input), s.inputs = .host e :: rest → step s = .next t →
    (irq t = true → irq s = true ∨ (s.status.done = true ∧ ∃ v, e = .regWrite 0x008 4 v)) ∧
    ((∃ v : Word, e = .regWrite 0x004 4 v ∧ v.getLsbD 1 = true) ∨
     (∃ v : Word, e = .regWrite 0x008 4 v ∧ v.getLsbD 0 = false) ∨
     ((∃ v : Word, e = .regWrite 0x000 4 v) ∧ s.status.busy = false) ∨ e = .reset → irq t = false))

/-! ## Reset -/

/-- R260, R262: the machine right after reset, in the values the spec gives; and that nothing is listed in memory, which is
the model's choice (log 3). -/
def Obligations.ResetState : Prop :=
  State.reset.c0.phase = .idle ∧ State.reset.c1.phase = .idle ∧ State.reset.args = ⟨0, 0, 0, 0⟩ ∧
  statusWord State.reset.status = 0 ∧ State.reset.ctrlIE = false ∧ State.reset.status.busy = false ∧
  irq State.reset = false ∧ State.reset.mem = [] ∧ ∀ r, r ∈ [Reg.status, .ctrl, .cmd] → readReg State.reset r = 0

/-- R260: RESET at any time, in the values the spec gives; and that it leaves host memory as it was, which the model deduces
(log 13). -/
def Obligations.ResetEventSetsResetValues : Prop :=
  ∀ (s : State) (rest : List Input), s.inputs = .host .reset :: rest →
    ∃ t, step s = .next t ∧ t.c0.phase = .idle ∧ t.c1.phase = .idle ∧ t.args = ⟨0, 0, 0, 0⟩ ∧
      t.status = ⟨false, false, false, .c0, .none⟩ ∧ t.ctrlIE = false ∧ irq t = false ∧ t.mem = s.mem

/-- R261: a RESET leaves no trace of a command: both contexts are IDLE, and states that agree outside the engine are the
same after it. That they are the same in every field rests on the model's fixed values for what R260 leaves unspecified
(log 4) and on what RESET leaves alone (log 13). -/
def Obligations.ResetLeavesNoTrace : Prop :=
  ∀ (s s' : State) (rest : List Input), s.inputs = .host .reset :: rest → s'.inputs = .host .reset :: rest →
    s.mem = s'.mem → s.params = s'.params → s.stale = s'.stale → s.rdata = s'.rdata → s.draws = s'.draws →
    step s = step s' ∧ ∃ t, step s = .next t ∧ t.c0.phase = .idle ∧ t.c1.phase = .idle

/-! ## Known digests -/

/-- The digests of §8 of the source (V1, V2 of 95_test_vectors.md): R2 on two messages. -/
def Obligations.KnownDigests : Prop :=
  digestBytes (md5 []) =
    [0xd4, 0x1d, 0x8c, 0xd9, 0x8f, 0x00, 0xb2, 0x04, 0xe9, 0x80, 0x09, 0x98, 0xec, 0xf8, 0x42, 0x7e] ∧
  digestBytes (md5 [0x61, 0x62, 0x63]) =
    [0x90, 0x01, 0x50, 0x98, 0x3c, 0xd2, 0x4f, 0xb0, 0xd6, 0x96, 0x3f, 0x7d, 0x28, 0xe1, 0x7f, 0x72]
end

