-- ==== Sys2Proof/Laws/Operands.lean ====
section
/-! SUPPORT. The reads of a source region, said once: a read answers nothing exactly on a bus error and otherwise one of
the values held at the address; and what the reads depend on. -/

namespace Sys2Proof.Laws

open Sys2Proof.Machine

theorem readByte_eq_none {s : State} {x : Stream} {i a : Nat} : readByte s x i a = none ↔ busErrorAt s.params a = true := by
  unfold readByte
  split
  · simp_all
  · split <;> simp_all

theorem readByte_held {s : State} {x : Stream} {i a : Nat} {b : Byte} (h : readByte s x i a = some b) : HeldAt s a b := by
  unfold readByte at h
  split at h
  · cases h
  · split at h
    · exact .inl (Option.some.inj h).symm
    · rename_i o os ho
      have hb := Option.some.inj h
      have hlt : Config.freePick s.draws (streamNum x) i % (hostByte s.mem a :: o :: os).length <
          (hostByte s.mem a :: o :: os).length := Nat.mod_lt _ (by simp)
      rw [List.getD_eq_getElem _ _ hlt] at hb
      have hm := List.getElem_mem hlt
      rw [hb] at hm
      rcases List.mem_cons.mp hm with e | m
      · exact .inl e
      · exact .inr (ho ▸ m)

/-- With no older value at an address, the byte read is the one memory holds. -/
theorem readByte_settled {s : State} {x : Stream} {i a : Nat} (hb : busErrorAt s.params a = false)
    (ho : oldBytes s a = []) : readByte s x i a = some (hostByte s.mem a) := by
  simp [readByte, hb, ho]

theorem readFrom_eq_none {s : State} {x : Stream} {src i n : Nat} :
    readFrom s x src i n = none ↔ ∃ j, j < n ∧ busErrorAt s.params (src + (i + j)) = true := by
  induction n generalizing i with
  | zero => simp [readFrom]
  | succ n ih =>
    unfold readFrom
    split
    · rename_i h
      exact iff_of_true rfl ⟨0, Nat.succ_pos _, readByte_eq_none.mp h⟩
    · rename_i b hb
      have hne : ¬busErrorAt s.params (src + i) = true := fun h => by rw [readByte_eq_none.mpr h] at hb; cases hb
      have key : (∃ j, j < n + 1 ∧ busErrorAt s.params (src + (i + j)) = true) ↔
          ∃ j, j < n ∧ busErrorAt s.params (src + (i + 1 + j)) = true := by
        constructor
        · rintro ⟨j, hj, h⟩
          cases j with
          | zero => exact absurd h hne
          | succ j => exact ⟨j, by omega, by rwa [show i + 1 + j = i + (j + 1) by omega]⟩
        · rintro ⟨j, hj, h⟩
          exact ⟨j + 1, by omega, by rwa [show i + (j + 1) = i + 1 + j by omega]⟩
      split
      · rename_i h
        exact iff_of_true rfl (key.mpr (ih.mp h))
      · rename_i bs h
        refine iff_of_false (by simp) fun h' => ?_
        rw [ih.mpr (key.mp h')] at h
        cases h

/-- A reading has the length asked for and holds, byte by byte, a value held at the address. -/
theorem readFrom_held {s : State} {x : Stream} {src i n : Nat} {data : List Byte} (h : readFrom s x src i n = some data) :
    data.length = n ∧ ∀ j, j < n → HeldAt s (src + (i + j)) (data.getD j 0) := by
  induction n generalizing i data with
  | zero =>
    simp only [readFrom, Option.some.injEq] at h
    subst h
    exact ⟨rfl, fun j hj => absurd hj (Nat.not_lt_zero _)⟩
  | succ n ih =>
    unfold readFrom at h
    split at h
    · cases h
    · rename_i b hb
      split at h
      · cases h
      · rename_i bs hbs
        obtain rfl := Option.some.inj h
        obtain ⟨hl, hh⟩ := ih hbs
        refine ⟨by rw [List.length_cons, hl], fun j hj => ?_⟩
        cases j with
        | zero => exact readByte_held hb
        | succ j =>
          have := hh j (by omega)
          rwa [show i + 1 + j = i + (j + 1) by omega] at this

/-- The reads of a source region depend on the memory, the older values and the bus errors of that region alone, and on
the draw. -/
theorem readFrom_congr {s t : State} {x y : Stream} {src i n : Nat}
    (h : ∀ j, j < n → readByte s x (i + j) (src + (i + j)) = readByte t y (i + j) (src + (i + j))) :
    readFrom s x src i n = readFrom t y src i n := by
  induction n generalizing i with
  | zero => rfl
  | succ n ih =>
    have h0 := h 0 (Nat.succ_pos _)
    simp only [Nat.add_zero] at h0
    have ih' := ih (i := i + 1) fun j hj => by
      have := h (j + 1) (by omega)
      rwa [show i + (j + 1) = i + 1 + j by omega] at this
    unfold readFrom
    rw [h0, ih']

end Sys2Proof.Laws
end

