-- ==== Sys2Proof/Laws/Pure.lean ====
section
/-! SUPPORT. What the commands make of a context, as functions of the context and the data alone, without the sequencer
and the working registers they run on. Laws/Sequencer.lean proves that the commands' own steps come to the same, so
that the provers reason about these and not about the state's loops. -/

namespace Sys2Proof.Laws

open Sys2Proof.Machine

/-- R93, R143: one block of a single stream. -/
def compressOn (core : CoreSel) (zd : Bool) (st : Digest) (blk : List Byte) : Digest :=
  runScalar (rotOf core) st (blockWords zd blk)

/-- The variables of the PROCESS pseudocode (R175): `st`, `ctx[n].res`, `r` and `p`. -/
structure Fed where
  dig : Digest
  res : List Byte
  r : Nat
  p : Nat
  deriving DecidableEq, Repr

/-- R176: step (a). -/
def fedTopUp (core : CoreSel) (zd : Bool) (data : List Byte) (c : Ctx) : Fed :=
  let r := resLen c
  if r = 0 then ⟨c.dig, c.res, 0, 0⟩
  else
    let t := min (64 - r) data.length
    let res := overwrite c.res r (data.take t)
    if r + t = 64 then ⟨compressOn core zd c.dig res, res, 0, t⟩
    else ⟨c.dig, res, r + t, t⟩

/-- R177: one block of step (b). -/
def fedBlock (core : CoreSel) (zd : Bool) (copy : Nat → Bool) (data : List Byte) (f : Fed) : Fed :=
  { f with
    dig := compressOn core zd f.dig (blockAt data f.p)
    res := if copy f.p then blockAt data f.p else f.res
    p := f.p + 64 }

/-- R177: `k` blocks of step (b). -/
def fedBlocks (core : CoreSel) (zd : Bool) (copy : Nat → Bool) (data : List Byte) : Nat → Fed → Fed
  | 0, f => f
  | k + 1, f => fedBlocks core zd copy data k (fedBlock core zd copy data f)

/-- R178: step (c). -/
def fedTail (data : List Byte) (f : Fed) : Fed :=
  if f.p < data.length then { f with res := overwrite f.res 0 (data.drop f.p), p := data.length } else f

/-- Steps (b) and (c) from where `f` stands. -/
def fedFinish (core : CoreSel) (zd : Bool) (copy : Nat → Bool) (data : List Byte) (f : Fed) : Fed :=
  fedTail data (fedBlocks core zd copy data ((data.length - f.p) / 64) f)

/-- The end of R175: digest, residual and counter written back. -/
def storeFed (c : Ctx) (len : Nat) (f : Fed) : Ctx :=
  { c with dig := f.dig, res := f.res, count := c.count + BitVec.ofNat 64 len }

/-- R175: steps (a) to (c) on one context. -/
def feed (core : CoreSel) (zd : Bool) (copy : Nat → Bool) (data : List Byte) (c : Ctx) : Ctx :=
  storeFed c data.length (fedFinish core zd copy data (fedTopUp core zd data c))

/-- R180: a context fed the pad of its counter. -/
def finalCtx (core : CoreSel) (zd : Bool) (c : Ctx) : Ctx :=
  { feed core zd (fun _ => false) (padBytes c.count) c with phase := .final }

/-- R145: `k` blocks of `data` in order. -/
def chainOn (core : CoreSel) (zd : Bool) : Nat → Digest → List Byte → Digest
  | 0, st, _ => st
  | k + 1, st, data => chainOn core zd k (compressOn core zd st (data.take 64)) (data.drop 64)

/-- R148: `k` all-zero blocks on the zero-fill path. -/
def chainZero (core : CoreSel) : Nat → Digest → Digest
  | 0, st => st
  | k + 1, st => chainZero core k (compressZeroOn core st)

/-- R145, R148: a context with a new chaining value and `len` more bytes. -/
def advanceCtx (c : Ctx) (st : Digest) (len : Nat) : Ctx :=
  { c with dig := st, count := c.count + BitVec.ofNat 64 len }

/-- R145: COMPRESS of `data`. -/
def compressedCtx (core : CoreSel) (zd : Bool) (data : List Byte) (c : Ctx) : Ctx :=
  advanceCtx c (chainOn core zd (data.length / 64) c.dig data) data.length

/-- R151, R201 step 2: `m` blocks of each stream, in lock-step on the DualLaneVectorCore. -/
def dualBlocks : Nat → Digest × Digest → List Byte → List Byte → Digest × Digest
  | 0, st, _, _ => st
  | m + 1, st, dA, dB =>
    dualBlocks m (compressDual st.1 st.2 (dA.take 64) (dB.take 64)) (dA.drop 64) (dB.drop 64)

/-- R201 step 2: the whole blocks stream X still has after its top-up, if its residual is empty. -/
def fedOpen (data : List Byte) (f : Fed) : Nat := if f.r = 0 then (data.length - f.p) / 64 else 0

/-- R201: the canonical schedule. -/
def fedPair (core : CoreSel) (zd : Bool) (copyA copyB : Nat → Bool) (dA dB : List Byte) (cA cB : Ctx) : Ctx × Ctx :=
  let fA := fedTopUp core zd dA cA
  let fB := fedTopUp core zd dB cB
  let m := min (fedOpen dA fA) (fedOpen dB fB)
  let st := dualBlocks m (fA.dig, fB.dig) (dA.drop fA.p) (dB.drop fB.p)
  (storeFed cA dA.length (fedFinish core zd copyA dA { fA with dig := st.1, p := fA.p + 64 * m }),
   storeFed cB dB.length (fedFinish core zd copyB dB { fB with dig := st.2, p := fB.p + 64 * m }))

/-- R151: COMPRESS_DUAL of two runs of data. -/
def compressedPair (dA dB : List Byte) (cA cB : Ctx) : Ctx × Ctx :=
  let st := dualBlocks (dA.length / 64) (cA.dig, cB.dig) dA dB
  (advanceCtx cA st.1 dA.length, advanceCtx cB st.2 dB.length)

/-- R232: what a single-stream command that passed its checks leaves of its context; none after a bus error. -/
def singleOutcome (n : CtxId) (s : State) (c : Option Ctx) : State :=
  match c with
  | none => complete .bus n (faultAt n s)
  | some c => complete .none .c0 (setCtx s n c)

/-- R232: what a dual command that passed its checks leaves of each context; none for a stream a bus error hit. -/
def pairOutcome (r : Option Ctx × Option Ctx) (s : State) : State :=
  match r with
  | (some a, some b) => complete .none .c0 (setCtx (setCtx s .c0 a) .c1 b)
  | (some a, none) => complete .bus .c1 (faultAt .c1 (setCtx s .c0 a))
  | (none, some b) => complete .bus .c0 (faultAt .c0 (setCtx s .c1 b))
  | (none, none) => complete .bus .c0 (faultAt .c1 (faultAt .c0 s))

/-- R200, R232: the contexts PROCESS_DUAL leaves. -/
def processCtxs (core : CoreSel) (s : State) : Option Ctx × Option Ctx :=
  let zd := s.params.zeroDetect
  match readSource s .a, readSource s .b with
  | some dA, some dB =>
    let p := fedPair core zd (copyPath (srcOf s .a)) (copyPath (srcOf s .b)) dA dB s.c0 s.c1
    (some p.1, some p.2)
  | some dA, none => (some (feed core zd (copyPath (srcOf s .a)) dA s.c0), none)
  | none, some dB => (none, some (feed core zd (copyPath (srcOf s .b)) dB s.c1))
  | none, none => (none, none)

/-- R151, R232: the contexts COMPRESS_DUAL leaves. -/
def compressCtxs (s : State) : Option Ctx × Option Ctx :=
  let zd := s.params.zeroDetect
  match readSource s .a, readSource s .b with
  | some dA, some dB => (some (compressedPair dA dB s.c0 s.c1).1, some (compressedPair dA dB s.c0 s.c1).2)
  | some dA, none => (some (compressedCtx .scalar zd dA s.c0), none)
  | none, some dB => (none, some (compressedCtx .scalar zd dB s.c1))
  | none, none => (none, none)

end Sys2Proof.Laws
end

