-- ==== Sys2Proof/Laws/Hasher.lean ====
section
/-! SUPPORT. What the residual buffer controller does, said once: the whole blocks of the residual followed by the data
go through the datapath, the rest is the new residual. The provers cite `feed_spec` instead of unfolding `feed`. -/

namespace Sys2Proof.Laws

open Sys2Proof.Machine

/-! ## Chains of blocks -/

theorem chainOn_add (core : CoreSel) (zd : Bool) (a b : Nat) (st : Digest) (m : List Byte) :
    chainOn core zd (a + b) st m = chainOn core zd b (chainOn core zd a st m) (m.drop (64 * a)) := by
  induction a generalizing st m with
  | zero => simp [chainOn]
  | succ a ih =>
    rw [Nat.add_right_comm, chainOn, chainOn, ih, List.drop_drop]
    congr 2
    omega

theorem chainOn_take (core : CoreSel) (zd : Bool) (k : Nat) (st : Digest) (m : List Byte) {n : Nat} (h : 64 * k ≤ n) :
    chainOn core zd k st (m.take n) = chainOn core zd k st m := by
  induction k generalizing st m n with
  | zero => rfl
  | succ k ih =>
    have h64 : (m.take n).take 64 = m.take 64 := by rw [List.take_take, Nat.min_eq_left (by omega)]
    rw [chainOn, chainOn, h64, List.drop_take, ih _ _ (by omega)]

theorem chainN_add (a b : Nat) (st : Digest) (m : List Byte) :
    chainN (a + b) st m = chainN b (chainN a st m) (m.drop (64 * a)) := by
  induction a generalizing st m with
  | zero => simp [chainN]
  | succ a ih =>
    rw [Nat.add_right_comm, chainN, chainN, ih, List.drop_drop]
    congr 2
    omega

theorem chainN_take (k : Nat) (st : Digest) (m : List Byte) {n : Nat} (h : 64 * k ≤ n) :
    chainN k st (m.take n) = chainN k st m := by
  induction k generalizing st m n with
  | zero => rfl
  | succ k ih =>
    have h64 : (m.take n).take 64 = m.take 64 := by rw [List.take_take, Nat.min_eq_left (by omega)]
    rw [chainN, chainN, h64, List.drop_take, ih _ _ (by omega)]

theorem wholePart_length (m : List Byte) : (wholePart m).length = 64 * (m.length / 64) := by
  rw [wholePart, List.length_take]
  omega

/-- R131: the chain over the whole blocks of a sequence, as a count of blocks. -/
theorem chainBlocks_wholePart (st : Digest) (m : List Byte) : chainBlocks st (wholePart m) = chainN (m.length / 64) st m := by
  rw [chainBlocks, wholePart_length, Nat.mul_div_cancel_left _ (by decide), wholePart, chainN_take _ _ _ (Nat.le_refl _)]

/-! ## Splitting a sequence into its whole blocks and the rest -/

theorem wholePart_append_tailPart (m : List Byte) : wholePart m ++ tailPart m = m := List.take_append_drop _ m

theorem wholePart_length_mod (m : List Byte) : (wholePart m).length % 64 = 0 := by rw [wholePart_length]; omega

theorem wholePart_append (x y : List Byte) (h : x.length % 64 = 0) : wholePart (x ++ y) = x ++ wholePart y := by
  have e : 64 * ((x ++ y).length / 64) = x.length + 64 * (y.length / 64) := by
    rw [List.length_append]
    omega
  rw [wholePart, wholePart, e, List.take_length_add_append]

theorem tailPart_append (x y : List Byte) (h : x.length % 64 = 0) : tailPart (x ++ y) = tailPart y := by
  have e : 64 * ((x ++ y).length / 64) = x.length + 64 * (y.length / 64) := by
    rw [List.length_append]
    omega
  rw [tailPart, tailPart, e, List.drop_length_add_append]

/-- R131: a chain over whole blocks and then over the rest. -/
theorem chainBlocks_append (st : Digest) (x y : List Byte) (h : x.length % 64 = 0) :
    chainBlocks st (x ++ y) = chainBlocks (chainBlocks st x) y := by
  have hx : 64 * (x.length / 64) = x.length := by omega
  have e : (x ++ y).length / 64 = x.length / 64 + y.length / 64 := by
    rw [List.length_append]
    omega
  rw [chainBlocks, e, chainN_add, hx, List.drop_left, chainBlocks, chainBlocks,
    ← chainN_take (x.length / 64) st (x ++ y) (Nat.le_of_eq hx), List.take_left]

/-! ## The padding (R181) -/

theorem padLen_bounds (c : DWord) : 9 ≤ padLen c ∧ padLen c ≤ 72 ∧ (c.toNat % 64 + padLen c) % 64 = 0 := by
  unfold padLen
  simp only
  split <;> omega

theorem padBytes_length (c : DWord) : (padBytes c).length = padLen c := by
  have := padLen_bounds c
  simp only [padBytes, List.length_append, List.length_replicate, List.length_map, List.length_range, List.length_cons,
    List.length_nil]
  omega

/-! ## Overwriting part of a buffer -/

theorem overwrite_length {res xs : List Byte} {pos : Nat} (h : pos + xs.length ≤ res.length) :
    (overwrite res pos xs).length = res.length := by
  simp only [overwrite, List.length_append, List.length_take, List.length_drop]
  omega

theorem take_overwrite {res xs : List Byte} {pos : Nat} (h : pos ≤ res.length) :
    (overwrite res pos xs).take (pos + xs.length) = res.take pos ++ xs := by
  have : (res.take pos ++ xs).length = pos + xs.length := by simp [Nat.min_eq_left h]
  rw [overwrite, ← this, List.take_left]

/-! ## The steps of PROCESS -/

theorem fedBlocks_dig (core : CoreSel) (zd : Bool) (copy : Nat → Bool) (data : List Byte) (k : Nat) (f : Fed) :
    (fedBlocks core zd copy data k f).dig = chainOn core zd k f.dig (data.drop f.p) := by
  induction k generalizing f with
  | zero => rfl
  | succ k ih => rw [fedBlocks, ih, chainOn, List.drop_drop]; rfl

@[simp] theorem fedBlocks_p (core : CoreSel) (zd : Bool) (copy : Nat → Bool) (data : List Byte) (k : Nat) (f : Fed) :
    (fedBlocks core zd copy data k f).p = f.p + 64 * k := by
  induction k generalizing f with
  | zero => rfl
  | succ k ih => rw [fedBlocks, ih]; simp only [fedBlock]; omega

theorem fedBlocks_res_length (core : CoreSel) (zd : Bool) (copy : Nat → Bool) (data : List Byte) (k : Nat) (f : Fed)
    (hr : f.res.length = 64) (hk : f.p + 64 * k ≤ data.length) :
    (fedBlocks core zd copy data k f).res.length = 64 := by
  induction k generalizing f with
  | zero => exact hr
  | succ k ih =>
    refine ih _ ?_ (by simp only [fedBlock]; omega)
    simp only [fedBlock]
    split
    · simp only [blockAt, List.length_take, List.length_drop]
      omega
    · exact hr

/-- The controller's final state, from an `f` whose residual is empty or whose data is used up. -/
theorem fedFinish_spec (core : CoreSel) (zd : Bool) (copy : Nat → Bool) (data : List Byte) (f : Fed)
    (hp : f.p ≤ data.length) (hr : f.res.length = 64) :
    (fedFinish core zd copy data f).dig = chainOn core zd ((data.length - f.p) / 64) f.dig (data.drop f.p) ∧
      (fedFinish core zd copy data f).res.length = 64 ∧
      (f.p < data.length → (fedFinish core zd copy data f).res.take ((data.length - f.p) % 64) =
        data.drop (f.p + 64 * ((data.length - f.p) / 64))) ∧
      (f.p = data.length → (fedFinish core zd copy data f).res = f.res) := by
  have hk : f.p + 64 * ((data.length - f.p) / 64) ≤ data.length := by omega
  have hlen := fedBlocks_res_length core zd copy data _ f hr hk
  unfold fedFinish fedTail
  split
  · rename_i hlt
    rw [fedBlocks_p] at hlt
    have hd : (data.drop (f.p + 64 * ((data.length - f.p) / 64))).length = (data.length - f.p) % 64 := by
      rw [List.length_drop]; omega
    refine ⟨fedBlocks_dig .., ?_, fun _ => ?_, fun e => absurd hlt (by omega)⟩
    · simp only [fedBlocks_p]
      rw [overwrite_length (by rw [hlen, hd]; omega), hlen]
    · have := take_overwrite (res := (fedBlocks core zd copy data ((data.length - f.p) / 64) f).res)
        (xs := data.drop (f.p + 64 * ((data.length - f.p) / 64))) (pos := 0) (Nat.zero_le _)
      rw [hd, Nat.zero_add, List.take_zero, List.nil_append] at this
      simpa only [fedBlocks_p] using this
  · rename_i hge
    rw [fedBlocks_p] at hge
    refine ⟨fedBlocks_dig .., hlen, fun _ => ?_, fun e => ?_⟩
    · rw [show (data.length - f.p) % 64 = 0 by omega, List.take_zero, List.drop_eq_nil_of_le (by omega)]
    · rw [show (data.length - f.p) / 64 = 0 by omega]; rfl

theorem resLen_lt (c : Ctx) : resLen c < 64 := Nat.mod_lt _ (by decide)

theorem validRes_length {c : Ctx} (h : c.res.length = 64) : (validRes c).length = resLen c := by
  have := resLen_lt c
  rw [validRes, List.length_take, h]
  omega

/-- R176: what the top-up leaves. Either the residual is empty now, after `j` blocks (0 or 1) of the residual followed by
the data, or all the data went into the residual and no block was completed. -/
theorem fedTopUp_spec (core : CoreSel) (zd : Bool) (data : List Byte) (c : Ctx) (hres : c.res.length = 64) :
    (fedTopUp core zd data c).res.length = 64 ∧ (fedTopUp core zd data c).p ≤ data.length ∧
      (((fedTopUp core zd data c).r = 0 ∧ ∃ j, resLen c + (fedTopUp core zd data c).p = 64 * j ∧
          (fedTopUp core zd data c).dig = chainOn core zd j c.dig (validRes c ++ data) ∧
          (validRes c ++ data).drop (64 * j) = data.drop (fedTopUp core zd data c).p) ∨
        ((fedTopUp core zd data c).r ≠ 0 ∧ (fedTopUp core zd data c).p = data.length ∧ resLen c + data.length < 64 ∧
          (fedTopUp core zd data c).dig = c.dig ∧
          (fedTopUp core zd data c).res.take (resLen c + data.length) = validRes c ++ data)) := by
  have hlt := resLen_lt c
  have hv := validRes_length hres
  unfold fedTopUp
  rcases Nat.eq_zero_or_pos (resLen c) with h0 | h0
  · have hv0 : validRes c = [] := List.length_eq_zero_iff.mp (by omega)
    simp only [h0, ↓reduceIte]
    exact ⟨hres, Nat.zero_le _, .inl ⟨trivial, 0, rfl, rfl, by simp [hv0]⟩⟩
  · simp only [Nat.ne_of_gt h0, ↓reduceIte]
    rcases Nat.lt_or_ge (resLen c + data.length) 64 with hl | hl
    · have ht : min (64 - resLen c) data.length = data.length := by omega
      simp only [ht, List.take_length, Nat.ne_of_lt hl, ↓reduceIte]
      exact ⟨by rw [overwrite_length (by omega), hres], Nat.le_refl _,
        .inr ⟨by omega, trivial, hl, trivial, take_overwrite (by omega)⟩⟩
    · have ht : min (64 - resLen c) data.length = 64 - resLen c := by omega
      have hs : resLen c + (64 - resLen c) = 64 := by omega
      have htl : (data.take (64 - resLen c)).length = 64 - resLen c := by rw [List.length_take]; omega
      have hlen : (overwrite c.res (resLen c) (data.take (64 - resLen c))).length = 64 := by
        rw [overwrite_length (by omega), hres]
      have hblk : overwrite c.res (resLen c) (data.take (64 - resLen c)) = (validRes c ++ data).take 64 := by
        have h1 := take_overwrite (res := c.res) (xs := data.take (64 - resLen c)) (pos := resLen c) (by omega)
        rw [htl, hs, List.take_of_length_le (by omega)] at h1
        rw [h1, List.take_append, hv, List.take_of_length_le (l := validRes c) (by omega)]
        rfl
      simp only [ht, hs, ↓reduceIte]
      refine ⟨hlen, by omega, .inl ⟨trivial, 1, rfl, ?_, ?_⟩⟩
      · simp only [chainOn, hblk]
      · rw [List.drop_append, List.drop_eq_nil_of_le (by omega), List.nil_append, hv]

/-- R175 to R178: everything PROCESS does to a context. -/
theorem feed_spec (core : CoreSel) (zd : Bool) (copy : Nat → Bool) (data : List Byte) (c : Ctx) (hres : c.res.length = 64) :
    (feed core zd copy data c).dig =
        chainOn core zd ((validRes c ++ data).length / 64) c.dig (validRes c ++ data) ∧
      validRes (feed core zd copy data c) = tailPart (validRes c ++ data) ∧
      (feed core zd copy data c).res.length = 64 ∧
      (feed core zd copy data c).count = c.count + BitVec.ofNat 64 data.length ∧
      (feed core zd copy data c).phase = c.phase := by
  have hx : (validRes c ++ data).length = resLen c + data.length := by
    rw [List.length_append, validRes_length hres]
  have hcount : resLen (feed core zd copy data c) = (resLen c + data.length) % 64 := by
    simp only [resLen, feed, storeFed, BitVec.toNat_add, BitVec.toNat_ofNat]
    omega
  have hlt := resLen_lt c
  obtain ⟨hr, hp, h⟩ := fedTopUp_spec core zd data c hres
  obtain ⟨fdig, fres, ftail, fend⟩ := fedFinish_spec core zd copy data (fedTopUp core zd data c) hp hr
  have hv : validRes (feed core zd copy data c) =
      (feed core zd copy data c).res.take ((resLen c + data.length) % 64) := by rw [validRes, hcount]
  rw [hv, tailPart, hx]
  refine ⟨?_, ?_, fres, rfl, rfl⟩
  · show (fedFinish core zd copy data (fedTopUp core zd data c)).dig = _
    rcases h with ⟨-, j, hj, hd, hdrop⟩ | ⟨-, hpl, hl, hd, -⟩
    · rw [fdig, hd, ← hdrop, ← chainOn_add]
      congr 1
      omega
    · rw [fdig, hd, show (resLen c + data.length) / 64 = 0 by omega, show (data.length - (fedTopUp core zd data c).p) / 64 = 0 by omega]
      rfl
  · show (fedFinish core zd copy data (fedTopUp core zd data c)).res.take _ = _
    rcases h with ⟨-, j, hj, -, hdrop⟩ | ⟨-, hpl, hl, -, htake⟩
    · have he : 64 * ((resLen c + data.length) / 64) = 64 * j + 64 * ((data.length - (fedTopUp core zd data c).p) / 64) := by omega
      rw [he, ← List.drop_drop, hdrop, List.drop_drop,
        show (resLen c + data.length) % 64 = (data.length - (fedTopUp core zd data c).p) % 64 by omega]
      rcases Nat.eq_or_lt_of_le hp with hq | hq
      · rw [show (data.length - (fedTopUp core zd data c).p) % 64 = 0 by omega, List.take_zero, List.drop_eq_nil_of_le (by omega)]
      · exact ftail hq
    · rw [fend hpl, Nat.mod_eq_of_lt hl, htake, show (resLen c + data.length) / 64 = 0 by omega]
      rfl

end Sys2Proof.Laws
end

