-- ==== Sys2Proof/Laws/State.lean ====
section
/-! SUPPORT. One lemma per field per update of the state, and the lemmas of reading a context after an update. -/

namespace Sys2Proof.Laws

open Sys2Proof.Machine

/-! Fields after `accept`. -/

@[simp] theorem accept_c0 (v : Word) (s : State) : (accept v s).c0 = s.c0 := rfl
@[simp] theorem accept_c1 (v : Word) (s : State) : (accept v s).c1 = s.c1 := rfl
@[simp] theorem accept_args (v : Word) (s : State) : (accept v s).args = s.args := rfl
@[simp] theorem accept_status (v : Word) (s : State) : (accept v s).status = statusAccept s.status := rfl
@[simp] theorem accept_ctrlIE (v : Word) (s : State) : (accept v s).ctrlIE = s.ctrlIE := rfl
@[simp] theorem accept_seq (v : Word) (s : State) : (accept v s).seq = { s.seq with cmd := v, args := s.args, posA := 0, posB := 0 } := rfl
@[simp] theorem accept_work (v : Word) (s : State) : (accept v s).work = s.work := rfl
@[simp] theorem accept_mem (v : Word) (s : State) : (accept v s).mem = s.mem := rfl
@[simp] theorem accept_params (v : Word) (s : State) : (accept v s).params = s.params := rfl
@[simp] theorem accept_stale (v : Word) (s : State) : (accept v s).stale = s.stale := rfl
@[simp] theorem accept_raced (v : Word) (s : State) : (accept v s).raced = [] := rfl
@[simp] theorem accept_inputs (v : Word) (s : State) : (accept v s).inputs = s.inputs := rfl
@[simp] theorem accept_rdata (v : Word) (s : State) : (accept v s).rdata = s.rdata := rfl
@[simp] theorem accept_draws (v : Word) (s : State) : (accept v s).draws = s.draws := rfl

/-! Fields after `complete`. -/

@[simp] theorem complete_c0 (e : ErrCode) (c : CtxId) (s : State) : (complete e c s).c0 = s.c0 := rfl
@[simp] theorem complete_c1 (e : ErrCode) (c : CtxId) (s : State) : (complete e c s).c1 = s.c1 := rfl
@[simp] theorem complete_args (e : ErrCode) (c : CtxId) (s : State) : (complete e c s).args = s.args := rfl
@[simp] theorem complete_status (e : ErrCode) (c : CtxId) (s : State) : (complete e c s).status = statusComplete s.status e c := rfl
@[simp] theorem complete_ctrlIE (e : ErrCode) (c : CtxId) (s : State) : (complete e c s).ctrlIE = s.ctrlIE := rfl
@[simp] theorem complete_seq (e : ErrCode) (c : CtxId) (s : State) : (complete e c s).seq = freeSeq s.draws := rfl
@[simp] theorem complete_work (e : ErrCode) (c : CtxId) (s : State) : (complete e c s).work = freeWork s.draws := rfl
@[simp] theorem complete_mem (e : ErrCode) (c : CtxId) (s : State) : (complete e c s).mem = s.mem := rfl
@[simp] theorem complete_params (e : ErrCode) (c : CtxId) (s : State) : (complete e c s).params = s.params := rfl
@[simp] theorem complete_stale (e : ErrCode) (c : CtxId) (s : State) : (complete e c s).stale = s.stale := rfl
@[simp] theorem complete_raced (e : ErrCode) (c : CtxId) (s : State) : (complete e c s).raced = [] := rfl
@[simp] theorem complete_inputs (e : ErrCode) (c : CtxId) (s : State) : (complete e c s).inputs = s.inputs := rfl
@[simp] theorem complete_rdata (e : ErrCode) (c : CtxId) (s : State) : (complete e c s).rdata = s.rdata := rfl
@[simp] theorem complete_draws (e : ErrCode) (c : CtxId) (s : State) : (complete e c s).draws = s.draws + 1 := rfl

/-! Fields after `loadPad`. -/

@[simp] theorem loadPad_c0 (n : CtxId) (s : State) : (loadPad n s).c0 = s.c0 := rfl
@[simp] theorem loadPad_c1 (n : CtxId) (s : State) : (loadPad n s).c1 = s.c1 := rfl
@[simp] theorem loadPad_args (n : CtxId) (s : State) : (loadPad n s).args = s.args := rfl
@[simp] theorem loadPad_status (n : CtxId) (s : State) : (loadPad n s).status = s.status := rfl
@[simp] theorem loadPad_ctrlIE (n : CtxId) (s : State) : (loadPad n s).ctrlIE = s.ctrlIE := rfl
@[simp] theorem loadPad_seq (n : CtxId) (s : State) : (loadPad n s).seq = { s.seq with pad := padBytes (getCtx s n).count } := rfl
@[simp] theorem loadPad_work (n : CtxId) (s : State) : (loadPad n s).work = s.work := rfl
@[simp] theorem loadPad_mem (n : CtxId) (s : State) : (loadPad n s).mem = s.mem := rfl
@[simp] theorem loadPad_params (n : CtxId) (s : State) : (loadPad n s).params = s.params := rfl
@[simp] theorem loadPad_stale (n : CtxId) (s : State) : (loadPad n s).stale = s.stale := rfl
@[simp] theorem loadPad_raced (n : CtxId) (s : State) : (loadPad n s).raced = s.raced := rfl
@[simp] theorem loadPad_inputs (n : CtxId) (s : State) : (loadPad n s).inputs = s.inputs := rfl
@[simp] theorem loadPad_rdata (n : CtxId) (s : State) : (loadPad n s).rdata = s.rdata := rfl
@[simp] theorem loadPad_draws (n : CtxId) (s : State) : (loadPad n s).draws = s.draws := rfl

/-! Fields after `resetEngine`. -/

@[simp] theorem resetEngine_c0 (s : State) : (resetEngine s).c0 = Ctx.reset := rfl
@[simp] theorem resetEngine_c1 (s : State) : (resetEngine s).c1 = Ctx.reset := rfl
@[simp] theorem resetEngine_args (s : State) : (resetEngine s).args = Args.reset := rfl
@[simp] theorem resetEngine_status (s : State) : (resetEngine s).status = Status.reset := rfl
@[simp] theorem resetEngine_ctrlIE (s : State) : (resetEngine s).ctrlIE = false := rfl
@[simp] theorem resetEngine_seq (s : State) : (resetEngine s).seq = Seq.reset := rfl
@[simp] theorem resetEngine_work (s : State) : (resetEngine s).work = Work.reset := rfl
@[simp] theorem resetEngine_mem (s : State) : (resetEngine s).mem = s.mem := rfl
@[simp] theorem resetEngine_params (s : State) : (resetEngine s).params = s.params := rfl
@[simp] theorem resetEngine_stale (s : State) : (resetEngine s).stale = s.stale := rfl
@[simp] theorem resetEngine_raced (s : State) : (resetEngine s).raced = [] := rfl
@[simp] theorem resetEngine_inputs (s : State) : (resetEngine s).inputs = s.inputs := rfl
@[simp] theorem resetEngine_rdata (s : State) : (resetEngine s).rdata = s.rdata := rfl
@[simp] theorem resetEngine_draws (s : State) : (resetEngine s).draws = s.draws := rfl

/-! Fields after `setPos`; the offsets have their own lemmas in Laws/Sequencer.lean. -/

@[simp] theorem setPos_c0 (x : Stream) (p : Nat) (s : State) : (setPos x p s).c0 = s.c0 := by cases x <;> rfl
@[simp] theorem setPos_c1 (x : Stream) (p : Nat) (s : State) : (setPos x p s).c1 = s.c1 := by cases x <;> rfl
@[simp] theorem setPos_args (x : Stream) (p : Nat) (s : State) : (setPos x p s).args = s.args := by cases x <;> rfl
@[simp] theorem setPos_status (x : Stream) (p : Nat) (s : State) : (setPos x p s).status = s.status := by cases x <;> rfl
@[simp] theorem setPos_ctrlIE (x : Stream) (p : Nat) (s : State) : (setPos x p s).ctrlIE = s.ctrlIE := by cases x <;> rfl
@[simp] theorem setPos_work (x : Stream) (p : Nat) (s : State) : (setPos x p s).work = s.work := by cases x <;> rfl
@[simp] theorem setPos_mem (x : Stream) (p : Nat) (s : State) : (setPos x p s).mem = s.mem := by cases x <;> rfl
@[simp] theorem setPos_params (x : Stream) (p : Nat) (s : State) : (setPos x p s).params = s.params := by cases x <;> rfl
@[simp] theorem setPos_stale (x : Stream) (p : Nat) (s : State) : (setPos x p s).stale = s.stale := by cases x <;> rfl
@[simp] theorem setPos_raced (x : Stream) (p : Nat) (s : State) : (setPos x p s).raced = s.raced := by cases x <;> rfl
@[simp] theorem setPos_inputs (x : Stream) (p : Nat) (s : State) : (setPos x p s).inputs = s.inputs := by cases x <;> rfl
@[simp] theorem setPos_rdata (x : Stream) (p : Nat) (s : State) : (setPos x p s).rdata = s.rdata := by cases x <;> rfl
@[simp] theorem setPos_draws (x : Stream) (p : Nat) (s : State) : (setPos x p s).draws = s.draws := by cases x <;> rfl

/-! Fields after `setCtx`; the two contexts have their own lemmas below. -/

@[simp] theorem setCtx_args (s : State) (n : CtxId) (c : Ctx) : (setCtx s n c).args = s.args := by cases n <;> rfl
@[simp] theorem setCtx_status (s : State) (n : CtxId) (c : Ctx) : (setCtx s n c).status = s.status := by cases n <;> rfl
@[simp] theorem setCtx_ctrlIE (s : State) (n : CtxId) (c : Ctx) : (setCtx s n c).ctrlIE = s.ctrlIE := by cases n <;> rfl
@[simp] theorem setCtx_seq (s : State) (n : CtxId) (c : Ctx) : (setCtx s n c).seq = s.seq := by cases n <;> rfl
@[simp] theorem setCtx_work (s : State) (n : CtxId) (c : Ctx) : (setCtx s n c).work = s.work := by cases n <;> rfl
@[simp] theorem setCtx_mem (s : State) (n : CtxId) (c : Ctx) : (setCtx s n c).mem = s.mem := by cases n <;> rfl
@[simp] theorem setCtx_params (s : State) (n : CtxId) (c : Ctx) : (setCtx s n c).params = s.params := by cases n <;> rfl
@[simp] theorem setCtx_stale (s : State) (n : CtxId) (c : Ctx) : (setCtx s n c).stale = s.stale := by cases n <;> rfl
@[simp] theorem setCtx_raced (s : State) (n : CtxId) (c : Ctx) : (setCtx s n c).raced = s.raced := by cases n <;> rfl
@[simp] theorem setCtx_inputs (s : State) (n : CtxId) (c : Ctx) : (setCtx s n c).inputs = s.inputs := by cases n <;> rfl
@[simp] theorem setCtx_rdata (s : State) (n : CtxId) (c : Ctx) : (setCtx s n c).rdata = s.rdata := by cases n <;> rfl
@[simp] theorem setCtx_draws (s : State) (n : CtxId) (c : Ctx) : (setCtx s n c).draws = s.draws := by cases n <;> rfl

@[simp] theorem setCtx_c0_c0 (s : State) (c : Ctx) : (setCtx s .c0 c).c0 = c := rfl
@[simp] theorem setCtx_c0_c1 (s : State) (c : Ctx) : (setCtx s .c0 c).c1 = s.c1 := rfl
@[simp] theorem setCtx_c1_c0 (s : State) (c : Ctx) : (setCtx s .c1 c).c0 = s.c0 := rfl
@[simp] theorem setCtx_c1_c1 (s : State) (c : Ctx) : (setCtx s .c1 c).c1 = c := rfl

/-! Fields after `faultAt`. -/

@[simp] theorem faultAt_args (n : CtxId) (s : State) : (faultAt n s).args = s.args := by cases n <;> rfl
@[simp] theorem faultAt_status (n : CtxId) (s : State) : (faultAt n s).status = s.status := by cases n <;> rfl
@[simp] theorem faultAt_ctrlIE (n : CtxId) (s : State) : (faultAt n s).ctrlIE = s.ctrlIE := by cases n <;> rfl
@[simp] theorem faultAt_seq (n : CtxId) (s : State) : (faultAt n s).seq = s.seq := by cases n <;> rfl
@[simp] theorem faultAt_work (n : CtxId) (s : State) : (faultAt n s).work = s.work := by cases n <;> rfl
@[simp] theorem faultAt_mem (n : CtxId) (s : State) : (faultAt n s).mem = s.mem := by cases n <;> rfl
@[simp] theorem faultAt_params (n : CtxId) (s : State) : (faultAt n s).params = s.params := by cases n <;> rfl
@[simp] theorem faultAt_stale (n : CtxId) (s : State) : (faultAt n s).stale = s.stale := by cases n <;> rfl
@[simp] theorem faultAt_raced (n : CtxId) (s : State) : (faultAt n s).raced = s.raced := by cases n <;> rfl
@[simp] theorem faultAt_inputs (n : CtxId) (s : State) : (faultAt n s).inputs = s.inputs := by cases n <;> rfl
@[simp] theorem faultAt_rdata (n : CtxId) (s : State) : (faultAt n s).rdata = s.rdata := by cases n <;> rfl
@[simp] theorem faultAt_draws (n : CtxId) (s : State) : (faultAt n s).draws = s.draws := by cases n <;> rfl

/-! Reading a context. -/

@[simp] theorem getCtx_c0 (s : State) : getCtx s .c0 = s.c0 := rfl
@[simp] theorem getCtx_c1 (s : State) : getCtx s .c1 = s.c1 := rfl

@[simp] theorem getCtx_setCtx_same (s : State) (n : CtxId) (c : Ctx) : getCtx (setCtx s n c) n = c := by
  cases n <;> rfl

theorem getCtx_setCtx_ne (s : State) {n m : CtxId} (c : Ctx) (h : m ≠ n) :
    getCtx (setCtx s n c) m = getCtx s m := by
  cases n <;> cases m <;> first | rfl | exact absurd rfl h

@[simp] theorem getCtx_accept (v : Word) (s : State) (n : CtxId) : getCtx (accept v s) n = getCtx s n := by
  cases n <;> rfl

@[simp] theorem getCtx_complete (e : ErrCode) (c : CtxId) (s : State) (n : CtxId) :
    getCtx (complete e c s) n = getCtx s n := by
  cases n <;> rfl

@[simp] theorem getCtx_loadPad (m : CtxId) (s : State) (n : CtxId) : getCtx (loadPad m s) n = getCtx s n := by
  cases n <;> rfl

@[simp] theorem getCtx_faultAt_same (n : CtxId) (s : State) : getCtx (faultAt n s) n = faultCtx s.draws n := by
  cases n <;> rfl

theorem getCtx_faultAt_ne {n m : CtxId} (s : State) (h : m ≠ n) : getCtx (faultAt n s) m = getCtx s m := by
  cases n <;> cases m <;> first | rfl | exact absurd rfl h

@[simp] theorem getCtx_resetEngine (s : State) (n : CtxId) : getCtx (resetEngine s) n = Ctx.reset := by
  cases n <;> rfl

/-! STATUS after accept and completion. -/

@[simp] theorem statusAccept_busy (f : Status) : (statusAccept f).busy = true := rfl
@[simp] theorem statusAccept_done (f : Status) : (statusAccept f).done = false := rfl
@[simp] theorem statusAccept_ovr (f : Status) : (statusAccept f).ovr = f.ovr := rfl
@[simp] theorem statusAccept_errcode (f : Status) : (statusAccept f).errcode = .none := rfl
@[simp] theorem statusAccept_errctx (f : Status) : (statusAccept f).errctx = .c0 := rfl
@[simp] theorem statusComplete_busy (f : Status) (e : ErrCode) (c : CtxId) : (statusComplete f e c).busy = false := rfl
@[simp] theorem statusComplete_done (f : Status) (e : ErrCode) (c : CtxId) : (statusComplete f e c).done = true := rfl
@[simp] theorem statusComplete_ovr (f : Status) (e : ErrCode) (c : CtxId) : (statusComplete f e c).ovr = f.ovr := rfl
@[simp] theorem statusComplete_errcode (f : Status) (e : ErrCode) (c : CtxId) :
    (statusComplete f e c).errcode = e := rfl
@[simp] theorem statusComplete_errctx (f : Status) (e : ErrCode) (c : CtxId) :
    (statusComplete f e c).errctx = c := rfl

end Sys2Proof.Laws
end

