-- ==== Sys2Proof/Laws/Sequencer.lean ====
section
/-! SUPPORT. What the sequencer's operations do, said once: a block runs the 64 steps of the schedule in order and leaves
`seq.step` at 0; the offsets of the streams move by the bytes consumed; and the commands' runs on the state come to the
functions of Laws/Pure.lean on the contexts. -/

namespace Sys2Proof.Laws

open Sys2Proof.Machine

/-! ## Frames -/

/-- `u` is `s` with other contexts, sequencer and working registers, and nothing else. -/
def CtxWrite (s u : State) : Prop := u = { s with c0 := u.c0, c1 := u.c1, seq := u.seq, work := u.work }

theorem ctxWrite_refl (s : State) : CtxWrite s s := rfl

theorem ctxWrite_trans {s u v : State} (h : CtxWrite s u) (h' : CtxWrite u v) : CtxWrite s v := by
  unfold CtxWrite at *
  rw [h'] at *
  rw [h]

theorem ctxWrite_setCtx (s : State) (n : CtxId) (c : Ctx) : CtxWrite s (setCtx s n c) := by cases n <;> rfl

theorem ctxWrite_faultAt (s : State) (n : CtxId) : CtxWrite s (faultAt n s) := by cases n <;> rfl

theorem ctxWrite_loadPad (s : State) (n : CtxId) : CtxWrite s (loadPad n s) := rfl

theorem ctxWrite_setPos (s : State) (x : Stream) (p : Nat) : CtxWrite s (setPos x p s) := by cases x <;> rfl

theorem params_ctxWrite {s u : State} (h : CtxWrite s u) : u.params = s.params := by
  unfold CtxWrite at h
  rw [h]

theorem draws_ctxWrite {s u : State} (h : CtxWrite s u) : u.draws = s.draws := by
  unfold CtxWrite at h
  rw [h]

/-- A completion depends on the contexts its command wrote, not on the sequencer or the working registers (R45, R49). -/
theorem complete_congr {s u v : State} (e : ErrCode) (c : CtxId) (hu : CtxWrite s u) (hv : CtxWrite s v)
    (h : ∀ n, getCtx u n = getCtx v n) : complete e c u = complete e c v := by
  have h0 : u.c0 = v.c0 := h .c0
  have h1 : u.c1 = v.c1 := h .c1
  unfold CtxWrite at hu hv
  rw [hu, hv]
  simp only [complete, h0, h1]

/-- `u` is `s` but for the step index and the working registers. -/
def OnlyWork (s u : State) : Prop := u = { s with seq := { s.seq with step := u.seq.step }, work := u.work }

theorem onlyWork_trans {s u v : State} (h : OnlyWork s u) (h' : OnlyWork u v) : OnlyWork s v := by
  unfold OnlyWork at *
  rw [h'] at *
  rw [h]

theorem onlyWork_iterate {f : State → State} (h : ∀ s, OnlyWork s (f s)) (k : Nat) (s : State) : OnlyWork s (f^[k] s) := by
  induction k generalizing s with
  | zero => exact (rfl : s = _)
  | succ k ih => exact onlyWork_trans (h s) (ih (f s))

theorem onlyWork_singleStep (core : CoreSel) (s : State) : OnlyWork s (singleStep core s) := by cases core <;> rfl

theorem onlyWork_pairStep (s : State) : OnlyWork s (pairStep s) := rfl

/-! ## Offsets -/

@[simp] theorem posOf_setCtx (s : State) (n : CtxId) (c : Ctx) (x : Stream) : posOf (setCtx s n c) x = posOf s x := by
  cases n <;> cases x <;> rfl

@[simp] theorem getCtx_setPos (s : State) (x : Stream) (p : Nat) (n : CtxId) : getCtx (setPos x p s) n = getCtx s n := by
  cases n <;> cases x <;> rfl

@[simp] theorem posOf_accept (v : Word) (s : State) (x : Stream) : posOf (accept v s) x = 0 := by cases x <;> rfl

theorem posOf_setPos_same (s : State) (x : Stream) {p : Nat} (h : p < 2 ^ 64) : posOf (setPos x p s) x = p := by
  cases x <;> simp [setPos, posOf] <;> omega

theorem posOf_setPos_ne (s : State) {x y : Stream} (p : Nat) (h : y ≠ x) : posOf (setPos x p s) y = posOf s y := by
  cases x <;> cases y <;> first | rfl | exact absurd rfl h

/-! ## The steps of a block -/

/-- R45: the step index while `k` steps run from `i`. -/
theorem step_iterate {f : State → State} (hf : ∀ s, (f s).seq.step = s.seq.step + 1) (k : Nat) (s : State) :
    (f^[k] s).seq.step = s.seq.step + BitVec.ofNat 6 k := by
  induction k with
  | zero => simp
  | succ k ih =>
    rw [Function.iterate_succ_apply', hf, ih, BitVec.ofNat_add, BitVec.add_assoc]
    rfl

theorem singleStep_step (core : CoreSel) (s : State) : (singleStep core s).seq.step = s.seq.step + 1 := by cases core <;> rfl

/-- R126: one step in the working registers, with the row `seq.step` counts. -/
theorem singleStep_scalar (core : CoreSel) (s : State) : (singleStep core s).work.scalar =
    scalarStep (rotOf core) s.work.scalar (rowAt s.seq.step) := by
  cases core <;> rfl

/-- R125: the schedule is its rows in the order of the step index. -/
theorem schedule_rows : schedule = (List.range 64).map (fun i => rowAt (BitVec.ofNat 6 i)) := by rfl

/-- Running a machine that works through the rows one by one is folding over them. -/
theorem rows_iterate {R : Type} {f : State → State} {regs : State → R} {g : R → StepRow → R}
    (hs : ∀ s, (f s).seq.step = s.seq.step + 1) (hr : ∀ s, regs (f s) = g (regs s) (rowAt s.seq.step)) (k : Nat) (s : State)
    (h0 : s.seq.step = 0) :
    regs (f^[k] s) = ((List.range k).map (fun i => rowAt (BitVec.ofNat 6 i))).foldl g (regs s) := by
  induction k with
  | zero => rfl
  | succ k ih =>
    rw [Function.iterate_succ_apply', hr, ih, List.range_succ, List.map_append, List.foldl_append, step_iterate hs, h0,
      zero_add]
    rfl

/-- Everything one block of a single-stream datapath does: the digest of its context, the working registers, and `seq.step`
back at 0. -/
theorem compressBlock_spec (core : CoreSel) (n : CtxId) (w : List Word) (s : State) :
    getCtx (compressBlock core n w s) n = { getCtx s n with dig := runScalar (rotOf core) (getCtx s n).dig w } ∧
      (∀ m, m ≠ n → getCtx (compressBlock core n w s) m = getCtx s m) ∧
      (∀ x, posOf (compressBlock core n w s) x = posOf s x) ∧
      (compressBlock core n w s).seq.step = 0 ∧ CtxWrite s (compressBlock core n w s) := by
  have hw := onlyWork_iterate (onlyWork_singleStep core) 64 (loadBlock n w s)
  have hreg := rows_iterate (regs := fun s => s.work.scalar) (singleStep_step core) (singleStep_scalar core) 64
    (loadBlock n w s) rfl
  have hstep := step_iterate (singleStep_step core) 64 (loadBlock n w s)
  rw [← schedule_rows] at hreg
  unfold compressBlock storeBlock
  generalize (singleStep core)^[64] (loadBlock n w s) = u at *
  have hc : ∀ m, getCtx u m = getCtx s m := fun m => by rw [hw]; cases m <;> rfl
  have hp : ∀ x, posOf u x = posOf s x := fun x => by rw [hw]; cases x <;> rfl
  refine ⟨?_, fun m hm => ?_, fun x => ?_, ?_, ?_⟩
  · rw [setDigest, getCtx_setCtx_same, hc, hreg]
    rfl
  · rw [setDigest, getCtx_setCtx_ne _ _ hm, hc]
  · rw [setDigest, posOf_setCtx, hp]
  · rw [setDigest, setCtx_seq, hstep]
    rfl
  · refine ctxWrite_trans ?_ (ctxWrite_setCtx u n _)
    rw [hw]
    rfl

/-! ## One stream -/

/-- `u` is where `s` stands when the run of stream `x` on context `n` has come to `f`. -/
structure At (n : CtxId) (x : Stream) (s : State) (f : Fed) (u : State) : Prop where
  ctx : getCtx u n = { getCtx s n with dig := f.dig, res := f.res }
  other : ∀ m, m ≠ n → getCtx u m = getCtx s m
  pos : posOf u x = f.p
  otherPos : ∀ y, y ≠ x → posOf u y = posOf s y
  frame : CtxWrite s u

theorem at_of_eq {n : CtxId} {x : Stream} {s u : State} {f g : Fed} (h : At n x s f u) (hd : g.dig = f.dig)
    (hr : g.res = f.res) (hp : g.p = f.p) : At n x s g u :=
  ⟨by rw [h.ctx, hd, hr], h.other, by rw [h.pos, hp], h.otherPos, h.frame⟩

theorem at_compressBlock {n : CtxId} {x : Stream} {s u : State} {f : Fed} (core : CoreSel) (w : List Word)
    (h : At n x s f u) : At n x s { f with dig := runScalar (rotOf core) f.dig w } (compressBlock core n w u) := by
  obtain ⟨hc, ho, hp, -, hw⟩ := compressBlock_spec core n w u
  exact ⟨by rw [hc, h.ctx], fun m hm => (ho m hm).trans (h.other m hm), (hp x).trans h.pos,
    fun y hy => (hp y).trans (h.otherPos y hy), ctxWrite_trans h.frame hw⟩

theorem at_setResidual {n : CtxId} {x : Stream} {s u : State} {f : Fed} (res : List Byte) (h : At n x s f u) :
    At n x s { f with res := res } (setResidual n res u) :=
  ⟨by rw [setResidual, getCtx_setCtx_same, h.ctx], fun m hm => by rw [setResidual, getCtx_setCtx_ne _ _ hm, h.other m hm],
    by rw [setResidual, posOf_setCtx, h.pos], fun y hy => by rw [setResidual, posOf_setCtx, h.otherPos y hy],
    ctxWrite_trans h.frame (ctxWrite_setCtx _ _ _)⟩

theorem at_setPos {n : CtxId} {x : Stream} {s u : State} {f : Fed} {p : Nat} (hp : p < 2 ^ 64) (h : At n x s f u) :
    At n x s { f with p := p } (setPos x p u) :=
  ⟨by rw [getCtx_setPos, h.ctx], fun m hm => by rw [getCtx_setPos, h.other m hm], posOf_setPos_same u x hp,
    fun y hy => by rw [posOf_setPos_ne u p hy, h.otherPos y hy], ctxWrite_trans h.frame (ctxWrite_setPos _ _ _)⟩

theorem at_params {n : CtxId} {x : Stream} {s u : State} {f : Fed} (h : At n x s f u) : u.params = s.params :=
  params_ctxWrite h.frame

/-- The start of a run, whatever the offset was. -/
theorem at_start (n : CtxId) (x : Stream) (s : State) :
    At n x s ⟨(getCtx s n).dig, (getCtx s n).res, 0, 0⟩ (setPos x 0 s) :=
  ⟨getCtx_setPos s x 0 n, fun m _ => getCtx_setPos s x 0 m, posOf_setPos_same s x (by decide),
    fun _ hy => posOf_setPos_ne s 0 hy, ctxWrite_setPos s x 0⟩

/-- R176: step (a). -/
theorem at_topUp (n : CtxId) (x : Stream) (core : CoreSel) {data : List Byte} (s : State) (hl : data.length < 2 ^ 64) :
    At n x s (fedTopUp core s.params.zeroDetect data (getCtx s n)) (topUp n x core data s) := by
  unfold topUp fedTopUp
  simp only
  split
  · exact at_start n x s
  · have h0 : At n x s ⟨(getCtx s n).dig, (getCtx s n).res, 0, posOf s x⟩ s :=
      ⟨rfl, fun _ _ => rfl, rfl, fun _ _ => rfl, ctxWrite_refl s⟩
    have h1 := at_setPos (p := min (64 - resLen (getCtx s n)) data.length) (by omega)
      (at_setResidual (overwrite (getCtx s n).res (resLen (getCtx s n))
        (data.take (min (64 - resLen (getCtx s n)) data.length))) h0)
    split
    · rw [at_params h1]
      exact at_of_eq (at_compressBlock core _ h1) rfl rfl rfl
    · exact at_of_eq h1 rfl rfl rfl

/-- R177: one block of step (b). -/
theorem at_nextBlock {n : CtxId} {x : Stream} {s u : State} {f : Fed} (core : CoreSel) (copy : Nat → Bool)
    (data : List Byte) (hp : f.p + 64 < 2 ^ 64) (h : At n x s f u) :
    At n x s (fedBlock core s.params.zeroDetect copy data f) (nextBlock core n x copy data u) := by
  unfold nextBlock advancePos fedBlock
  simp only
  have h1 : At n x s { f with res := if copy f.p then blockAt data f.p else f.res }
      (if copy (posOf u x) then setResidual n (blockAt data (posOf u x)) u else u) := by
    rw [h.pos]
    split
    · exact at_setResidual _ h
    · exact h
  rw [at_params h1, h.pos] at *
  have h2 := at_compressBlock core (blockWords s.params.zeroDetect (blockAt data f.p)) h1
  rw [h2.pos]
  exact at_of_eq (at_setPos hp h2) rfl rfl rfl

theorem at_nextBlocks {n : CtxId} {x : Stream} {s u : State} {f : Fed} (core : CoreSel) (copy : Nat → Bool)
    (data : List Byte) (k : Nat) (hp : f.p + 64 * k < 2 ^ 64) (h : At n x s f u) :
    At n x s (fedBlocks core s.params.zeroDetect copy data k f) ((nextBlock core n x copy data)^[k] u) := by
  induction k generalizing f u with
  | zero => exact h
  | succ k ih => exact ih (by simp only [fedBlock]; omega) (at_nextBlock core copy data (by omega) h)

/-- R177, R178: steps (b) and (c). -/
theorem at_finishStream {n : CtxId} {x : Stream} {s u : State} {f : Fed} (core : CoreSel) (copy : Nat → Bool)
    {data : List Byte} (hl : data.length < 2 ^ 64) (hp : f.p ≤ data.length) (h : At n x s f u) :
    At n x s (fedFinish core s.params.zeroDetect copy data f) (finishStream n x core copy data u) := by
  unfold finishStream fedFinish tail fedTail wholeBlocks
  have h1 := at_nextBlocks core copy data ((data.length - f.p) / 64) (by omega) h
  rw [h.pos, h1.pos]
  split
  · have := at_setPos hl (at_setResidual (overwrite
      (fedBlocks core s.params.zeroDetect copy data ((data.length - f.p) / 64) f).res 0
      (data.drop (fedBlocks core s.params.zeroDetect copy data ((data.length - f.p) / 64) f).p)) h1)
    rw [h1.ctx]
    exact at_of_eq this rfl rfl rfl
  · exact h1

theorem fedTopUp_p_le (core : CoreSel) (zd : Bool) (data : List Byte) (c : Ctx) : (fedTopUp core zd data c).p ≤ data.length := by
  unfold fedTopUp
  simp only
  split
  · exact Nat.zero_le _
  · split <;> exact Nat.min_le_right _ _

/-- The counter's update, last. -/
theorem getCtx_addCount_same (n : CtxId) (len : Nat) (s : State) :
    getCtx (addCount n len s) n = { getCtx s n with count := (getCtx s n).count + BitVec.ofNat 64 len } :=
  getCtx_setCtx_same _ _ _

theorem getCtx_addCount_ne {n m : CtxId} (len : Nat) (s : State) (h : m ≠ n) :
    getCtx (addCount n len s) m = getCtx s m := getCtx_setCtx_ne _ _ h

/-- What a run that writes one context leaves. -/
structure Wrote (n : CtxId) (s : State) (c : Ctx) (u : State) : Prop where
  ctx : getCtx u n = c
  other : ∀ m, m ≠ n → getCtx u m = getCtx s m
  frame : CtxWrite s u

theorem wrote_addCount {n : CtxId} {x : Stream} {s u : State} {f : Fed} (len : Nat) (h : At n x s f u) :
    Wrote n s (storeFed (getCtx s n) len f) (addCount n len u) :=
  ⟨by rw [getCtx_addCount_same, h.ctx]; rfl, fun m hm => by rw [getCtx_addCount_ne _ _ hm, h.other m hm],
    ctxWrite_trans h.frame (ctxWrite_setCtx _ _ _)⟩

/-- A completion of such a run is the completion of the one write. -/
theorem wrote_complete {n : CtxId} {s u : State} {c : Ctx} (h : Wrote n s c u) (e : ErrCode) (k : CtxId) :
    complete e k u = complete e k (setCtx s n c) := by
  refine complete_congr e k h.frame (ctxWrite_setCtx s n c) fun m => ?_
  by_cases hm : m = n
  · subst hm
    rw [h.ctx, getCtx_setCtx_same]
  · rw [h.other m hm, getCtx_setCtx_ne _ _ hm]

/-- R175: PROCESS's run. -/
theorem wrote_feedStream (n : CtxId) (x : Stream) (core : CoreSel) (copy : Nat → Bool) {data : List Byte} (s : State)
    (hl : data.length < 2 ^ 64) :
    Wrote n s (feed core s.params.zeroDetect copy data (getCtx s n)) (feedStream n x core copy data s) :=
  wrote_addCount _ (at_finishStream core copy hl (fedTopUp_p_le ..) (at_topUp n x core s hl))

/-- Steps (b) and (c) use up the data. -/
theorem fedFinish_p (core : CoreSel) (zd : Bool) (copy : Nat → Bool) {data : List Byte} {f : Fed} (h : f.p ≤ data.length) :
    (fedFinish core zd copy data f).p = data.length := by
  rw [fedFinish, fedTail]
  split
  · rfl
  · rename_i hn
    rw [fedBlocks_p] at *
    omega

/-- R45: PROCESS's run has consumed all its data. -/
theorem posOf_feedStream (n : CtxId) (x : Stream) (core : CoreSel) (copy : Nat → Bool) {data : List Byte} (s : State)
    (hl : data.length < 2 ^ 64) : posOf (feedStream n x core copy data s) x = data.length := by
  have hp := fedTopUp_p_le core s.params.zeroDetect data (getCtx s n)
  rw [feedStream, addCount, posOf_setCtx, (at_finishStream core copy hl hp (at_topUp n x core s hl)).pos, fedFinish_p _ _ _ hp]

theorem fedBlocks_noCopy (core : CoreSel) (zd : Bool) (data : List Byte) (k : Nat) (f : Fed) :
    (fedBlocks core zd (fun _ => false) data k f).dig = chainOn core zd k f.dig (data.drop f.p) ∧
      (fedBlocks core zd (fun _ => false) data k f).res = f.res := by
  induction k generalizing f with
  | zero => exact ⟨rfl, rfl⟩
  | succ k ih =>
    rw [fedBlocks, chainOn, List.drop_drop]
    exact ih _

/-- R145: COMPRESS's run. -/
theorem wrote_compressRun (n : CtxId) (x : Stream) (core : CoreSel) {data : List Byte} (s : State)
    (hl : data.length < 2 ^ 64) :
    Wrote n s (compressedCtx core s.params.zeroDetect data (getCtx s n)) (compressRun n x core data s) := by
  have h := wrote_addCount data.length
    (at_nextBlocks core (fun _ => false) data (data.length / 64) (by simp only; omega) (at_start n x s))
  obtain ⟨hd, hr⟩ := fedBlocks_noCopy core s.params.zeroDetect data (data.length / 64)
    ⟨(getCtx s n).dig, (getCtx s n).res, 0, 0⟩
  refine ⟨h.ctx.trans ?_, h.other, h.frame⟩
  rw [storeFed, hd, hr]
  rfl

theorem at_zeroBlocks {n : CtxId} {s u : State} {f : Fed} (core : CoreSel) (k : Nat) (hp : f.p + 64 * k < 2 ^ 64)
    (h : At n .a s f u) :
    At n .a s { f with dig := chainZero core k f.dig, p := f.p + 64 * k } ((nextZeroBlock core n)^[k] u) := by
  induction k generalizing f u with
  | zero => exact h
  | succ k ih =>
    have h1 := at_compressBlock core (List.replicate 16 0) h
    have h2 : At n .a s { f with dig := compressZeroOn core f.dig, p := f.p + 64 } (nextZeroBlock core n u) := by
      rw [nextZeroBlock, advancePos, h1.pos]
      exact at_of_eq (at_setPos (by simp only; omega) h1) rfl rfl rfl
    exact at_of_eq (ih (by simp only; omega) h2) rfl rfl (by simp only; omega)

/-- R148: ZCOMPRESS's run. -/
theorem wrote_zeroRun (n : CtxId) (core : CoreSel) {len : Nat} (s : State) (hl : len < 2 ^ 64) :
    Wrote n s (advanceCtx (getCtx s n) (chainZero core (len / 64) (getCtx s n).dig) len) (zeroRun n core len s) :=
  wrote_addCount len (at_zeroBlocks core (len / 64) (by simp only; omega) (at_start n .a s))

/-- R180: END's run. -/
theorem wrote_feedPad (n : CtxId) (core : CoreSel) (s : State) :
    Wrote n s (finalCtx core s.params.zeroDetect (getCtx s n)) (feedPad n core s) := by
  have hlen : (padBytes (getCtx s n).count).length < 2 ^ 64 := by
    have := padLen_bounds (getCtx s n).count
    rw [padBytes_length]
    omega
  have h := wrote_feedStream n .a core (fun _ => false) (loadPad n s) hlen
  rw [getCtx_loadPad] at h
  refine ⟨?_, fun m hm => ?_, ctxWrite_trans (ctxWrite_trans (ctxWrite_loadPad s n) h.frame) (ctxWrite_setCtx _ _ _)⟩
  · exact (getCtx_setCtx_same ..).trans (by rw [show getCtx (feedStream n .a core (fun _ => false)
      (loadPad n s).seq.pad (loadPad n s)) n = _ from h.ctx]; rfl)
  · exact (getCtx_setCtx_ne _ _ hm).trans ((h.other m hm).trans (getCtx_loadPad ..))

/-! ## Two streams -/

/-- R10: the bits of the duplicated form. -/
theorem getLsbD_dup (x : Word) (i : Nat) : (dup x).getLsbD i = if i < 32 then x.getLsbD i else x.getLsbD (i - 32) := by
  have := BitVec.getLsbD_append (x := x) (y := x) (i := i)
  by_cases h : i < 32 <;> simpa [dup, h] using this

/-- R48: the bits of a LanePair register. -/
theorem getLsbD_pair (lo hi : DWord) (i : Nat) :
    (pair lo hi).getLsbD i = if i < 64 then lo.getLsbD i else hi.getLsbD (i - 64) := by
  have := BitVec.getLsbD_append (x := hi) (y := lo) (i := i)
  by_cases h : i < 64 <;> simpa [pair, h] using this

@[simp] theorem loHalf_pair (lo hi : DWord) : loHalf (pair lo hi) = lo := by
  unfold loHalf
  ext i h
  simp [getLsbD_pair, h]

@[simp] theorem hiHalf_pair (lo hi : DWord) : hiHalf (pair lo hi) = hi := by
  unfold hiHalf
  ext i h
  simp [getLsbD_pair, BitVec.getLsbD_eq_getElem h]

@[simp] theorem setWidth_dup (x : Word) : (dup x).setWidth 32 = x := by
  ext i h
  simp [getLsbD_dup, h]

@[simp] theorem laneA_packLanes (x y : Word) : laneA (packLanes x y) = x := by simp [laneA, packLanes]

@[simp] theorem laneB_packLanes (x y : Word) : laneB (packLanes x y) = y := by simp [laneB, packLanes]

/-- R48: the LanePair registers hold the two states. -/
structure Packed (r : LaneRegs) (st : Digest × Digest) : Prop where
  a : r.a = packLanes st.1.a st.2.a
  b : r.b = packLanes st.1.b st.2.b
  c : r.c = packLanes st.1.c st.2.c
  d : r.d = packLanes st.1.d st.2.d

theorem packed_loadLanes (r : LaneRegs) (sA sB : Digest) : Packed (loadLanes r sA sB) (sA, sB) := ⟨rfl, rfl, rfl, rfl⟩

theorem storeLanes_packed {r : LaneRegs} {st : Digest × Digest} (h : Packed r st) : storeLanes r = st := by
  simp only [storeLanes, h.a, h.b, h.c, h.d, laneA_packLanes, laneB_packLanes]

/-- R138 to R140: a block of each stream in registers that hold two states comes to `compressDual` of the states. -/
theorem packed_runLanes {r : LaneRegs} {st : Digest × Digest} (bA bB : List Byte) (h : Packed r st) :
    Packed (runLanes r (messageWords bA) (messageWords bB)) (compressDual st.1 st.2 bA bB) := by
  have e : startLanes r (messageWords bA) (messageWords bB) =
      startLanes (loadLanes Work.reset.lanes st.1 st.2) (messageWords bA) (messageWords bB) := by
    simp only [startLanes, loadLanes, h.a, h.b, h.c, h.d]
  unfold compressDual runLanes
  rw [e]
  constructor <;> simp only [chainLanes, storeLanes, addLanes, laneA_packLanes, laneB_packLanes]

/-- Where a dual-lane run that began at `u` stands. -/
structure InRun (u : State) (st : Digest × Digest) (pA pB : Nat) (v : State) : Prop where
  ctx : ∀ n, getCtx v n = getCtx u n
  posA : posOf v .a = pA
  posB : posOf v .b = pB
  lanes : Packed v.work.lanes st
  frame : CtxWrite u v

-- `simp only` shows the kernel the field; it must not compare `chainPair z` with `z` as a whole.
theorem getCtx_chainPair (z : State) (n : CtxId) : getCtx (chainPair z) n = getCtx z n := by
  cases n <;> simp only [getCtx, chainPair]

theorem posOf_chainPair (z : State) (x : Stream) : posOf (chainPair z) x = posOf z x := by
  cases x <;> simp only [posOf, chainPair]

theorem inRun_enterPair (u : State) : InRun u (u.c0.dig, u.c1.dig) (posOf u .a) (posOf u .b) (enterPair u) :=
  ⟨fun n => by cases n <;> rfl, rfl, rfl, packed_loadLanes _ _ _, rfl⟩

theorem inRun_nextPair {u v : State} {st : Digest × Digest} {pA pB : Nat} (dA dB : List Byte) (hA : pA + 64 < 2 ^ 64)
    (hB : pB + 64 < 2 ^ 64) (h : InRun u st pA pB v) :
    InRun u (compressDual st.1 st.2 (blockAt dA pA) (blockAt dB pB)) (pA + 64) (pB + 64) (nextPair dA dB v) := by
  unfold nextPair
  simp only
  rw [h.posA, h.posB]
  generalize hl : loadPair (messageWords (blockAt dA pA)) (messageWords (blockAt dB pB)) v = w
  have hw := onlyWork_iterate onlyWork_pairStep 64 w
  have hreg := rows_iterate (f := pairStep) (regs := fun s => s.work.lanes) (g := laneStep) (fun _ => rfl) (fun _ => rfl) 64
    w (by rw [← hl]; rfl)
  rw [← schedule_rows] at hreg
  generalize pairStep^[64] w = z at *
  have hpz : ∀ x, posOf z x = posOf v x := fun x => by rw [hw, ← hl]; cases x <;> rfl
  have hcz : ∀ n, getCtx z n = getCtx v n := fun n => by rw [hw, ← hl]; cases n <;> rfl
  have hlz : (chainPair z).work.lanes = runLanes v.work.lanes (messageWords (blockAt dA pA)) (messageWords (blockAt dB pB)) := by
    simp only [chainPair, hreg, ← hl, loadPair, runLanes]
  have hpA : posOf (chainPair z) .a = pA := (posOf_chainPair z .a).trans ((hpz .a).trans h.posA)
  have hpB : posOf (setPos .a (pA + 64) (chainPair z)) .b = pB := 
    (posOf_setPos_ne _ _ (by decide)).trans ((posOf_chainPair z .b).trans ((hpz .b).trans h.posB))
  unfold advancePos
  rw [hpA, hpB]
  refine ⟨fun n => ?_, ?_, posOf_setPos_same _ _ hB, ?_, ?_⟩
  · rw [getCtx_setPos, getCtx_setPos]
    exact (getCtx_chainPair z n).trans ((hcz n).trans (h.ctx n))
  · rw [posOf_setPos_ne _ _ (by decide), posOf_setPos_same _ _ hA]
  · rw [setPos_work, setPos_work, hlz]
    exact packed_runLanes _ _ h.lanes
  · refine ctxWrite_trans h.frame (ctxWrite_trans ?_ (ctxWrite_trans (ctxWrite_setPos _ _ _) (ctxWrite_setPos _ _ _)))
    rw [hw, ← hl]
    rfl

theorem inRun_nextPairs {u v : State} {st : Digest × Digest} {pA pB : Nat} (dA dB : List Byte) (m : Nat)
    (hA : pA + 64 * m < 2 ^ 64) (hB : pB + 64 * m < 2 ^ 64) (h : InRun u st pA pB v) :
    InRun u (dualBlocks m st (dA.drop pA) (dB.drop pB)) (pA + 64 * m) (pB + 64 * m) ((nextPair dA dB)^[m] v) := by
  induction m generalizing v st pA pB with
  | zero => exact h
  | succ m ih =>
    have := ih (by omega) (by omega) (inRun_nextPair dA dB (by omega) (by omega) h)
    rw [show pA + 64 + 64 * m = pA + 64 * (m + 1) by omega, show pB + 64 + 64 * m = pB + 64 * (m + 1) by omega] at this
    rw [dualBlocks, List.drop_drop, List.drop_drop]
    exact this

/-- `u` is where `s` stands when the runs of both streams have come to `fA` and `fB`. -/
structure AtPair (s : State) (fA fB : Fed) (u : State) : Prop where
  a : u.c0 = { s.c0 with dig := fA.dig, res := fA.res }
  b : u.c1 = { s.c1 with dig := fB.dig, res := fB.res }
  posA : posOf u .a = fA.p
  posB : posOf u .b = fB.p
  frame : CtxWrite s u

/-- Stream A goes on from there. -/
theorem atPair_streamA {s u v : State} {fA fB g : Fed} (h : AtPair s fA fB u) (h' : At .c0 .a u g v) : AtPair s g fB v :=
  ⟨(show v.c0 = _ from h'.ctx).trans (by rw [getCtx_c0, h.a]), (h'.other .c1 (by decide)).trans h.b, h'.pos,
    (h'.otherPos .b (by decide)).trans h.posB, ctxWrite_trans h.frame h'.frame⟩

/-- Stream B goes on from there. -/
theorem atPair_streamB {s u v : State} {fA fB g : Fed} (h : AtPair s fA fB u) (h' : At .c1 .b u g v) : AtPair s fA g v :=
  ⟨(h'.other .c0 (by decide)).trans h.a, (show v.c1 = _ from h'.ctx).trans (by rw [getCtx_c1, h.b]),
    (h'.otherPos .a (by decide)).trans h.posA, h'.pos, ctxWrite_trans h.frame h'.frame⟩

theorem at_self (n : CtxId) (x : Stream) (r : Nat) (u : State) : At n x u ⟨(getCtx u n).dig, (getCtx u n).res, r, posOf u x⟩ u :=
  ⟨rfl, fun _ _ => rfl, rfl, fun _ _ => rfl, ctxWrite_refl u⟩

theorem atPair_start (s : State) :
    AtPair s ⟨s.c0.dig, s.c0.res, 0, posOf s .a⟩ ⟨s.c1.dig, s.c1.res, 0, posOf s .b⟩ s :=
  ⟨rfl, rfl, rfl, rfl, ctxWrite_refl s⟩

theorem atPair_dualRun {s u : State} {fA fB : Fed} (m : Nat) (dA dB : List Byte) (hA : fA.p + 64 * m < 2 ^ 64)
    (hB : fB.p + 64 * m < 2 ^ 64) (h : AtPair s fA fB u) :
    let st := dualBlocks m (fA.dig, fB.dig) (dA.drop fA.p) (dB.drop fB.p)
    AtPair s { fA with dig := st.1, p := fA.p + 64 * m } { fB with dig := st.2, p := fB.p + 64 * m } (dualRun m dA dB u) := by
  have hd : (u.c0.dig, u.c1.dig) = (fA.dig, fB.dig) := by rw [h.a, h.b]
  have h0 := inRun_enterPair u
  rw [h.posA, h.posB, hd] at h0
  have h1 := inRun_nextPairs dA dB m hA hB h0
  simp only
  unfold dualRun leavePair
  generalize (nextPair dA dB)^[m] (enterPair u) = v at *
  have hc0 : v.c0 = u.c0 := h1.ctx .c0
  have hc1 : v.c1 = u.c1 := h1.ctx .c1
  rw [storeLanes_packed h1.lanes]
  refine ⟨?_, ?_, ?_, ?_, ?_⟩
  · simp only [setDigest, getCtx_c0, getCtx_c1, setCtx_c1_c0, setCtx_c0_c0, hc0, h.a]
  · simp only [setDigest, getCtx_c0, getCtx_c1, setCtx_c1_c1, setCtx_c0_c1, hc1, h.b]
  · simp only [setDigest, posOf_setCtx]
    exact h1.posA
  · simp only [setDigest, posOf_setCtx]
    exact h1.posB
  · exact ctxWrite_trans h.frame (ctxWrite_trans h1.frame
      (ctxWrite_trans (ctxWrite_setCtx _ _ _) (ctxWrite_setCtx _ _ _)))

theorem openBlocks_eq (core : CoreSel) (zd : Bool) (data : List Byte) (c : Ctx) :
    openBlocks c data (fedTopUp core zd data c).p = fedOpen data (fedTopUp core zd data c) := by
  have hlt : resLen c < 64 := Nat.mod_lt _ (by decide)
  unfold openBlocks openAfterTopUp fedTopUp
  rcases Nat.eq_zero_or_pos (resLen c) with h0 | h0
  · simp [h0, fedOpen]
  · rcases Nat.lt_or_ge (resLen c + data.length) 64 with h | h
    · have ht : resLen c + min (64 - resLen c) data.length ≠ 64 := by omega
      have hr : resLen c + min (64 - resLen c) data.length ≠ 0 := by omega
      simp [fedOpen, Nat.ne_of_gt h0, ht, Nat.not_le.mpr h]
    · have ht : resLen c + min (64 - resLen c) data.length = 64 := by omega
      simp [fedOpen, Nat.ne_of_gt h0, ht, h]

/-- What a run that writes both contexts leaves. -/
structure WrotePair (s : State) (p : Ctx × Ctx) (u : State) : Prop where
  a : u.c0 = p.1
  b : u.c1 = p.2
  frame : CtxWrite s u

theorem wrotePair_complete {s u : State} {p : Ctx × Ctx} (h : WrotePair s p u) (e : ErrCode) (k : CtxId) :
    complete e k u = complete e k (setCtx (setCtx s .c0 p.1) .c1 p.2) := by
  refine complete_congr e k h.frame (ctxWrite_trans (ctxWrite_setCtx s .c0 p.1) (ctxWrite_setCtx _ .c1 p.2)) fun n => ?_
  cases n
  · exact h.a
  · exact h.b

theorem wrotePair_addCount {s u : State} {fA fB : Fed} (lA lB : Nat) (h : AtPair s fA fB u) :
    WrotePair s (storeFed s.c0 lA fA, storeFed s.c1 lB fB) (addCount .c1 lB (addCount .c0 lA u)) := by
  refine ⟨?_, ?_, ctxWrite_trans h.frame (ctxWrite_trans (ctxWrite_setCtx _ _ _) (ctxWrite_setCtx _ _ _))⟩
  · simp only [addCount, getCtx_c0, getCtx_c1, setCtx_c1_c0, setCtx_c0_c0, h.a, storeFed]
  · simp only [addCount, getCtx_c0, getCtx_c1, setCtx_c1_c1, setCtx_c0_c1, h.b, storeFed]

/-- R201: the coordinator's run: the contexts it writes, and R45: it has consumed both streams. -/
theorem wrotePair_coordinate (core : CoreSel) (copyA copyB : Nat → Bool) {dA dB : List Byte} (s : State)
    (hA : dA.length < 2 ^ 64) (hB : dB.length < 2 ^ 64) :
    WrotePair s (fedPair core s.params.zeroDetect copyA copyB dA dB s.c0 s.c1) (coordinate core copyA copyB dA dB s) ∧
      posOf (coordinate core copyA copyB dA dB s) .a = dA.length ∧
      posOf (coordinate core copyA copyB dA dB s) .b = dB.length := by
  unfold coordinate fedPair
  simp only
  have h1 := at_topUp .c0 .a core s hA
  have h2 := at_topUp .c1 .b core (topUp .c0 .a core dA s) hB
  rw [at_params h1, h1.other .c1 (by decide)] at h2
  have h3 := atPair_streamB (atPair_streamA (atPair_start s) h1) h2
  generalize topUp .c1 .b core dB (topUp .c0 .a core dA s) = u at *
  have pA := fedTopUp_p_le core s.params.zeroDetect dA s.c0
  have pB := fedTopUp_p_le core s.params.zeroDetect dB s.c1
  rw [getCtx_c0] at h3
  rw [getCtx_c1] at h3
  rw [h3.posA, h3.posB, openBlocks_eq, openBlocks_eq]
  generalize hm : min (fedOpen dA (fedTopUp core s.params.zeroDetect dA s.c0))
    (fedOpen dB (fedTopUp core s.params.zeroDetect dB s.c1)) = m
  generalize fedTopUp core s.params.zeroDetect dA s.c0 = fA at *
  generalize fedTopUp core s.params.zeroDetect dB s.c1 = fB at *
  have mA : fA.p + 64 * m ≤ dA.length := by unfold fedOpen at hm; split at hm <;> omega
  have mB : fB.p + 64 * m ≤ dB.length := by unfold fedOpen at hm; (repeat' split at hm) <;> omega
  have h4 := atPair_dualRun m dA dB (by omega) (by omega) h3
  simp only at h4
  generalize dualRun m dA dB u = v at *
  have e5 := at_finishStream (n := .c0) (x := .a) core copyA hA
    (by rw [h4.posA]; exact mA) (at_self .c0 .a fA.r v)
  rw [params_ctxWrite h4.frame, getCtx_c0, h4.a, h4.posA] at e5
  have h5 := atPair_streamA h4 e5
  generalize finishStream .c0 .a core copyA dA v = w at *
  have e6 := at_finishStream (n := .c1) (x := .b) core copyB hB
    (by rw [h5.posB]; exact mB) (at_self .c1 .b fB.r w)
  rw [params_ctxWrite h5.frame, getCtx_c1, h5.b, h5.posB] at e6
  have h6 := atPair_streamB h5 e6
  refine ⟨wrotePair_addCount _ _ h6, ?_, ?_⟩
  · rw [addCount, addCount, posOf_setCtx, posOf_setCtx, h6.posA]
    exact fedFinish_p _ _ _ (by simpa using mA)
  · rw [addCount, addCount, posOf_setCtx, posOf_setCtx, h6.posB]
    exact fedFinish_p _ _ _ (by simpa using mB)

/-- R151: COMPRESS_DUAL's run. -/
theorem wrotePair_compressPair {dA dB : List Byte} (s : State) (hA : dA.length < 2 ^ 64) (hl : dA.length = dB.length) :
    WrotePair s (compressedPair dA dB s.c0 s.c1) (compressPair dA dB s) := by
  have h1 := atPair_streamB (atPair_streamA (atPair_start s) (at_start .c0 .a s)) (at_start .c1 .b (setPos .a 0 s))
  rw [getCtx_setPos] at h1
  have h2 := atPair_dualRun (dA.length / 64) dA dB (by simp only; omega) (by simp only; omega) h1
  exact wrotePair_addCount _ _ h2

end Sys2Proof.Laws
end

