-- ==== Sys2Proof/Laws/Commands.lean ====
section
/-! SUPPORT. What a command can do, said once. A command runs the checks of R225 and then comes to the contexts of
Laws/Pure.lean (`exec_guarded`). Whenever it answers a next state, that state is a completion (R107) of a state whose
contexts, sequencer and working registers the command wrote and nothing else (`exec_next`). -/

namespace Sys2Proof.Laws

open Sys2Proof.Machine

/-- A completion after writes of contexts leaves everything outside the contexts, the sequencer and STATUS alone. -/
theorem outside_complete {s u : State} (h : CtxWrite s u) (e : ErrCode) (c : CtxId) :
    OutsideUnchanged s (complete e c u) := by
  unfold CtxWrite at h
  rw [h]
  exact ⟨rfl, rfl, rfl, rfl, rfl, rfl, rfl, rfl⟩

theorem reported_complete {s u : State} (h : CtxWrite s u) (e : ErrCode) (c : CtxId) : Reported s (complete e c u) e c := by
  unfold CtxWrite at h
  rw [h]
  rfl

/-- The four ends of a dual command. -/
theorem pairOutcome_cases (r : Option Ctx × Option Ctx) (s : State) :
    ∃ code c u, pairOutcome r s = complete code c u ∧ CtxWrite s u ∧
      ((∃ a b, r = (some a, some b) ∧ code = .none ∧ c = .c0 ∧ u.c0 = a ∧ u.c1 = b) ∨
       (∃ a, r = (some a, none) ∧ code = .bus ∧ c = .c1 ∧ u.c0 = a ∧ u.c1 = faultCtx s.draws .c1) ∨
       (∃ b, r = (none, some b) ∧ code = .bus ∧ c = .c0 ∧ u.c0 = faultCtx s.draws .c0 ∧ u.c1 = b) ∨
       (r = (none, none) ∧ code = .bus ∧ c = .c0 ∧ u.c0 = faultCtx s.draws .c0 ∧ u.c1 = faultCtx s.draws .c1)) := by
  obtain ⟨a | a, b | b⟩ := r
  · exact ⟨_, _, _, rfl, ctxWrite_trans (ctxWrite_faultAt s .c0) (ctxWrite_faultAt _ .c1),
      .inr (.inr (.inr ⟨rfl, rfl, rfl, rfl, rfl⟩))⟩
  · exact ⟨_, _, _, rfl, ctxWrite_trans (ctxWrite_setCtx s .c1 b) (ctxWrite_faultAt _ .c0),
      .inr (.inr (.inl ⟨b, rfl, rfl, rfl, rfl, rfl⟩))⟩
  · exact ⟨_, _, _, rfl, ctxWrite_trans (ctxWrite_setCtx s .c0 a) (ctxWrite_faultAt _ .c1),
      .inr (.inl ⟨a, rfl, rfl, rfl, rfl, rfl⟩)⟩
  · exact ⟨_, _, _, rfl, ctxWrite_trans (ctxWrite_setCtx s .c0 a) (ctxWrite_setCtx _ .c1 b),
      .inl ⟨a, b, rfl, rfl, rfl, rfl, rfl⟩⟩

/-- What one context of a command's next state can be: untouched, or, for a context the command uses, begun (BEGIN), or,
from ACTIVE, made FINAL (END), written with its phase and its 64 residual bytes kept, or put in FAULT with the report
ERR_BUS. -/
def CtxOutcome (i : Instr) (s : State) (c : Ctx) (code : ErrCode) (n : CtxId) : Prop :=
  c = getCtx s n ∨
    (instrUses i n = true ∧
      ((∃ k, i = .beginCtx n k ∧ c = begunCtx (getCtx s n)) ∨
       ((getCtx s n).phase = .active ∧
        ((code = .bus ∧ c = faultCtx s.draws n) ∨
         (((getCtx s n).res.length = 64 → c.res.length = 64) ∧
          (c.phase = .active ∨ ∃ k, i = .endCtx n k ∧ c.phase = .final))))))

/-- The code a completion reports, and the context it names when it names none (R32, R221). -/
def CodeOutcome (i : Instr) (s : State) (code : ErrCode) (c : CtxId) : Prop :=
  (code ∈ [ErrCode.none, ErrCode.encoding, ErrCode.lenMismatch] → c = .c0) ∧
    (firstError (checksOf i s) = some (code, c) ∨
      (firstError (checksOf i s) = none ∧ (code = .none ∨ code = .bus)))

theorem mem_noneCodes_bus (h : ErrCode.bus ∈ [ErrCode.none, ErrCode.encoding, ErrCode.lenMismatch]) : False := by
  revert h; decide

/-! ## The precondition checks, as the rule's propositions (R225) -/

theorem phaseCheck_eq (s : State) (n : CtxId) :
    phaseCheck s n = (decide ((getCtx s n).phase = .active), .phase, n) := by
  rw [phaseCheck, Bool.beq_eq_decide_eq]

theorem residualCheck_eq (s : State) (n : CtxId) :
    residualCheck s n = (decide ((getCtx s n).count.toNat % 64 = 0), .residual, n) := by
  rw [residualCheck, resLen, Bool.beq_eq_decide_eq]

theorem lengthCheck_eq (s : State) (n : CtxId) :
    lengthCheck s n = (decide (lenOf s .a ≠ 0 ∧ lenOf s .a % 64 = 0), .length, n) := by
  simp [lengthCheck, bne, Bool.beq_eq_decide_eq]

theorem rangeCheck_eq (s : State) (x : Stream) (n : CtxId) :
    rangeCheck s x n = (decide (lenOf s x = 0 ∨ srcOf s x + lenOf s x ≤ 2 ^ 64), .range, n) := by
  simp [rangeCheck, Bool.beq_eq_decide_eq]

theorem lenMatchCheck_eq (s : State) : lenMatchCheck s = (decide (lenOf s .a = lenOf s .b), .lenMismatch, .c0) := by
  rw [lenMatchCheck, Bool.beq_eq_decide_eq]

/-- A command's body, what it does when every check of R225 has passed, by the contexts it leaves. -/
def bodyOf (i : Instr) (s : State) : Host.Outcome State Fault Refusal :=
  let zd := s.params.zeroDetect
  match i with
  | .beginCtx n _ => .next (complete .none .c0 (setCtx s n (begunCtx (getCtx s n))))
  | .process n core =>
    unlessStopped (sourceStop s (srcOf s .a) (lenOf s .a)) (singleOutcome n s ((readSource s .a).map
      (fun data => feed core zd (copyPath (srcOf s .a)) data (getCtx s n))))
  | .endCtx n core => .next (complete .none .c0 (setCtx s n (finalCtx core zd (getCtx s n))))
  | .compress n core =>
    unlessStopped (sourceStop s (srcOf s .a) (lenOf s .a)) (singleOutcome n s ((readSource s .a).map
      (fun data => compressedCtx core zd data (getCtx s n))))
  | .zcompress n core =>
    .next (complete .none .c0 (setCtx s n (advanceCtx (getCtx s n)
      (chainZero core (lenOf s .a / 64) (getCtx s n).dig) (lenOf s .a))))
  | .processDual core => unlessStopped (dualStop s) (pairOutcome (processCtxs core s) s)
  | .compressDual _ => unlessStopped (dualStop s) (pairOutcome (compressCtxs s) s)

/-! ## The runs on the state come to these contexts -/

theorem lenOf_lt (s : State) (x : Stream) : lenOf s x < 2 ^ 64 := by
  cases x
  · exact s.seq.args.lenA.isLt
  · exact s.seq.args.lenB.isLt

/-- R61: a reading of a source region has its length. -/
theorem readSource_length {s : State} {x : Stream} {data : List Byte} (h : readSource s x = some data) :
    data.length = lenOf s x := (readFrom_held h).1

theorem readSource_lt {s : State} {x : Stream} {data : List Byte} (h : readSource s x = some data) :
    data.length < 2 ^ 64 := readSource_length h ▸ lenOf_lt s x

theorem finishSingle_eq {n : CtxId} {s : State} {data : Option (List Byte)} {run : List Byte → State → State}
    {ctx : List Byte → Ctx} (h : ∀ d, data = some d → Wrote n s (ctx d) (run d s)) :
    finishSingle n s data run = singleOutcome n s (data.map ctx) := by
  cases data with
  | none => rfl
  | some d => exact wrote_complete (h d rfl) _ _

/-- A bus error of one stream after the other's run: that context in FAULT, the other as the run wrote it. -/
theorem wrote_fault {n m : CtxId} {s u : State} {c : Ctx} (h : Wrote n s c u) (hm : m ≠ n) (e : ErrCode) (k : CtxId) :
    complete e k (faultAt m u) = complete e k (faultAt m (setCtx s n c)) := by
  have hf : CtxWrite s (setCtx s n c) := ctxWrite_setCtx s n c
  refine complete_congr e k (ctxWrite_trans h.frame (ctxWrite_faultAt u m))
    (ctxWrite_trans hf (ctxWrite_faultAt _ m)) fun j => ?_
  by_cases hj : j = m
  · subst hj
    rw [getCtx_faultAt_same, getCtx_faultAt_same, draws_ctxWrite h.frame, draws_ctxWrite hf]
  · have hn : j = n := by cases j <;> cases m <;> cases n <;> simp_all
    subst hn
    rw [getCtx_faultAt_ne _ hj, getCtx_faultAt_ne _ hj, h.ctx, getCtx_setCtx_same]

theorem finishDual_process (core : CoreSel) (s : State) :
    finishDual s (readSource s .a) (readSource s .b) (coordinate core (copyPath (srcOf s .a)) (copyPath (srcOf s .b)))
      (fun n x => feedStream n x core (copyPath (srcOf s x))) = pairOutcome (processCtxs core s) s := by
  unfold processCtxs
  cases ha : readSource s .a with
  | none =>
    cases hb : readSource s .b with
    | none => rfl
    | some dB => exact wrote_fault (wrote_feedStream .c1 .b core _ s (readSource_lt hb)) (by decide) _ _
  | some dA =>
    cases hb : readSource s .b with
    | none => exact wrote_fault (wrote_feedStream .c0 .a core _ s (readSource_lt ha)) (by decide) _ _
    | some dB =>
      exact wrotePair_complete (wrotePair_coordinate core _ _ s (readSource_lt ha) (readSource_lt hb)).1 _ _

theorem finishDual_compress (s : State) (hl : lenOf s .a = lenOf s .b) :
    finishDual s (readSource s .a) (readSource s .b) compressPair (fun n x => compressRun n x .scalar) =
      pairOutcome (compressCtxs s) s := by
  unfold compressCtxs
  cases ha : readSource s .a with
  | none =>
    cases hb : readSource s .b with
    | none => rfl
    | some dB => exact wrote_fault (wrote_compressRun .c1 .b .scalar s (readSource_lt hb)) (by decide) _ _
  | some dA =>
    cases hb : readSource s .b with
    | none => exact wrote_fault (wrote_compressRun .c0 .a .scalar s (readSource_lt ha)) (by decide) _ _
    | some dB =>
      refine wrotePair_complete (wrotePair_compressPair s (readSource_lt ha) ?_) _ _
      rw [readSource_length ha, readSource_length hb, hl]

theorem unlessStopped_next {stop : Option Refusal} {body t : State} (h : unlessStopped stop body = .next t) :
    stop = none ∧ t = body := by
  cases stop <;> cases h
  exact ⟨rfl, rfl⟩

theorem unlessStopped_none {body : State} : unlessStopped none body = .next body := rfl

/-- A check that failed stands in the list. -/
theorem firstError_mem {l : List Check} {e : ErrCode × CtxId} (h : firstError l = some e) : (false, e) ∈ l := by
  induction l with
  | nil => cases h
  | cons c l ih =>
    obtain ⟨ok, d⟩ := c
    cases ok with
    | true => exact List.mem_cons_of_mem _ (ih h)
    | false => cases h; exact List.mem_cons_self

theorem firstError_eq_none {l : List Check} : firstError l = none ↔ ∀ c ∈ l, c.1 = true := by
  induction l with
  | nil => simp [firstError]
  | cons c l ih =>
    obtain ⟨ok, d⟩ := c
    cases ok <;> simp [firstError, ih]

/-- R225: every command runs the rule's checks in the rule's order, and then its body. -/
theorem exec_guarded (i : Instr) (s : State) : exec i s = guarded (checksOf i s) s (bodyOf i s) := by
  cases i with
  | beginCtx n core => rfl
  | process n core =>
    simp only [exec, execProcess, phaseCheck_eq, rangeCheck_eq, bodyOf,
      finishSingle_eq fun d h => wrote_feedStream n .a core (copyPath (srcOf s .a)) s (readSource_lt h)]
    rfl
  | endCtx n core =>
    simp only [exec, execEnd, phaseCheck_eq, bodyOf, wrote_complete (wrote_feedPad n core s)]
    rfl
  | compress n core =>
    simp only [exec, execCompress, phaseCheck_eq, residualCheck_eq, lengthCheck_eq, rangeCheck_eq, bodyOf,
      finishSingle_eq fun d h => wrote_compressRun n .a core s (readSource_lt h)]
    rfl
  | zcompress n core =>
    simp only [exec, execZcompress, phaseCheck_eq, residualCheck_eq, lengthCheck_eq, bodyOf,
      wrote_complete (wrote_zeroRun n core s (lenOf_lt s .a))]
    rfl
  | processDual core =>
    simp only [exec, execProcessDual, phaseCheck_eq, rangeCheck_eq, lenMatchCheck_eq, bodyOf, finishDual_process]
    rfl
  | compressDual core =>
    simp only [exec, execCompressDual, phaseCheck_eq, residualCheck_eq, lengthCheck_eq, rangeCheck_eq, lenMatchCheck_eq,
      bodyOf]
    unfold guarded
    split
    · rename_i e he
      simp only [checksOf, he]
    · rename_i hn
      have hl : lenOf s .a = lenOf s .b :=
        of_decide_eq_true (firstError_eq_none.mp hn _ (List.mem_cons_of_mem _ (List.mem_cons_of_mem _ List.mem_cons_self)))
      rw [finishDual_compress s hl]
      simp only [checksOf, hn]

/-- The streams of a dual command are both clear, or the command is refused for the first that is not. -/
theorem dualStop_eq_none {s : State} : dualStop s = none ↔ SourceClear s .a ∧ SourceClear s .b := by
  unfold dualStop SourceClear
  split <;> simp_all

/-! ## The contexts a command writes -/

/-- A stream of the coordinator after its common run keeps 64 residual bytes. -/
theorem fedPair_stream_res (core : CoreSel) (zd : Bool) (copy : Nat → Bool) (d : List Byte) (c : Ctx) (m : Nat)
    (st : Digest) (hc : c.res.length = 64) (hm : m ≤ fedOpen d (fedTopUp core zd d c)) :
    (fedFinish core zd copy d
      { fedTopUp core zd d c with dig := st, p := (fedTopUp core zd d c).p + 64 * m }).res.length = 64 := by
  have hp := (fedTopUp_spec core zd d c hc).2.1
  have hb : (fedTopUp core zd d c).p + 64 * m ≤ d.length := by
    unfold fedOpen at hm
    split at hm <;> omega
  exact (fedFinish_spec core zd copy d
    { fedTopUp core zd d c with dig := st, p := (fedTopUp core zd d c).p + 64 * m } hb (fedTopUp_spec core zd d c hc).1).2.1

theorem fedPair_res (core : CoreSel) (zd : Bool) (copyA copyB : Nat → Bool) (dA dB : List Byte) (cA cB : Ctx) :
    (cA.res.length = 64 → (fedPair core zd copyA copyB dA dB cA cB).1.res.length = 64) ∧
      (cB.res.length = 64 → (fedPair core zd copyA copyB dA dB cA cB).2.res.length = 64) :=
  ⟨fun h => fedPair_stream_res core zd copyA dA cA _ _ h (Nat.min_le_left _ _),
   fun h => fedPair_stream_res core zd copyB dB cB _ _ h (Nat.min_le_right _ _)⟩

/-- What PROCESS_DUAL or COMPRESS_DUAL leaves of the contexts no bus error hit: the phase, and 64 residual bytes. -/
structure PairKept (s : State) (r : Option Ctx × Option Ctx) : Prop where
  a : ∀ c, r.1 = some c → c.phase = s.c0.phase ∧ (s.c0.res.length = 64 → c.res.length = 64)
  b : ∀ c, r.2 = some c → c.phase = s.c1.phase ∧ (s.c1.res.length = 64 → c.res.length = 64)

theorem pairKept_mk {s : State} {x y : Option Ctx}
    (ha : ∀ c, x = some c → c.phase = s.c0.phase ∧ (s.c0.res.length = 64 → c.res.length = 64))
    (hb : ∀ c, y = some c → c.phase = s.c1.phase ∧ (s.c1.res.length = 64 → c.res.length = 64)) : PairKept s (x, y) :=
  ⟨ha, hb⟩

theorem processCtxs_kept (core : CoreSel) (s : State) : PairKept s (processCtxs core s) := by
  unfold processCtxs
  split <;> refine pairKept_mk (fun c h => ?_) (fun c h => ?_) <;> cases h
  · exact ⟨rfl, (fedPair_res ..).1⟩
  · exact ⟨rfl, (fedPair_res ..).2⟩
  · exact ⟨rfl, fun h => (feed_spec _ _ _ _ _ h).2.2.1⟩
  · exact ⟨rfl, fun h => (feed_spec _ _ _ _ _ h).2.2.1⟩

theorem compressCtxs_kept (s : State) : PairKept s (compressCtxs s) := by
  unfold compressCtxs
  split <;> refine pairKept_mk (fun c h => ?_) (fun c h => ?_) <;> cases h <;> exact ⟨rfl, id⟩

/-! ## The inversion lemma -/

/-- What a command's next state is. -/
def NextShape (i : Instr) (s t : State) : Prop :=
  ∃ code c u, t = complete code c u ∧ CtxWrite s u ∧ CodeOutcome i s code c ∧
    ∀ n, CtxOutcome i s (getCtx u n) code n

/-- The codes of the checks: none of them is success, an encoding error or a bus error, and a length mismatch names CTX0. -/
theorem checksOf_codes {i : Instr} {s : State} {c : Check} (h : c ∈ checksOf i s) :
    c.2.1 ∈ [ErrCode.phase, ErrCode.length, ErrCode.residual, ErrCode.range] ∨ c.2 = (.lenMismatch, .c0) := by
  revert c
  cases i <;> simp [checksOf]

/-- A failing check: only the report. -/
theorem nextShape_reject {i : Instr} {s : State} {e : ErrCode × CtxId} (h : firstError (checksOf i s) = some e) :
    NextShape i s (complete e.1 e.2 s) := by
  refine ⟨e.1, e.2, s, rfl, ctxWrite_refl s, ⟨fun hm => ?_, .inl h⟩, fun _ => .inl rfl⟩
  rcases checksOf_codes (firstError_mem h) with hc | hc
  · obtain ⟨code, c⟩ := e
    revert hm hc
    cases code <;> simp
  · simp only at hc
    rw [hc]

/-- A single-stream command that wrote its context. -/
theorem nextShape_write {i : Instr} {s : State} {n : CtxId} {x : Ctx} (h : firstError (checksOf i s) = none)
    (hx : CtxOutcome i s x .none n) : NextShape i s (complete .none .c0 (setCtx s n x)) := by
  refine ⟨.none, .c0, _, rfl, ctxWrite_setCtx s n x, ⟨fun _ => rfl, .inr ⟨h, .inl rfl⟩⟩, fun m => ?_⟩
  by_cases hm : m = n
  · subst hm
    rwa [getCtx_setCtx_same]
  · exact .inl (getCtx_setCtx_ne s x hm)

/-- A single-stream command that read its source region: it wrote its context or a bus error hit. -/
theorem nextShape_single {i : Instr} {s : State} {n : CtxId} {data : Option (List Byte)} {write : List Byte → Ctx}
    (h : firstError (checksOf i s) = none) (hu : instrUses i n = true) (hp : (getCtx s n).phase = .active)
    (hx : ∀ d, CtxOutcome i s (write d) .none n) : NextShape i s (singleOutcome n s (data.map write)) := by
  cases data with
  | some d => exact nextShape_write h (hx d)
  | none =>
    refine ⟨.bus, n, _, rfl, ctxWrite_faultAt s n,
      ⟨fun hm => (mem_noneCodes_bus hm).elim, .inr ⟨h, .inr rfl⟩⟩, fun m => ?_⟩
    by_cases hm : m = n
    · subst hm
      exact .inr ⟨hu, .inr ⟨hp, .inl ⟨rfl, getCtx_faultAt_same m s⟩⟩⟩
    · exact .inl (getCtx_faultAt_ne s hm)

/-- A dual command that passed its checks. -/
theorem nextShape_dual {i : Instr} {s : State} {r : Option Ctx × Option Ctx} (h : firstError (checksOf i s) = none)
    (hu : ∀ n, instrUses i n = true) (hp : ∀ n, (getCtx s n).phase = .active) (hr : PairKept s r) :
    NextShape i s (pairOutcome r s) := by
  obtain ⟨code, c, u, e, hw, hcases⟩ := pairOutcome_cases r s
  have kept : ∀ (x : Ctx) (n : CtxId) (code : ErrCode),
      (x.phase = (getCtx s n).phase ∧ ((getCtx s n).res.length = 64 → x.res.length = 64)) → CtxOutcome i s x code n :=
    fun x n _ hx => .inr ⟨hu n, .inr ⟨hp n, .inr ⟨hx.2, .inl (hx.1.trans (hp n))⟩⟩⟩
  have flt : ∀ n, CtxOutcome i s (faultCtx s.draws n) .bus n :=
    fun n => .inr ⟨hu n, .inr ⟨hp n, .inl ⟨rfl, rfl⟩⟩⟩
  refine ⟨code, c, u, e, hw, ⟨?_, .inr ⟨h, ?_⟩⟩, ?_⟩
  · rcases hcases with ⟨a, b, -, -, hc, -⟩ | ⟨a, -, hcode, -⟩ | ⟨b, -, hcode, -⟩ | ⟨-, hcode, -⟩
    · exact fun _ => hc
    all_goals exact fun hm => (mem_noneCodes_bus (hcode ▸ hm)).elim
  · rcases hcases with ⟨a, b, -, hcode, -⟩ | ⟨a, -, hcode, -⟩ | ⟨b, -, hcode, -⟩ | ⟨-, hcode, -⟩
    · exact .inl hcode
    all_goals exact .inr hcode
  · rcases hcases with ⟨a, b, rfl, rfl, -, h0, h1⟩ | ⟨a, rfl, rfl, -, h0, h1⟩ | ⟨b, rfl, rfl, -, h0, h1⟩ |
      ⟨rfl, rfl, -, h0, h1⟩ <;> rintro (_ | _) <;> simp only [getCtx_c0, getCtx_c1, h0, h1]
    · exact kept _ .c0 _ (hr.a a rfl)
    · exact kept _ .c1 _ (hr.b b rfl)
    · exact kept _ .c0 _ (hr.a a rfl)
    · exact flt .c1
    · exact flt .c0
    · exact kept _ .c1 _ (hr.b b rfl)
    · exact flt .c0
    · exact flt .c1

/-- Everything a command's body can answer after its checks. -/
theorem bodyOf_next {i : Instr} {s t : State} (hc : firstError (checksOf i s) = none) (h : bodyOf i s = .next t) :
    NextShape i s t := by
  have hact := firstError_eq_none.mp hc
  cases i with
  | beginCtx n core =>
    cases h
    exact nextShape_write hc (.inr ⟨by simp [instrUses], .inl ⟨core, rfl, rfl⟩⟩)
  | process n core =>
    have hp : (getCtx s n).phase = .active := by simpa [checksOf] using (hact _ List.mem_cons_self)
    obtain ⟨-, rfl⟩ := unlessStopped_next h
    exact nextShape_single hc (by simp [instrUses]) hp fun d =>
      .inr ⟨by simp [instrUses], .inr ⟨hp, .inr ⟨fun hl => (feed_spec _ _ _ _ _ hl).2.2.1, .inl hp⟩⟩⟩
  | endCtx n core =>
    have hp : (getCtx s n).phase = .active := by simpa [checksOf] using (hact _ List.mem_cons_self)
    cases h
    exact nextShape_write hc (.inr ⟨by simp [instrUses], .inr ⟨hp, .inr
      ⟨fun hl => (feed_spec _ _ _ _ _ hl).2.2.1, .inr ⟨core, rfl, rfl⟩⟩⟩⟩)
  | compress n core =>
    have hp : (getCtx s n).phase = .active := by simpa [checksOf] using (hact _ List.mem_cons_self)
    obtain ⟨-, rfl⟩ := unlessStopped_next h
    exact nextShape_single hc (by simp [instrUses]) hp fun d => .inr ⟨by simp [instrUses], .inr ⟨hp, .inr ⟨id, .inl hp⟩⟩⟩
  | zcompress n core =>
    have hp : (getCtx s n).phase = .active := by simpa [checksOf] using (hact _ List.mem_cons_self)
    cases h
    exact nextShape_write hc (.inr ⟨by simp [instrUses], .inr ⟨hp, .inr ⟨id, .inl hp⟩⟩⟩)
  | processDual core =>
    obtain ⟨-, rfl⟩ := unlessStopped_next h
    refine nextShape_dual hc (fun _ => rfl) ?_ (processCtxs_kept core s)
    rintro (_ | _) <;> simp [checksOf] at hact
    exacts [of_decide_eq_true hact.1, of_decide_eq_true hact.2.1]
  | compressDual core =>
    obtain ⟨-, rfl⟩ := unlessStopped_next h
    refine nextShape_dual hc (fun _ => rfl) ?_ (compressCtxs_kept s)
    rintro (_ | _) <;> simp [checksOf] at hact
    exacts [of_decide_eq_true hact.1, of_decide_eq_true hact.2.1]

/-- Everything a command's next state can be. -/
theorem exec_next {i : Instr} {s t : State} (h : exec i s = .next t) : NextShape i s t := by
  rw [exec_guarded, guarded] at h
  split at h
  · cases h
    exact nextShape_reject ‹_›
  · exact bodyOf_next ‹_› h

end Sys2Proof.Laws
end

