-- ==== Sys2Proof/Laws/HostPort.lean ====
section
/-! SUPPORT. The host's side, said once: the register at every offset of the window (10_state.md R40), what a host event
makes of a step, the halves of a 64-bit register (R30), and that a register write touches no context. -/

namespace Sys2Proof.Laws

open Sys2Proof.Machine

/-! ## The register map (R40) -/

@[simp] theorem regAt_cmd : regAt 0x000 = .cmd := rfl
@[simp] theorem regAt_status : regAt 0x004 = .status := rfl
@[simp] theorem regAt_ctrl : regAt 0x008 = .ctrl := rfl
@[simp] theorem regAt_reserved0C : regAt 0x00C = .reserved := rfl
@[simp] theorem regAt_srcA_lo : regAt 0x010 = .arg .srcA .lo := rfl
@[simp] theorem regAt_srcA_hi : regAt 0x014 = .arg .srcA .hi := rfl
@[simp] theorem regAt_srcB_lo : regAt 0x018 = .arg .srcB .lo := rfl
@[simp] theorem regAt_srcB_hi : regAt 0x01C = .arg .srcB .hi := rfl
@[simp] theorem regAt_lenA_lo : regAt 0x020 = .arg .lenA .lo := rfl
@[simp] theorem regAt_lenA_hi : regAt 0x024 = .arg .lenA .hi := rfl
@[simp] theorem regAt_lenB_lo : regAt 0x028 = .arg .lenB .lo := rfl
@[simp] theorem regAt_lenB_hi : regAt 0x02C = .arg .lenB .hi := rfl
@[simp] theorem regAt_reserved30 : regAt 0x030 = .reserved := rfl
@[simp] theorem regAt_reserved34 : regAt 0x034 = .reserved := rfl
@[simp] theorem regAt_reserved38 : regAt 0x038 = .reserved := rfl
@[simp] theorem regAt_reserved3C : regAt 0x03C = .reserved := rfl
@[simp] theorem regAt_digA0 : regAt 0x040 = .digA .c0 := rfl
@[simp] theorem regAt_digB0 : regAt 0x044 = .digB .c0 := rfl
@[simp] theorem regAt_digC0 : regAt 0x048 = .digC .c0 := rfl
@[simp] theorem regAt_digD0 : regAt 0x04C = .digD .c0 := rfl
@[simp] theorem regAt_cntLo0 : regAt 0x050 = .cnt .c0 .lo := rfl
@[simp] theorem regAt_cntHi0 : regAt 0x054 = .cnt .c0 .hi := rfl
@[simp] theorem regAt_ctxstat0 : regAt 0x058 = .ctxstat .c0 := rfl
@[simp] theorem regAt_reserved5C : regAt 0x05C = .reserved := rfl
@[simp] theorem regAt_digA1 : regAt 0x060 = .digA .c1 := rfl
@[simp] theorem regAt_digB1 : regAt 0x064 = .digB .c1 := rfl
@[simp] theorem regAt_digC1 : regAt 0x068 = .digC .c1 := rfl
@[simp] theorem regAt_digD1 : regAt 0x06C = .digD .c1 := rfl
@[simp] theorem regAt_cntLo1 : regAt 0x070 = .cnt .c1 .lo := rfl
@[simp] theorem regAt_cntHi1 : regAt 0x074 = .cnt .c1 .hi := rfl
@[simp] theorem regAt_ctxstat1 : regAt 0x078 = .ctxstat .c1 := rfl
@[simp] theorem regAt_reserved7C : regAt 0x07C = .reserved := rfl

/-! ## One step per kind of host event -/

theorem accessOk_iff {off width : Nat} : accessOk off width = true ↔ width = 4 ∧ off % 4 = 0 ∧ off < 0x080 := by
  simp only [accessOk, Bool.and_eq_true, beq_iff_eq, decide_eq_true_eq, and_assoc]

theorem step_host {s : State} {e : HostEvent} {rest : List Input} (h : s.inputs = .host e :: rest) :
    step s = hostEvent e { s with inputs := rest } := by
  rw [step, h]

theorem step_regWrite {s : State} {off : Nat} {v : Word} {rest : List Input}
    (h : s.inputs = .host (.regWrite off 4 v) :: rest) (ho : accessOk off 4 = true) :
    step s = .next (writeReg (regAt off) v { s with inputs := rest }) := by
  rw [step_host h, hostEvent, ho, if_pos rfl]

theorem step_regRead {s : State} {off : Nat} {rest : List Input} (h : s.inputs = .host (.regRead off 4) :: rest)
    (ho : accessOk off 4 = true) : step s = .next (hostRead (regAt off) { s with inputs := rest }) := by
  rw [step_host h, hostEvent, ho, if_pos rfl]

/-- R41: any other access is refused, whichever way it goes. -/
theorem hostEvent_odd {s : State} {off width : Nat} (h : accessOk off width = false) :
    (∀ v, hostEvent (.regWrite off width v) s = .refused .registerAccess) ∧
      hostEvent (.regRead off width) s = .refused .registerAccess := by
  constructor <;> simp [hostEvent, h]

/-- Everything a host event that neither writes a register nor resets the engine can do. -/
theorem hostEvent_frame {s t : State} {e : HostEvent} (h : hostEvent e s = .next t) (hr : e ≠ .reset)
    (hw : ∀ off width v, e ≠ .regWrite off width v) :
    t.c0 = s.c0 ∧ t.c1 = s.c1 ∧ t.args = s.args ∧ t.status = s.status ∧ t.ctrlIE = s.ctrlIE ∧
      t.seq = s.seq ∧ t.work = s.work ∧ t.inputs = s.inputs := by
  cases e with
  | regWrite off width v => exact absurd rfl (hw off width v)
  | regRead off width =>
    simp only [hostEvent] at h
    split at h <;> cases h
    exact ⟨rfl, rfl, rfl, rfl, rfl, rfl, rfl, rfl⟩
  | memStore a b =>
    simp only [hostEvent] at h
    split at h
    · cases h
    · split at h <;> cases h
      exact ⟨rfl, rfl, rfl, rfl, rfl, rfl, rfl, rfl⟩
  | publish => cases h; exact ⟨rfl, rfl, rfl, rfl, rfl, rfl, rfl, rfl⟩
  | busMap rs => cases h; exact ⟨rfl, rfl, rfl, rfl, rfl, rfl, rfl, rfl⟩
  | reset => exact absurd rfl hr

/-! ## What a register write touches -/

theorem writeReg_frame (r : Reg) (v : Word) (s : State) :
    (writeReg r v s).c0 = s.c0 ∧ (writeReg r v s).c1 = s.c1 ∧ (writeReg r v s).mem = s.mem ∧
      (writeReg r v s).params = s.params ∧ (writeReg r v s).stale = s.stale ∧ (writeReg r v s).inputs = s.inputs ∧
      (writeReg r v s).work = s.work ∧ (writeReg r v s).rdata = s.rdata ∧ (writeReg r v s).draws = s.draws := by
  cases r <;> first
    | exact ⟨rfl, rfl, rfl, rfl, rfl, rfl, rfl, rfl, rfl⟩
    | (simp only [writeReg, writeCmd]; split <;> exact ⟨rfl, rfl, rfl, rfl, rfl, rfl, rfl, rfl, rfl⟩)

theorem getCtx_writeReg (r : Reg) (v : Word) (s : State) (n : CtxId) : getCtx (writeReg r v s) n = getCtx s n := by
  cases n
  · exact (writeReg_frame r v s).1
  · exact (writeReg_frame r v s).2.1

/-- R21, R37: no register write but CMD's touches the sequencer or BUSY. -/
theorem writeReg_control {r : Reg} (h : r ≠ .cmd) (v : Word) (s : State) :
    (writeReg r v s).seq = s.seq ∧ (writeReg r v s).raced = s.raced ∧
      (writeReg r v s).status.busy = s.status.busy := by
  cases r <;> first | exact absurd rfl h | exact ⟨rfl, rfl, rfl⟩

/-! ## The halves of a 64-bit register (R30) -/

/-- A half of the two words `hi ‖ lo`. -/
theorem halfOf_append (hi lo : Word) : halfOf (hi ++ lo) .lo = lo ∧ halfOf (hi ++ lo) .hi = hi := by
  constructor <;> apply BitVec.eq_of_toNat_eq <;>
    simp only [halfOf, BitVec.extractLsb'_toNat, BitVec.toNat_append, Nat.shiftRight_zero] <;>
    rw [← Nat.shiftLeft_add_eq_or_of_lt lo.isLt, Nat.shiftLeft_eq]
  · have := lo.isLt
    omega
  · have := lo.isLt
    have := hi.isLt
    rw [Nat.shiftRight_eq_div_pow]
    omega

@[simp] theorem halfOf_setHalf (v : DWord) (h : Half) (w : Word) : halfOf (setHalf v h w) h = w := by
  cases h
  · exact (halfOf_append _ _).1
  · exact (halfOf_append _ _).2

theorem halfOf_setHalf_ne (v : DWord) {h h' : Half} (w : Word) (hne : h' ≠ h) :
    halfOf (setHalf v h w) h' = halfOf v h' := by
  cases h <;> cases h' <;> first
    | exact absurd rfl hne
    | exact (halfOf_append _ _).1
    | exact (halfOf_append _ _).2

@[simp] theorem getArg_setArg (r : Args) (x : ArgName) (v : DWord) : getArg (setArg r x v) x = v := by cases x <;> rfl

theorem getArg_setArg_ne (r : Args) {x y : ArgName} (v : DWord) (h : y ≠ x) :
    getArg (setArg r x v) y = getArg r y := by
  cases x <;> cases y <;> first | rfl | exact absurd rfl h

/-- R30: reading any half of any argument register after a write of half `h` of register `x`. -/
theorem halfOf_getArg_setArg (r : Args) (x y : ArgName) (h h' : Half) (w : Word) :
    halfOf (getArg (setArg r x (setHalf (getArg r x) h w)) y) h' =
      if y = x ∧ h' = h then w else halfOf (getArg r y) h' := by
  by_cases hy : y = x
  · subst hy
    by_cases hh : h' = h
    · subst hh
      simp
    · rw [getArg_setArg, halfOf_setHalf_ne _ _ hh, if_neg (fun h => hh h.2)]
  · rw [getArg_setArg_ne _ _ hy, if_neg (fun h => hy h.1)]

end Sys2Proof.Laws
end

