-- ==== Sys2Proof/Laws/Memory.lean ====
section
/-! SUPPORT. Host memory: read after write, the canonical form kept by every operation, and that two canonical
memories that read alike are the same list. -/

namespace Sys2Proof.Laws

open Sys2Proof.Machine

@[simp] theorem memGet_memSet_same (m : Memory) (a : Nat) (b : Byte) : memGet (memSet m a b) a = some b := by
  induction m with
  | nil => simp [memSet, memGet]
  | cons c m ih =>
    obtain ⟨x, v⟩ := c
    unfold memSet
    split
    · simp [memGet]
    · split
      · simp [memGet]
      · rename_i h
        simp [memGet, Ne.symm h, ih]

theorem memGet_memSet_ne (m : Memory) {a a' : Nat} (b : Byte) (h : a' ≠ a) :
    memGet (memSet m a b) a' = memGet m a' := by
  induction m with
  | nil => simp [memSet, memGet, Ne.symm h]
  | cons c m ih =>
    obtain ⟨x, v⟩ := c
    unfold memSet
    split
    · simp [memGet, Ne.symm h]
    · split
      · rename_i _ hx
        subst hx
        simp [memGet, Ne.symm h]
      · simp [memGet, ih]

theorem hostByte_memSet_same (m : Memory) (a : Nat) (b : Byte) : hostByte (memSet m a b) a = b := by
  simp [hostByte]

theorem hostByte_memSet_ne (m : Memory) {a a' : Nat} (b : Byte) (h : a' ≠ a) :
    hostByte (memSet m a b) a' = hostByte m a' := by
  simp [hostByte, memGet_memSet_ne m b h]

/-- The addresses of a memory after a store are the old ones and the one stored to. -/
theorem mem_memSet_addr {m : Memory} {a : Nat} {b : Byte} {c : Host.Cell} (h : c ∈ memSet m a b) :
    c.1 = a ∨ c ∈ m := by
  induction m with
  | nil => simp only [memSet, List.mem_singleton] at h; exact .inl (by rw [h])
  | cons d m ih =>
    obtain ⟨x, v⟩ := d
    unfold memSet at h
    split at h
    · rcases List.mem_cons.mp h with rfl | h
      · exact .inl rfl
      · exact .inr h
    · split at h
      · rcases List.mem_cons.mp h with rfl | h
        · exact .inl rfl
        · exact .inr (List.mem_cons_of_mem _ h)
      · rcases List.mem_cons.mp h with rfl | h
        · exact .inr List.mem_cons_self
        · exact (ih h).imp id (List.mem_cons_of_mem _)

theorem memSet_wf {m : Memory} {a : Nat} (b : Byte) (ha : a < 2 ^ 64) (h : Memory.wf m) : Memory.wf (memSet m a b) := by
  refine ⟨?_, fun c hc => (mem_memSet_addr hc).elim (fun e => e ▸ ha) (h.2 c)⟩
  obtain ⟨hp, -⟩ := h
  induction m with
  | nil => exact List.pairwise_singleton _ _
  | cons d m ih =>
    obtain ⟨x, v⟩ := d
    rw [List.pairwise_cons] at hp
    unfold memSet
    split
    · rename_i hlt
      refine List.pairwise_cons.mpr ⟨fun c hc => ?_, List.pairwise_cons.mpr hp⟩
      rcases List.mem_cons.mp hc with rfl | hc
      · exact hlt
      · exact hlt.trans (hp.1 c hc)
    · split
      · rename_i _ hx
        subst hx
        exact List.pairwise_cons.mpr hp
      · rename_i hlt hne
        refine List.pairwise_cons.mpr ⟨fun c hc => ?_, ih hp.2⟩
        rcases mem_memSet_addr hc with e | hc
        · simp only [e]; omega
        · exact hp.1 c hc

theorem memGet_eq_none {m : Memory} {a : Nat} (h : ∀ c ∈ m, a < c.1) : memGet m a = none := by
  induction m with
  | nil => rfl
  | cons d m ih =>
    have hd := h d List.mem_cons_self
    simp only [memGet, if_neg (Nat.ne_of_gt hd)]
    exact ih fun c hc => h c (List.mem_cons_of_mem _ hc)

/-- Memory at reset has the canonical form. -/
theorem reset_mem_wf : Memory.wf State.reset.mem := ⟨List.Pairwise.nil, fun _ h => by cases h⟩

/-- Equal memories are equal data: two canonical memories that list the same bytes are the same list. -/
theorem memory_ext {m m' : Memory} (h : Memory.wf m) (h' : Memory.wf m') (e : ∀ a, memGet m a = memGet m' a) :
    m = m' := by
  obtain ⟨h, -⟩ := h
  obtain ⟨h', -⟩ := h'
  induction m generalizing m' with
  | nil =>
    cases m' with
    | nil => rfl
    | cons d m' => have := e d.1; simp [memGet] at this
  | cons d m ih =>
    cases m' with
    | nil => have := e d.1; simp [memGet] at this
    | cons d' m' =>
      obtain ⟨x, v⟩ := d
      obtain ⟨x', v'⟩ := d'
      rw [List.pairwise_cons] at h h'
      have hx : x = x' := by
        rcases Nat.lt_trichotomy x x' with l | l | l
        · have hn : memGet ((x', v') :: m') x = none := memGet_eq_none fun c hc => by
            rcases List.mem_cons.mp hc with rfl | hc
            · exact l
            · exact l.trans (h'.1 c hc)
          have := e x
          rw [hn] at this
          simp [memGet] at this
        · exact l
        · have hn : memGet ((x, v) :: m) x' = none := memGet_eq_none fun c hc => by
            rcases List.mem_cons.mp hc with rfl | hc
            · exact l
            · exact l.trans (h.1 c hc)
          have := e x'
          rw [hn] at this
          simp [memGet] at this
      subst hx
      have hv : v = v' := by simpa [memGet] using e x
      subst hv
      refine congrArg _ (ih (fun a => ?_) h.2 h'.2)
      by_cases ha : x = a
      · subst ha
        rw [memGet_eq_none fun c hc => h.1 c hc, memGet_eq_none fun c hc => h'.1 c hc]
      · simpa [memGet, ha] using e a

end Sys2Proof.Laws
end

