-- ==== Sys2Proof/Laws/PerInstr.lean ====
section
/-! SUPPORT. What holds of every instruction as syntax, one lemma per constructor: the fields it is written with pass the
three checks of WellFormed.lean (30_encoding.md R92, R94, R96, R97), so no instruction of the type is an illegal word. -/

namespace Sys2Proof.Laws.WellFormedFields

/-- The fields of `i` are legal. -/
def Statement (i : Instr) : Prop := i.wellFormed = true

theorem beginCtx (n : CtxId) (core : CoreSel) : Statement (.beginCtx n core) := by cases n <;> cases core <;> rfl

theorem process (n : CtxId) (core : CoreSel) : Statement (.process n core) := by cases n <;> cases core <;> rfl

theorem endCtx (n : CtxId) (core : CoreSel) : Statement (.endCtx n core) := by cases n <;> cases core <;> rfl

theorem compress (n : CtxId) (core : CoreSel) : Statement (.compress n core) := by cases n <;> cases core <;> rfl

theorem zcompress (n : CtxId) (core : CoreSel) : Statement (.zcompress n core) := by cases n <;> cases core <;> rfl

theorem processDual (core : CoreSel) : Statement (.processDual core) := by cases core <;> rfl

theorem compressDual (core : CoreSel) : Statement (.compressDual core) := by cases core <;> rfl

end Sys2Proof.Laws.WellFormedFields
end

