-- ==== Sys2Proof/Tests/Slice0.lean ====
section
/-! SUPPORT. The model's own tests. Expected values are those of spec/95_test_vectors.md, named by their ids there, or
words written out by hand from 30_encoding.md R90 and R96. After the tests, one witness for each statement of
Certificates/Slice0/Obligations.lean that has hypotheses: a concrete state and operands that meet all of them. -/

namespace Sys2Proof.Tests

open Sys2Proof.Machine

-- One theorem at a time: the kernel evaluations of many theorems at once need too many threads.
set_option Elab.async false

/-! ## Building states -/

/-- A platform: the window at 0xF0000000, nothing else special. -/
def quiet : Params := ⟨0xF0000000, false, [], []⟩

/-- The bytes `bs` from address `a` on. -/
def place (a : Nat) (bs : List Byte) : Memory := (List.range bs.length).map fun i => (a + i, bs.getD i 0)

/-- Right after reset on that platform. -/
def idle : State := { State.reset with params := quiet }

/-- An ACTIVE context. -/
def active (dig : Digest) (count : Nat) (res : List Byte) : Ctx :=
  ⟨dig, BitVec.ofNat 64 count, res ++ List.replicate (64 - res.length) 0, .active⟩

/-- A context just begun. -/
def fresh : Ctx := active iv 0 []

/-- Both contexts, host memory and arguments; the arguments are latched too, so that `exec` can be asked directly. -/
def machine (c0 c1 : Ctx) (m : Memory) (r : Args) : State :=
  { idle with c0 := c0, c1 := c1, mem := m, args := r, seq := { Seq.reset with args := r } }

/-- One step that runs the command word `w`. -/
def issue (s : State) (w : Nat) : Host.Outcome State Fault Refusal := step (s.withFetchWord 32 w)

/-- The outcome is a next state that satisfies `p`. -/
def after (o : Host.Outcome State Fault Refusal) (p : State → Bool) : Bool :=
  match o with
  | .next t => p t
  | .fault _ => false
  | .refused _ => false

/-- The next state, or `d`. -/
def nextOf (o : Host.Outcome State Fault Refusal) (d : State) : State :=
  match o with
  | .next t => t
  | .fault _ => d
  | .refused _ => d

theorem eq_nextOf {o : Host.Outcome State Fault Refusal} (d : State) (h : after o (fun _ => true) = true) :
    o = .next (nextOf o d) := by
  cases o with
  | next t => rfl
  | fault r => cases h
  | refused r => cases h

/-- CTXSTAT as the host reads it of an ACTIVE or FINAL context (R36). -/
def stat (c : Ctx) : Word := ctxStatWord c.phase (c.count.extractLsb' 0 6)

/-- "abc" ++ Pad(3), written out from R181. -/
def abcBlock : List Byte := [0x61, 0x62, 0x63, 0x80] ++ List.replicate 52 0 ++ [0x18, 0, 0, 0, 0, 0, 0, 0]

/-- Pad(0), written out from R181. -/
def emptyBlock : List Byte := [0x80] ++ List.replicate 63 0

/-- `seq200[i .. i + n)`. -/
def seqBytes (i n : Nat) : List Byte := (List.range n).map fun j => BitVec.ofNat 8 (i + j)

/-- The digest of "abc" (V2). -/
def abcDigest : Digest := ⟨0x98500190, 0xB04FD23C, 0x7D3F96D6, 0x727FE128⟩

/-- The digest of the empty message (V1). -/
def emptyDigest : Digest := ⟨0xD98C1DD4, 0x04B2008F, 0x980980E9, 0x7E42F8EC⟩

/-! ## Well-formedness: each check refuses an ill-formed term -/

theorem test_rsvd_refused :
    (Fields.mk 0x2 0 0 1).rsvdOk = false ∧ (Fields.mk 0x2 0 0 1).wellFormed = false := by decide

theorem test_op_refused : (Fields.mk 0x0 0 0 0).opOk = false ∧ (Fields.mk 0x8 0 0 0).opOk = false ∧
    (Fields.mk 0x0 0 0 0).wellFormed = false ∧ (Fields.mk 0x8 0 0 0).wellFormed = false := by decide

theorem test_ctx_refused : (Fields.mk 0x6 1 0 0).ctxOk = false ∧ (Fields.mk 0x7 1 1 0).ctxOk = false ∧
    (Fields.mk 0x6 1 0 0).wellFormed = false ∧ (Fields.mk 0x5 1 0 0).wellFormed = true := by decide

/-! ## Decoding: words written out bit by bit, RSVD CORE CTX OP -/

theorem test_decode_begin : decode 0b00000000000000000000000000_0_1_0001#32 = .ok (.beginCtx .c1 .scalar) := by rfl

theorem test_decode_process : decode 0b00000000000000000000000000_1_0_0010#32 = .ok (.process .c0 .vector) := by rfl

theorem test_decode_end : decode 0b00000000000000000000000000_1_1_0011#32 = .ok (.endCtx .c1 .vector) := by rfl

theorem test_decode_compress : decode 0b00000000000000000000000000_0_1_0100#32 = .ok (.compress .c1 .scalar) := by rfl

theorem test_decode_zcompress : decode 0b00000000000000000000000000_1_0_0101#32 = .ok (.zcompress .c0 .vector) := by rfl

theorem test_decode_process_dual : decode 0b00000000000000000000000000_1_0_0110#32 = .ok (.processDual .vector) := by
  rfl

theorem test_decode_compress_dual : decode 0b00000000000000000000000000_0_0_0111#32 = .ok (.compressDual .scalar) := by
  rfl

/-- E1 to E4, and the highest RSVD bit. -/
theorem test_decode_illegal : decode 0x00000000 = .error .badOpcode ∧ decode 0x00000008 = .error .badOpcode ∧
    decode 0x00000040 = .error .reservedBits ∧ decode 0x00000016 = .error .dualContext ∧
    decode 0x80000001 = .error .reservedBits := ⟨rfl, rfl, rfl, rfl, rfl⟩

theorem test_decode_table_word : decodeTableWord 32 0x00000035 = some (.zcompress .c1 .vector) ∧
    decodeTableWord 32 0x00000017 = none := ⟨rfl, rfl⟩

/-! ## The compression function and its datapaths -/

/-- T1. -/
theorem test_round_functions :
    (let x : Word := 0xEFCDAB89; let y : Word := 0x98BADCFE; let z : Word := 0x10325476
     roundFn .f x y z = 0x98BADCFE ∧ roundFn .g x y z = 0x88888888 ∧ roundFn .h x y z = 0x67452301 ∧
       roundFn .i x y z = 0x77777777) ∧
    (let x : Word := 0xFFFFFFFF; let y : Word := 0; let z : Word := 0xAAAAAAAA
     roundFn .f x y z = 0 ∧ roundFn .g x y z = 0xAAAAAAAA ∧ roundFn .h x y z = 0x55555555 ∧
       roundFn .i x y z = 0xFFFFFFFF) := by decide

/-- T2: amount, rotation of 12345678, rotation of 80000001. -/
def rotations : List (Nat × Word × Word) := [
  (4, 0x23456781, 0x00000018), (5, 0x468ACF02, 0x00000030), (6, 0x8D159E04, 0x00000060),
  (7, 0x1A2B3C09, 0x000000C0), (9, 0x68ACF024, 0x00000300), (10, 0xD159E048, 0x00000600),
  (11, 0xA2B3C091, 0x00000C00), (12, 0x45678123, 0x00001800), (14, 0x159E048D, 0x00006000),
  (15, 0x2B3C091A, 0x0000C000), (16, 0x56781234, 0x00018000), (17, 0xACF02468, 0x00030000),
  (20, 0x67812345, 0x00180000), (21, 0xCF02468A, 0x00300000), (22, 0x9E048D15, 0x00600000),
  (23, 0x3C091A2B, 0x00C00000)]

theorem test_rotations : rotations.all (fun (r, x, y) => rotl32 0x12345678 r == x && vrot 0x12345678 r == x &&
    rotl32 0x80000001 r == y && vrot 0x80000001 r == y) = true := by decide +kernel

/-- T3: the rolling variables after steps 0 and 63, and the chaining addition. -/
theorem test_block_by_steps :
    let r := loadScalar iv (messageWords abcBlock)
    let first := (schedule.take 1).foldl (scalarStep rotl32) r
    let last := schedule.foldl (scalarStep rotl32) r
    (first.a, first.b, first.c, first.d) = (0x10325476, 0xD6D117B4, 0xEFCDAB89, 0x98BADCFE) ∧
    (last.a, last.b, last.c, last.d) = (0x310ADE8F, 0xC08226B3, 0xE484B9D8, 0x624D8CB2) ∧
    compress iv abcBlock = abcDigest := by decide +kernel

/-- C4: the zero-fill path from two arbitrary states. -/
theorem test_zero_fill :
    compressZero ⟨0xFFFFFFFF, 0xFFFFFFFF, 0xFFFFFFFF, 0xFFFFFFFF⟩ =
      ⟨0xE6BC4A78, 0x6580A066, 0x341C3389, 0xB7B5AFCC⟩ ∧
    runScalar (rotOf .vector) ⟨0x01234567, 0x89ABCDEF, 0xFEDCBA98, 0x76543210⟩ (blockWords true (List.replicate 64 0)) =
      ⟨0x564D6152, 0xE2641B99, 0xFB994AD4, 0x3386AF99⟩ := by decide +kernel

/-- C6. -/
theorem test_dual_block : compressDual iv iv abcBlock emptyBlock = (abcDigest, emptyDigest) := by decide +kernel

/-- R45: the step index after two steps, in the registers that T3 gives after step 0; and the offset after the top-up of
H7b, whose residual of 60 bytes takes 4 of the 10 bytes. -/
theorem test_sequencer :
    ((singleStep .vector)^[2] (loadBlock .c0 (messageWords abcBlock) { idle with c0 := fresh })).seq.step = 2 ∧
    (singleStep .vector (loadBlock .c0 (messageWords abcBlock) { idle with c0 := fresh })).work.scalar.b = 0xD6D117B4 ∧
    posOf (topUp .c0 .a .scalar (seqBytes 60 10) { idle with c0 := active iv 60 (seqBytes 0 60) }) .a = 4 := by
  decide +kernel

/-- H5 and the pad table: lengths at residues 0, 55, 56, 63, and the length field at the wrap of the bit length. -/
theorem test_padding : padLen 0 = 64 ∧ padLen 55 = 9 ∧ padLen 56 = 72 ∧ padLen 63 = 65 ∧
    (padBytes 56).drop 64 = [0xC0, 0x01, 0, 0, 0, 0, 0, 0] ∧
    (padBytes 0x2000000000000005).drop 51 = [0x28, 0, 0, 0, 0, 0, 0, 0] ∧
    (padBytes 0xFFFFFFFFFFFFFFFF).drop 57 = [0xF8, 0xFF, 0xFF, 0xFF, 0xFF, 0xFF, 0xFF, 0xFF] := by decide +kernel

/-- The bytes of V1's and V2's digests. -/
theorem test_digest_bytes : digestBytes abcDigest =
    [0x90, 0x01, 0x50, 0x98, 0x3c, 0xd2, 0x4f, 0xb0, 0xd6, 0x96, 0x3f, 0x7d, 0x28, 0xe1, 0x7f, 0x72] := by decide

/-! ## The commands, one step each -/

/-- H1. -/
theorem test_begin : after (issue idle 0x00000001) (fun t =>
    t.c0.dig == iv && t.c0.count == 0 && stat t.c0 == 0x00000001 && statusWord t.status == 0x00000002 &&
      t.c1 == idle.c1) = true := by decide +kernel

/-- R170: from FAULT, the end of P5. -/
theorem test_begin_recovers : after (issue { idle with c1 := { fresh with phase := .fault } } 0x00000011) (fun t =>
    t.c1.phase == .active && t.c1.dig == iv && t.c1.count == 0 && t.c0 == idle.c0) = true := by decide +kernel

/-- H2. -/
theorem test_process_tail :
    after (issue (machine fresh idle.c1 (place 0x1000 [0x61, 0x62, 0x63]) ⟨0x1000, 0, 3, 0⟩) 0x00000002) (fun t =>
      t.c0.dig == iv && t.c0.count == 3 && stat t.c0 == 0x00000301 && t.c0.res.take 3 == [0x61, 0x62, 0x63] &&
        statusWord t.status == 0x00000002) = true := by decide +kernel

/-- H7b: the top-up completes a block. -/
theorem test_process_topup :
    after (issue (machine (active iv 60 (seqBytes 0 60)) idle.c1 (place 0x403C (seqBytes 60 10)) ⟨0x403C, 0, 10, 0⟩)
      0x00000002) (fun t =>
        t.c0.dig == ⟨0x9144D9CA, 0xD901E4C9, 0x72FC5B38, 0x625FF51E⟩ && t.c0.count == 70 &&
          stat t.c0 == 0x00000601) = true := by decide +kernel

/-- H3. -/
theorem test_end :
    after (issue (machine (active iv 3 [0x61, 0x62, 0x63]) idle.c1 [] ⟨0, 0, 0, 0⟩) 0x00000003) (fun t => t.c0.dig == abcDigest && t.c0.count == 64 && stat t.c0 == 0x00000002 && statusWord t.status == 0x00000002) =
      true := by decide +kernel

/-- H4, n = 56: two pad blocks. -/
theorem test_end_two_blocks :
    after (issue (machine idle.c0 (active iv 56 (List.replicate 56 0x61)) [] ⟨0, 0, 0, 0⟩) 0x00000033) (fun t =>
      t.c1.dig == ⟨0xC78A0C3B, 0xB028F803, 0x70196C4C, 0x1872D106⟩ && t.c1.count == 128) = true := by decide +kernel

/-- C1. -/
theorem test_compress : after (issue (machine fresh idle.c1 (place 0x5000 abcBlock) ⟨0x5000, 0, 64, 0⟩) 0x00000004)
    (fun t => t.c0.dig == abcDigest && t.c0.count == 64 && stat t.c0 == 0x00000001 &&
      statusWord t.status == 0x00000002) = true := by decide +kernel

/-- C2. -/
theorem test_compress_vector :
    after (issue (machine (active abcDigest 64 []) idle.c1 (place 0x5000 abcBlock) ⟨0x5000, 0, 64, 0⟩) 0x00000024)
      (fun t => t.c0.dig == ⟨0xC4A56D91, 0x1317CC0F, 0x52DF5644, 0x72514C72⟩ && t.c0.count == 128) = true := by
  decide +kernel

/-- C3b. -/
theorem test_zcompress : after (issue (machine fresh idle.c1 [] ⟨0, 0, 128, 0⟩) 0x00000005) (fun t =>
    t.c0.dig == ⟨0xCD0D5B14, 0x04015D84, 0x312E4049, 0x10662932⟩ && t.c0.count == 128) = true := by decide +kernel

/-- E9. -/
theorem test_zcompress_length : after (issue (machine fresh idle.c1 [] ⟨0, 0, 100, 0⟩) 0x00000005) (fun t =>
    statusWord t.status == 0x00000302 && t.c0 == fresh) = true := by decide +kernel

/-- The memory of D1, D2 and P5. -/
def dualMem : Memory := place 0x2000 (List.replicate 128 0x61) ++ place 0x3000 (List.replicate 128 0x62)

/-- D2: the streams are at different offsets. -/
theorem test_process_dual :
    after (issue (machine (active iv 3 [0x61, 0x62, 0x63]) fresh dualMem ⟨0x2000, 0x3000, 128, 128⟩) 0x00000026)
      (fun t => t.c0.dig == ⟨0x566EAB38, 0xAA88503F, 0xACA0973C, 0xBDACA4E6⟩ && t.c0.count == 131 &&
        stat t.c0 == 0x00000301 && t.c1.dig == ⟨0x7143886D, 0xAF2D371F, 0x0EE5B49D, 0x96A181F9⟩ &&
        t.c1.count == 128) = true := by decide +kernel

/-- Memory that signals a bus error at 0x9000 to 0x9FFF (P5). -/
def faulty : Params := { quiet with busErr := [⟨0x9000, 0x1000⟩] }

/-- E17, P5: lane B fails, lane A does not notice. -/
theorem test_process_dual_bus :
    after (issue { machine fresh fresh dualMem ⟨0x2000, 0x9000, 128, 128⟩ with params := faulty } 0x00000006)
      (fun t => statusWord t.status == 0x00000712 && t.c1.phase == .fault &&
        t.c0.dig == ⟨0xE01B99D7, 0xA1E609C6, 0xFED21DEA, 0xBE6B6B4F⟩ && t.c0.count == 128) = true := by
  decide +kernel

/-- C5. -/
theorem test_compress_dual :
    after (issue (machine fresh fresh (place 0x5000 (abcBlock ++ emptyBlock)) ⟨0x5000, 0x5040, 64, 64⟩) 0x00000007)
      (fun t => t.c0.dig == abcDigest && t.c1.dig == emptyDigest && t.c0.count == 64 && t.c1.count == 64 &&
        statusWord t.status == 0x00000002) = true := by decide +kernel

/-- E12. -/
theorem test_compress_dual_residual :
    after (issue (machine fresh (active iv 3 [0x61, 0x62, 0x63]) dualMem ⟨0x2000, 0x3000, 64, 64⟩) 0x00000007)
      (fun t => statusWord t.status == 0x00000412 && t.c0 == fresh) = true := by decide +kernel

/-- CTX0 ACTIVE, CTX1 FINAL, lengths that differ. -/
def halfFinal : State := machine fresh { fresh with phase := .final } [] ⟨0xFFFFFFFFFFFFFFF0, 0, 0x20, 128⟩

/-- E13, E14, E15, E16 and E7: which check is reported. -/
theorem test_check_order :
    after (issue halfFinal 0x00000002) (fun t => statusWord t.status == 0x00000602) = true ∧
    after (issue halfFinal 0x00000004) (fun t => statusWord t.status == 0x00000302) = true ∧
    after (issue { halfFinal with args := ⟨0xFFFFFFFFFFFFFFF0, 0, 0, 0⟩ } 0x00000002)
      (fun t => statusWord t.status == 0x00000002) = true ∧
    after (issue halfFinal 0x00000006) (fun t => statusWord t.status == 0x00000212) = true ∧
    after (issue idle 0x00000012) (fun t => statusWord t.status == 0x00000212) = true := by decide +kernel

/-- E1 to E4: illegal words complete. -/
theorem test_illegal_words : [0x00000000, 0x00000008, 0x00000040, 0x00000016].all (fun w =>
    after (issue idle w) (fun t => statusWord t.status == 0x00000102)) = true := by decide +kernel

/-! ## The host's side, one step each -/

/-- A machine whose next input is the event `e`. -/
def facing (e : HostEvent) (s : State) : State := { s with inputs := [.host e] }

/-- A command is running. -/
def running (w : Word) (s : State) : State := accept w s

/-- E18: ACK clears DONE and leaves the report. -/
theorem test_status_ack :
    after (step (facing (.regWrite 0x004 4 6) { idle with status := ⟨false, true, true, .c1, .phase⟩ }))
      (fun t => statusWord t.status == 0x00000210) = true := by decide +kernel

/-- E19: an overrun. -/
theorem test_overrun : after (step (facing (.regWrite 0x000 4 0x11) (running 0x1 idle))) (fun t =>
    t.status.ovr && t.status.busy && t.seq.cmd == 0x1) = true := by decide +kernel

/-- R30, R40: the HI half of LEN_B, and its read. -/
theorem test_argument_halves :
    after (step (facing (.regWrite 0x02C 4 0x89ABCDEF) (machine fresh fresh [] ⟨1, 2, 3, 0x1111111122222222⟩)))
      (fun t => t.args == ⟨1, 2, 3, 0x89ABCDEF22222222⟩) = true ∧
    after (step (facing (.regRead 0x02C 4) (machine fresh fresh [] ⟨1, 2, 3, 0x1111111122222222⟩)))
      (fun t => t.rdata == some 0x11111111) = true := by decide +kernel

/-- R36, H2's CTXSTAT as the host reads it, and R41. -/
theorem test_window_reads :
    after (step (facing (.regRead 0x058 4) (machine (active iv 3 [0x61, 0x62, 0x63]) fresh [] ⟨0, 0, 0, 0⟩)))
      (fun t => t.rdata == some 0x00000301) = true ∧
    after (step (facing (.regRead 0x06C 4) (machine fresh fresh [] ⟨0, 0, 0, 0⟩)))
      (fun t => t.rdata == some 0x10325476) = true ∧
    after (step (facing (.regRead 0x059 4) idle)) (fun _ => true) = false := by decide +kernel

/-- R260: RESET while a command runs. -/
theorem test_reset_event :
    after (step (facing .reset (running 0x2 (machine fresh fresh [] ⟨1, 2, 3, 4⟩)))) (fun t =>
      t.c0.phase == .idle && t.c1.phase == .idle && t.args == ⟨0, 0, 0, 0⟩ && statusWord t.status == 0) = true := by
  decide +kernel

/-- R72 item 2: a store during a command leaves both values possible. -/
theorem test_race :
    after (step (facing (.memStore 0x1001 0x7A) (running 0x2 (machine fresh fresh (place 0x1000 [0x61, 0x62, 0x63])
      ⟨0x1000, 0, 3, 0⟩)))) (fun t => hostByte t.mem 0x1001 == 0x7A && t.raced == [(0x1001, 0x62)]) = true := by
  decide +kernel

/-- R240, P4: the interrupt after a completion with IE = 1. -/
theorem test_interrupt : after (issue { idle with ctrlIE := true } 0x00000011) (fun t => irq t) = true ∧
    irq ({ idle with ctrlIE := true }.withFetchWord 32 0x11) = false := by decide +kernel

/-- The canonical form of memory: a store in front, in the middle and over a listed byte. -/
theorem test_memory_form : memSet (memSet (memSet [(5, 1)] 3 2) 4 7) 3 9 = [(3, 9), (4, 7), (5, 1)] := by decide

/-- Each row of the table runs from reset, as its first command. -/
theorem test_first_after_reset : [0x1, 0x2, 0x3, 0x4, 0x5, 0x6, 0x7].all (fun w =>
    after (step (State.reset.withFetchWord 32 w)) (fun t => t.status.done)) = true := by decide +kernel

/-! ## Witnesses: concrete states and operands that meet every hypothesis of a statement -/

theorem witness_IllegalWordCompletes : let s := idle.withFetchWord 32 0x40
    s.status.busy = true ∧ decode s.seq.cmd = .error .reservedBits ∧ s.inputs = [.engine] := ⟨rfl, rfl, rfl⟩

theorem witness_CmdWriteAcceptedOrDiscarded :
    (let s := facing (.regWrite 0x000 4 0x1) (running 0x1 idle)
     s.inputs = [.host (.regWrite 0x000 4 0x1)] ∧ s.status.busy = true) ∧
    (let s := facing (.regWrite 0x000 4 0x1) idle
     s.inputs = [.host (.regWrite 0x000 4 0x1)] ∧ s.status.busy = false) := ⟨⟨rfl, rfl⟩, rfl, rfl⟩

theorem witness_StepRunsDecodedCommand :
    (let s := running 0x1 idle
     decode s.seq.cmd = .ok (.beginCtx .c0 .scalar) ∧ s.status.busy = true ∧ s.inputs = []) ∧
    (let s := idle.withFetchWord 32 0x37
     decode s.seq.cmd = .error .dualContext ∧ s.status.busy = true) ∧
    (let s := idle.withFetchWord 32 0x27
     decode s.seq.cmd = .ok (.compressDual .vector) ∧ s.status.busy = true ∧ s.inputs = [.engine]) ∧
    ((0x27 : Nat) < 2 ^ 32 ∧ decode (BitVec.ofNat 32 0x27) = .ok (.compressDual .vector)) ∧
    (idle.status.busy = false ∧ idle.inputs = []) := by
  refine ⟨⟨rfl, rfl, rfl⟩, ⟨rfl, rfl⟩, ⟨rfl, rfl, rfl⟩, ⟨by decide, rfl⟩, rfl, rfl⟩

/-- Two messages fed by one COMPRESS, COMPRESS_DUAL, PROCESS or PROCESS_DUAL. -/
def twoBlocks : State := machine fresh fresh (place 0x5000 (abcBlock ++ emptyBlock)) ⟨0x5000, 0x5040, 64, 64⟩

theorem twoBlocks_clear (x : Stream) : SourceClear twoBlocks x ∧ SourceReadable twoBlocks x ∧
    SourceSettled twoBlocks x := by
  cases x <;> exact ⟨rfl, fun _ _ => rfl, fun _ _ => rfl⟩

theorem twoBlocks_checks : firstError (checksOf (.compress .c0 .scalar) twoBlocks) = none ∧
    firstError (checksOf (.zcompress .c1 .vector) twoBlocks) = none ∧
    firstError (checksOf (.compressDual .vector) twoBlocks) = none ∧
    firstError (checksOf (.processDual .scalar) twoBlocks) = none := by decide +kernel

theorem witness_FirstFailingCheckReported :
    firstError (checksOf (.processDual .scalar) halfFinal) = some (.phase, .c1) ∧
    firstError (checksOf (.process .c0 .scalar) halfFinal) = some (.range, .c0) ∧
    (firstError (checksOf (.processDual .scalar) twoBlocks) = none ∧
      ∃ t, exec (.processDual .scalar) twoBlocks = .next t) :=
  ⟨by decide +kernel, by decide +kernel, twoBlocks_checks.2.2.2, _, eq_nextOf twoBlocks (by decide +kernel)⟩

theorem witness_AcceptedCommandCompletes :
    let s := { running 0x2 twoBlocks with
      inputs := [.host (.memStore (2 ^ 64 - 1) 7), .host (.regRead 0x07C 4), .engine] }
    s.status.busy = true ∧ ∀ x ∈ s.inputs, x = .engine ∨ ∃ e, x = .host e ∧ OrdinaryEvent s.params e := by
  refine ⟨rfl, fun x hx => ?_⟩
  simp only [List.mem_cons, List.not_mem_nil, or_false] at hx
  rcases hx with rfl | rfl | rfl
  · exact .inr ⟨_, rfl, by decide, by decide⟩
  · exact .inr ⟨_, rfl, rfl, by decide, by decide⟩
  · exact .inl rfl

theorem witness_CommandFrame : (∃ t, exec (.compress .c1 .vector) twoBlocks = .next t) ∧
    instrUses (.compress .c1 .vector) .c0 = false := ⟨⟨_, eq_nextOf twoBlocks (by decide +kernel)⟩, rfl⟩

theorem witness_PhaseTransitions :
    (∃ t, step ((machine fresh fresh [] ⟨0, 0, 0, 0⟩).withFetchWord 32 0x3) = .next t ∧ t.c0.phase = .final) ∧
    (∃ t, step (facing .reset twoBlocks) = .next t ∧ t.c0.phase = .idle) ∧
    (∃ t, step ({ twoBlocks with params := faulty, args := ⟨0x9000, 0, 64, 0⟩ }.withFetchWord 32 0x2) = .next t ∧
      t.c0.phase = .fault) :=
  ⟨⟨_, eq_nextOf idle (by decide +kernel), by decide +kernel⟩, ⟨_, rfl, rfl⟩,
    ⟨_, eq_nextOf idle (by decide +kernel), by decide +kernel⟩⟩

theorem witness_FinalisationIsOneWay :
    ((getCtx halfFinal .c0).phase = .active ∧ ∃ t, exec (.endCtx .c0 .scalar) halfFinal = .next t) ∧
    (getCtx halfFinal .c1).phase = .final ∧ instrUses (.endCtx .c1 .scalar) .c1 = true ∧
      (∀ k, Instr.endCtx .c1 .scalar ≠ .beginCtx .c1 k) ∧
    instrUses (.processDual .vector) .c1 = true ∧ (∀ k, Instr.processDual .vector ≠ .beginCtx .c1 k) :=
  ⟨⟨rfl, _, eq_nextOf halfFinal (by decide +kernel)⟩, rfl, rfl, nofun, rfl, nofun⟩

theorem witness_HostCannotWriteContexts :
    (∃ t, step (facing (.regWrite 0x040 4 0xFFFFFFFF) twoBlocks) = .next t) ∧
    (HostEvent.regWrite 0x040 4 0xFFFFFFFF ≠ .reset ∧
      ∀ v, HostEvent.regWrite 0x040 4 0xFFFFFFFF ≠ .regWrite 0x000 4 v) :=
  ⟨⟨_, rfl⟩, nofun, by intro v h; injection h with h; cases h⟩

theorem witness_OverrunIsSticky :
    (let s := facing (.regWrite 0x004 4 0x4) { idle with status := ⟨false, false, true, .c0, .none⟩ }
     ∃ t, step s = .next t ∧ s.status.ovr = true ∧ t.status.ovr = false) ∧
    (let s := facing (.regWrite 0x000 4 0x1) (running 0x1 idle)
     ∃ t, step s = .next t ∧ s.status.ovr = false ∧ t.status.ovr = true) := ⟨⟨_, rfl, rfl, rfl⟩, _, rfl, rfl, rfl⟩

/-- Both contexts are ACTIVE and hold the empty stream; a store meets the running command. -/
def busyState : State := facing (.memStore (2 ^ 64 - 1) 7) (running 0x2 twoBlocks)

theorem witness_StepKeepsInvariant : Inv busyState ∧ StreamsHeld busyState ∧ ∃ t, step busyState = .next t := by
  refine ⟨⟨?_, ?_, ?_, ?_, ?_, ?_, ?_, ?_⟩, ?_, _, eq_nextOf idle (by decide +kernel)⟩
  · decide +kernel
  · intro n
    cases n <;> rfl
  · exact fun _ => ⟨rfl, rfl⟩
  · exact fun _ => rfl
  · exact fun h => by cases h
  · intro _ x
    cases x <;> decide
  · decide
  · decide
  · intro n _
    cases n <;> exact ⟨[], rfl, rfl, rfl⟩

/-- The chaining invariant at the boundary of its phases: an ACTIVE context, and one that RESET has left IDLE. -/
theorem witness_StreamsHeld : StreamsHeld { idle with c0 := active iv 3 [0x61, 0x62, 0x63] } := by
  intro n h
  cases n
  · exact ⟨[0x61, 0x62, 0x63], rfl, rfl, by decide⟩
  · rcases h with h | h <;> cases h

/-- A stream of no bytes, one that ends at the top of the address space, and one of 64 bytes. -/
def topState : State :=
  machine (active iv 3 [0x61, 0x62, 0x63]) fresh (place (2 ^ 64 - 2) [0x64, 0x65]) ⟨0xFFFFFFFFFFFFFFFE, 0, 2, 0⟩

theorem witness_ProcessResult :
    ((getCtx topState .c0).phase = .active ∧ (getCtx topState .c0).res.length = 64 ∧
      (lenOf topState .a = 0 ∨ srcOf topState .a + lenOf topState .a ≤ 2 ^ 64) ∧ SourceClear topState .a ∧
      SourceReadable topState .a) ∧
    (let s := machine fresh fresh [] ⟨0xFFFFFFFFFFFFFFFF, 0, 0, 0⟩
     (getCtx s .c1).phase = .active ∧ (getCtx s .c1).res.length = 64 ∧
      (lenOf s .a = 0 ∨ srcOf s .a + lenOf s .a ≤ 2 ^ 64) ∧ SourceClear s .a ∧ SourceReadable s .a) :=
  ⟨⟨rfl, rfl, by decide, rfl, fun _ _ => rfl⟩, rfl, rfl, by decide, rfl, fun _ _ => rfl⟩

theorem witness_ProcessAppendsToStream :
    (getCtx topState .c0).phase = .active ∧ (getCtx topState .c0).res.length = 64 ∧
      Holds (getCtx topState .c0) [0x61, 0x62, 0x63] ∧
      (lenOf topState .a = 0 ∨ srcOf topState .a + lenOf topState .a ≤ 2 ^ 64) ∧ SourceClear topState .a ∧
      SourceReadable topState .a ∧ SourceSettled topState .a :=
  ⟨rfl, rfl, ⟨rfl, rfl, by decide⟩, by decide, rfl, fun _ _ => rfl, fun _ _ => rfl⟩

/-- "abc" at 0x1001, to be fed in one piece or as "a" and "bc" (H6). -/
def chunk (c : Ctx) (src len : DWord) : State := machine c idle.c1 (place 0x1001 [0x61, 0x62, 0x63]) ⟨src, 0, len, 0⟩

theorem witness_ChunkSizeIndependence :
    let s1 := chunk fresh 0x1001 1
    let t1 := nextOf (exec (.process .c0 .scalar) s1) s1
    let s2 := chunk t1.c0 0x1002 2
    let t2 := nextOf (exec (.process .c0 .vector) s2) s2
    let s3 := chunk fresh 0x1001 3
    let t3 := nextOf (exec (.process .c0 .scalar) s3) s3
    (getCtx s1 .c0).res.length = 64 ∧ getCtx s2 .c0 = getCtx t1 .c0 ∧ getCtx s3 .c0 = getCtx s1 .c0 ∧
      SourceSettled s1 .a ∧ SourceSettled s2 .a ∧ SourceSettled s3 .a ∧
      sourceBytes s3 .a = sourceBytes s1 .a ++ sourceBytes s2 .a ∧
      exec (.process .c0 .scalar) s1 = .next t1 ∧ Reported s1 t1 .none .c0 ∧
      exec (.process .c0 .vector) s2 = .next t2 ∧ Reported s2 t2 .none .c0 ∧
      exec (.process .c0 .scalar) s3 = .next t3 ∧ Reported s3 t3 .none .c0 := by
  refine ⟨rfl, rfl, rfl, fun _ _ => rfl, fun _ _ => rfl, fun _ _ => rfl, by decide +kernel,
    eq_nextOf _ (by decide +kernel), ?_, eq_nextOf _ (by decide +kernel), ?_, eq_nextOf _ (by decide +kernel), ?_⟩ <;>
    unfold Reported <;> decide +kernel

theorem witness_EndResult :
    (getCtx topState .c0).phase = .active ∧ (getCtx topState .c0).res.length = 64 := ⟨rfl, rfl⟩

theorem witness_EndGivesMd5 : (getCtx topState .c0).phase = .active ∧ (getCtx topState .c0).res.length = 64 ∧
    Holds (getCtx topState .c0) [0x61, 0x62, 0x63] := ⟨rfl, rfl, ⟨rfl, rfl, by decide⟩⟩

theorem witness_PaddingBlockCount :
    (let s := machine (active iv 55 (List.replicate 55 0x61)) fresh [] ⟨0, 0, 0, 0⟩
     (getCtx s .c0).phase = .active ∧ (getCtx s .c0).res.length = 64 ∧ (getCtx s .c0).count.toNat % 64 ≤ 55) ∧
    (let s := machine (active iv 56 (List.replicate 56 0x61)) fresh [] ⟨0, 0, 0, 0⟩
     (getCtx s .c0).phase = .active ∧ (getCtx s .c0).res.length = 64 ∧ 56 ≤ (getCtx s .c0).count.toNat % 64) := by
  decide +kernel

theorem witness_PaddingBytes : (1 ≤ 1 ∧ 1 < padLen 3 - 8) ∧ (52 < padLen 3 - 8) ∧ 7 < 8 := by decide

theorem witness_LaneIndependence : let s := { idle with seq := { Seq.reset with posA := 64, posB := 0xFFFFFFFFFFFFFFBE } }
    posOf s .a + 64 * 1 < 2 ^ 64 ∧ posOf s .b + 64 * 1 < 2 ^ 64 := by decide

theorem witness_VectorRotateIsRotate : (0 < 1 ∧ 1 < 32) ∧ (0 < 31 ∧ 31 < 32) := by decide

theorem witness_CompressResult : firstError (checksOf (.compress .c0 .scalar) twoBlocks) = none ∧
    SourceClear twoBlocks .a ∧ SourceReadable twoBlocks .a :=
  ⟨twoBlocks_checks.1, (twoBlocks_clear .a).1, (twoBlocks_clear .a).2.1⟩

theorem witness_CompressAgreesWithProcess : firstError (checksOf (.compress .c0 .scalar) twoBlocks) = none ∧
    SourceClear twoBlocks .a := ⟨twoBlocks_checks.1, (twoBlocks_clear .a).1⟩

theorem witness_ZcompressResult :
    firstError (checksOf (.zcompress .c1 .vector) twoBlocks) = none := twoBlocks_checks.2.1

theorem witness_CompressDualResult : firstError (checksOf (.compressDual .vector) twoBlocks) = none ∧
    SourceClear twoBlocks .a ∧ SourceClear twoBlocks .b ∧ SourceReadable twoBlocks .a ∧ SourceReadable twoBlocks .b :=
  ⟨twoBlocks_checks.2.2.1, (twoBlocks_clear .a).1, (twoBlocks_clear .b).1, (twoBlocks_clear .a).2.1,
    (twoBlocks_clear .b).2.1⟩

theorem witness_CompressDualEquivalence : firstError (checksOf (.compressDual .vector) twoBlocks) = none ∧
    SourceClear twoBlocks .a ∧ SourceClear twoBlocks .b ∧ SourceReadable twoBlocks .a ∧ SourceReadable twoBlocks .b ∧
    SourceSettled twoBlocks .a ∧ SourceSettled twoBlocks .b :=
  ⟨twoBlocks_checks.2.2.1, (twoBlocks_clear .a).1, (twoBlocks_clear .b).1, (twoBlocks_clear .a).2.1,
    (twoBlocks_clear .b).2.1, (twoBlocks_clear .a).2.2, (twoBlocks_clear .b).2.2⟩

/-- D2's state: the residuals differ. -/
def offset : State := machine (active iv 3 [0x61, 0x62, 0x63]) fresh dualMem ⟨0x2000, 0x3000, 128, 128⟩

theorem witness_ProcessDualResult : firstError (checksOf (.processDual .vector) offset) = none ∧
    offset.c0.res.length = 64 ∧ offset.c1.res.length = 64 ∧ SourceClear offset .a ∧ SourceClear offset .b ∧
    SourceReadable offset .a ∧ SourceReadable offset .b :=
  ⟨by decide +kernel, rfl, rfl, rfl, rfl, fun _ _ => rfl, fun _ _ => rfl⟩

theorem witness_ProcessDualEquivalence : firstError (checksOf (.processDual .vector) offset) = none ∧
    offset.c0.res.length = 64 ∧ offset.c1.res.length = 64 ∧ SourceClear offset .a ∧ SourceClear offset .b ∧
    SourceReadable offset .a ∧ SourceReadable offset .b ∧ SourceSettled offset .a ∧ SourceSettled offset .b :=
  ⟨by decide +kernel, rfl, rfl, rfl, rfl, fun _ _ => rfl, fun _ _ => rfl, fun _ _ => rfl, fun _ _ => rfl⟩

/-- A source region of stream A whose last byte alone signals a bus error, and a stream B with or without one. -/
def busState (srcA srcB : DWord) : State := { machine fresh fresh [] ⟨srcA, srcB, 64, 64⟩ with params := faulty }

theorem witness_BusErrorFaultsContext : let s := busState 0x8FC1 0
    firstError (checksOf (.compress .c0 .scalar) s) = none ∧ SourceClear s .a ∧
      firstError (checksOf (.process .c0 .scalar) s) = none ∧
      (∃ j, j < lenOf s .a ∧ busErrorAt s.params (srcOf s .a + j) = true) :=
  ⟨by decide +kernel, rfl, by decide +kernel, 63, by decide, by decide⟩

theorem busState_readable (x : DWord) : SourceReadable (busState 0x2000 x) .a ∧ SourceReadable (busState x 0x2000) .b ∧
    SourceSettled (busState x 0x2000) .b := by
  have h : ∀ i, i < 64 → busErrorAt faulty (0x2000 + i) = false := by decide +kernel
  exact ⟨h, h, fun _ _ => rfl⟩

theorem witness_BusErrorIsolatesLanes :
    (let s := busState 0x2000 0x8FC1
     firstError (checksOf (.processDual .scalar) s) = none ∧ firstError (checksOf (.compressDual .scalar) s) = none ∧
      SourceClear s .a ∧ SourceClear s .b ∧ SourceReadable s .a ∧
      ∃ j, j < lenOf s .b ∧ busErrorAt s.params (srcOf s .b + j) = true) ∧
    (let s := busState 0x9000 0x2000
     firstError (checksOf (.processDual .scalar) s) = none ∧ firstError (checksOf (.compressDual .scalar) s) = none ∧
      SourceClear s .a ∧ SourceClear s .b ∧ SourceReadable s .b ∧ SourceSettled s .b ∧
      ∃ j, j < lenOf s .a ∧ busErrorAt s.params (srcOf s .a + j) = true) ∧
    (let s := busState 0x9000 0x9FFF
     firstError (checksOf (.processDual .scalar) s) = none ∧ firstError (checksOf (.compressDual .scalar) s) = none ∧
      SourceClear s .a ∧ SourceClear s .b ∧
      (∃ j, j < lenOf s .a ∧ busErrorAt s.params (srcOf s .a + j) = true) ∧
      ∃ j, j < lenOf s .b ∧ busErrorAt s.params (srcOf s .b + j) = true) :=
  ⟨⟨by decide +kernel, by decide +kernel, rfl, rfl, (busState_readable _).1, 63, by decide, by decide⟩,
   ⟨by decide +kernel, by decide +kernel, rfl, rfl, (busState_readable _).2.1, (busState_readable _).2.2, 0, by decide,
    by decide⟩,
   ⟨by decide +kernel, by decide +kernel, rfl, rfl, ⟨0, by decide, by decide⟩, 0, by decide, by decide⟩⟩

theorem witness_RangeBoundary :
    (let s := machine fresh fresh [] ⟨0xFFFFFFFFFFFFFFFF, 0, 0, 0⟩
     (getCtx s .c0).phase = .active ∧ s.seq.args.lenA = 0) ∧
    (let s := machine fresh fresh [] ⟨0xFFFFFFFFFFFFFFFF, 0, 2, 0⟩
     (getCtx s .c0).phase = .active ∧ 0 < s.seq.args.lenA.toNat ∧
      2 ^ 64 < s.seq.args.srcA.toNat + s.seq.args.lenA.toNat) ∧
    (let s := topState
     (getCtx s .c0).phase = .active ∧ s.seq.args.srcA.toNat + s.seq.args.lenA.toNat ≤ 2 ^ 64 ∧
      ∃ t, exec (.process .c0 .scalar) s = .next t) :=
  ⟨by decide, by decide, rfl, by decide, _, eq_nextOf topState (by decide +kernel)⟩

theorem witness_UndefinedSourceRefused :
    (let s := machine fresh fresh [] ⟨0xEFFFFFC1, 0x5040, 64, 64⟩
     firstError (checksOf (.processDual .scalar) s) = none ∧ Stream.a ∈ streamsOf (.processDual .scalar) ∧
      OverWindow s .a) ∧
    (let s := { machine fresh fresh [] ⟨0x5000, 0x41, 64, 64⟩ with params := { quiet with device := [⟨0x80, 1⟩] } }
     firstError (checksOf (.processDual .scalar) s) = none ∧ Stream.b ∈ streamsOf (.processDual .scalar) ∧
      (¬OverWindow s .a ∧ ¬OverDevice s .a) ∧ ¬OverWindow s .b ∧ OverDevice s .b) ∧
    (let s := machine fresh fresh [] ⟨0xEFFFFFC0, 0xF0000080, 64, 64⟩
     firstError (checksOf (.processDual .scalar) s) = none ∧
      ∀ x ∈ streamsOf (.processDual .scalar), ¬OverWindow s x ∧ ¬OverDevice s x) := by
  refine ⟨⟨by decide +kernel, by decide, 63, by decide⟩,
    ⟨by decide +kernel, by decide, ⟨?_, ?_⟩, ?_, 63, by decide, ⟨0x80, 1⟩, by decide, by decide⟩, by decide +kernel,
    fun x _ => ⟨?_, ?_⟩⟩
  · rintro ⟨j, hj, h⟩
    simp [lenOf, srcOf, machine, idle, quiet] at hj h
    omega
  · rintro ⟨j, hj, r, hr, h⟩
    simp [lenOf, srcOf, machine, idle, quiet] at hj hr h
    subst hr
    simp only at h
    omega
  · rintro ⟨j, hj, h⟩
    simp [lenOf, srcOf, machine, idle, quiet] at hj h
    omega
  · rintro ⟨j, hj, h⟩
    cases x
    · simp [lenOf, srcOf, machine, idle, quiet] at hj h
      omega
    · simp [lenOf, srcOf, machine, idle, quiet] at hj h
  · rintro ⟨j, hj, r, hr, h⟩
    cases hr

theorem witness_ArgumentsAreLatched : (∃ t, exec (.compress .c0 .scalar) twoBlocks = .next t) ∧
    exec (.process .c0 .scalar) (machine fresh fresh [] ⟨0xF000007F, 0, 1, 0⟩) = .refused .sourceOverlapsWindow :=
  ⟨⟨_, eq_nextOf twoBlocks (by decide +kernel)⟩, rfl⟩

theorem witness_UnreadOperandsIgnored : let r : Args := ⟨0x5000, 7, 64, 9⟩
    r.lenA = twoBlocks.seq.args.lenA ∧ r.srcA = twoBlocks.seq.args.srcA ∧ r ≠ twoBlocks.seq.args := by decide

theorem witness_OnlySourceRegionMatters :
    (∀ x ∈ streamsOf (.compressDual .scalar), ∀ j, j < lenOf twoBlocks x →
      hostByte (memSet twoBlocks.mem 0x5080 7) (srcOf twoBlocks x + j) = hostByte twoBlocks.mem (srcOf twoBlocks x + j)) ∧
    memSet twoBlocks.mem 0x5080 7 ≠ twoBlocks.mem ∧ ∃ t, exec (.compressDual .scalar) twoBlocks = .next t := by
  refine ⟨fun x _ => ?_, by decide +kernel, _, eq_nextOf twoBlocks (by decide +kernel)⟩
  cases x <;> decide +kernel

theorem witness_SourceReadsHeldBytes :
    (∃ j, j < lenOf (busState 0x8FC1 0) .a ∧
      busErrorAt (busState 0x8FC1 0).params (srcOf (busState 0x8FC1 0) .a + j) = true) ∧
    SourceReadable twoBlocks .b ∧ SourceSettled twoBlocks .b :=
  ⟨⟨63, by decide, by decide⟩, (twoBlocks_clear .b).2⟩

theorem witness_StoresAndVisibility :
    (let s := facing (.memStore (2 ^ 64 - 1) 7) idle
     2 ^ 64 - 1 < 2 ^ 64 ∧ ¬(s.params.base.toNat ≤ 2 ^ 64 - 1 ∧ 2 ^ 64 - 1 < s.params.base.toNat + 128)) ∧
    (let s := facing .publish { idle with stale := [(5, 1)] }
     s.inputs = [.host .publish] ∧ s.status.busy = false ∧ s.raced = []) ∧
    (let s := facing .publish { running 0x2 idle with stale := [(5, 1)] }
     s.inputs = [.host .publish] ∧ s.status.busy = true) ∧
    ∃ t, exec (.zcompress .c0 .scalar) twoBlocks = .next t :=
  ⟨by decide, ⟨rfl, rfl, rfl⟩, ⟨rfl, rfl⟩, _, eq_nextOf twoBlocks (by decide +kernel)⟩

theorem witness_StatusWordLayout : (facing (.regRead 0x004 4) idle).inputs = [.host (.regRead 0x004 4)] := rfl

theorem witness_StatusWriteOneToClear :
    (facing (.regWrite 0x004 4 0xFFFFFFFF) idle).inputs = [.host (.regWrite 0x004 4 0xFFFFFFFF)] := rfl

theorem witness_ArgumentRegistersReadBack :
    0x02C ∈ [0x010, 0x014, 0x018, 0x01C, 0x020, 0x024, 0x028, 0x02C] ∧
    { idle with inputs := [.host (.regWrite 0x02C 4 5), .host (.regRead 0x02C 4)] }.inputs =
      [.host (.regWrite 0x02C 4 5), .host (.regRead 0x02C 4)] := by decide

theorem witness_CtrlHoldsOneBit :
    { idle with inputs := [.host (.regWrite 0x008 4 0xFFFFFFFF), .host (.regRead 0x008 4)] }.inputs =
      [.host (.regWrite 0x008 4 0xFFFFFFFF), .host (.regRead 0x008 4)] := rfl

theorem witness_ContextRegistersRead :
    let s := facing (.regRead 0x058 4) (running 0x12 topState)
    inUse s .c0 = false ∧ (getCtx s .c0).phase = .active ∧ s.inputs = [.host (.regRead 0x058 4)] := by decide +kernel

theorem witness_IdleAndFaultPhaseReads :
    let s := facing (.regRead 0x078 4) idle
    inUse s .c1 = false ∧ (getCtx s .c1).phase = .idle ∧ s.inputs = [.host (.regRead (0x058 + 0x020 * 1) 4)] := by
  decide +kernel

theorem witness_ReservedAndReadOnlyOffsets : (0x00C % 4 = 0 ∧ 0x00C < 0x080) ∧ (0x030 % 4 = 0 ∧ 0x030 ≤ 0x030) ∧
    (0x07C % 4 = 0 ∧ 0x07C < 0x080 ∧ 0x030 ≤ 0x07C) ∧
    (facing (.regWrite 0x07C 4 1) idle).inputs = [.host (.regWrite 0x07C 4 1)] ∧
    (facing (.regRead 0x000 4) idle).inputs = [.host (.regRead 0x000 4)] := by decide

theorem witness_OddAccessRefused : ¬(2 = 4 ∧ 0x000 % 4 = 0 ∧ 0x000 < 0x080) ∧
    ¬(4 = 4 ∧ 0x07E % 4 = 0 ∧ 0x07E < 0x080) ∧ ¬(4 = 4 ∧ 0x080 % 4 = 0 ∧ 0x080 < 0x080) ∧
    (facing (.regWrite 0x080 4 1) idle).inputs = [.host (.regWrite 0x080 4 1)] := by decide

theorem witness_InterruptLevel : (let s := idle.withFetchWord 32 0x1
     s.status.busy = true ∧ s.inputs = [.engine] ∧ ∃ t, step s = .next t) ∧
    (let s := facing (.regWrite 0x008 4 1) { idle with status := ⟨false, true, false, .c0, .none⟩ }
     ∃ t, step s = .next t ∧ irq t = true) ∧
    (let s := facing (.regWrite 0x000 4 1) { idle with status := ⟨false, true, false, .c0, .none⟩, ctrlIE := true }
     s.status.busy = false ∧ ∃ t, step s = .next t ∧ irq s = true) :=
  ⟨⟨rfl, rfl, _, rfl⟩, ⟨_, rfl, rfl⟩, rfl, _, rfl, rfl⟩

theorem witness_ResetEventSetsResetValues : (facing .reset (running 0x2 twoBlocks)).inputs = [.host .reset] := rfl

theorem witness_ResetLeavesNoTrace :
    let s := facing .reset (running 0x2 twoBlocks)
    let s' := facing .reset { idle with mem := twoBlocks.mem }
    s.inputs = [.host .reset] ∧ s'.inputs = [.host .reset] ∧ s.mem = s'.mem ∧ s.params = s'.params ∧ s.stale = s'.stale ∧
      s.rdata = s'.rdata ∧ s.draws = s'.draws ∧ s.c0 ≠ s'.c0 := by decide +kernel

theorem witness_MessageWordsLittleEndian : 15 < 16 ∧ 0 < 16 := by decide

theorem witness_DigestByteOrder : 15 < 16 ∧ 0 < 16 := by decide

theorem witness_ScheduleFollowsFormulas : 63 < 64 ∧ 0 < 64 := by decide

theorem witness_BitLengthWraps : 0 < 8 ∧ 7 < 8 := by decide

theorem witness_BeginResult : ∃ t, exec (.beginCtx .c1 .vector) idle = .next t := ⟨_, rfl⟩

end Sys2Proof.Tests
end

section
/-! The digests of short messages: a message of fewer than 56 bytes is hashed in one block, and the words after END of
V1 and V2 in 95_test_vectors.md. -/

namespace Sys2Proof.Proofs

open Sys2Proof.Machine Sys2Proof.Laws

/-- R131: a chain over a single block is one compression. -/
theorem chainBlocks_eq_compress (st : Digest) {blk : List Byte} (h : blk.length = 64) :
    chainBlocks st blk = compress st blk := by
  rw [chainBlocks, h]
  show compress st (blk.take 64) = compress st blk
  rw [List.take_of_length_le h.le]

/-- R181: up to 55 bytes leave room for the byte 0x80 and the length field in the same block. -/
theorem append_padBytes_length {m : List Byte} (h : m.length < 56) :
    (m ++ padBytes (BitVec.ofNat 64 m.length)).length = 64 := by
  have hc : (BitVec.ofNat 64 m.length).toNat = m.length := by
    rw [BitVec.toNat_ofNat, Nat.mod_eq_of_lt (by omega)]
  have hpad : padLen (BitVec.ofNat 64 m.length) = 64 - m.length := by
    simp only [padLen, hc]
    split <;> omega
  rw [List.length_append, padBytes_length, hpad]
  omega

/-- R132: the digest of a message that fits one block with its padding. -/
theorem md5_eq_compress {m : List Byte} (h : m.length < 56) :
    md5 m = compress iv (m ++ padBytes (BitVec.ofNat 64 m.length)) :=
  chainBlocks_eq_compress iv (append_padBytes_length h)

/-- V1: the words after END on the empty message. -/
theorem md5_empty : md5 [] = ⟨0xD98C1DD4, 0x04B2008F, 0x980980E9, 0x7E42F8EC⟩ := by
  rw [md5_eq_compress (by decide)]
  decide +kernel

/-- V2: the words after END on "abc". -/
theorem md5_abc : md5 [0x61, 0x62, 0x63] = ⟨0x98500190, 0xB04FD23C, 0x7D3F96D6, 0x727FE128⟩ := by
  rw [md5_eq_compress (by decide)]
  decide +kernel

/-- Settles O60: the bytes, least significant first, of the words of V1 and of V2. -/
theorem knownDigests : Obligations.KnownDigests := by
  unfold Obligations.KnownDigests
  rw [md5_empty, md5_abc]
  constructor <;> decide

end Sys2Proof.Proofs
end

section
/-! The datapaths come to one compression function: the vector rotate is the rotation (R136), the zero-fill path is the
block of zero bytes (R142), and the LanePair registers run two scalar datapaths side by side (R140). -/

namespace Sys2Proof.Proofs

open Sys2Proof.Machine Sys2Proof.Laws

/-! ## The rotations and the rows of the schedule -/

/-- R136: shifting the duplicated word right by `32 - r` rotates the word left by `r`. -/
theorem vrot_eq_rotl32 (x : Word) {r : Nat} (h0 : 0 < r) (h32 : r < 32) : vrot x r = rotl32 x r := by
  apply BitVec.eq_of_getLsbD_eq
  intro i hi
  simp only [vrot, rotl32, BitVec.getLsbD_setWidth, BitVec.getLsbD_ushiftRight, getLsbD_dup, BitVec.getLsbD_or,
    BitVec.getLsbD_shiftLeft, hi, decide_true, Bool.true_and]
  by_cases hr : i < r
  · rw [if_pos (by omega)]
    simp [hr]
  · rw [if_neg (by omega), BitVec.getLsbD_of_ge x (32 - r + i) (by omega)]
    simp [hr, show 32 - r + i - 32 = i - r by omega]

/-- R125: every row rotates by 1 to 31 and names one of the sixteen message words. -/
theorem schedule_bounds : ∀ row ∈ schedule, (0 < row.rot ∧ row.rot < 32) ∧ row.idx < 16 := by decide

theorem rotOf_eq_rotl32 (core : CoreSel) (x : Word) {row : StepRow} (h : row ∈ schedule) :
    rotOf core x row.rot = rotl32 x row.rot := by
  cases core with
  | scalar => rfl
  | vector =>
    obtain ⟨⟨h0, h32⟩, -⟩ := schedule_bounds row h
    exact vrot_eq_rotl32 x h0 h32

/-- R137: a block's 64 steps are the same on either single-stream datapath. -/
theorem runScalar_rotOf (core : CoreSel) (st : Digest) (w : List Word) :
    runScalar (rotOf core) st w = runScalar rotl32 st w := by
  have hfold : schedule.foldl (scalarStep (rotOf core)) (loadScalar st w) =
      schedule.foldl (scalarStep rotl32) (loadScalar st w) :=
    List.foldl_ext _ _ _ fun r row hrow => by rw [scalarStep, scalarStep, rotOf_eq_rotl32 core _ hrow]
  rw [runScalar, runScalar, hfold]

/-! ## The zero-fill path -/

theorem getD_of_allZero {blk : List Byte} (h : allZero blk = true) (i : Nat) : blk.getD i 0 = 0 := by
  rw [allZero, List.all_eq_true] at h
  rcases Nat.lt_or_ge i blk.length with hi | hi
  · rw [List.getD_eq_getElem _ _ hi]
    exact eq_of_beq (h _ (List.getElem_mem hi))
  · rw [List.getD_eq_default _ _ hi]

/-- R142: the message words of an all-zero block are the literal zeros of the zero-fill path. -/
theorem messageWords_of_allZero {blk : List Byte} (h : allZero blk = true) :
    messageWords blk = List.replicate 16 0 := by
  have hw : messageWord blk = fun _ => 0 := funext fun j => by
    simp only [messageWord, getD_of_allZero h]
    rfl
  rw [messageWords, hw]
  rfl

theorem blockWords_eq_messageWords (zd : Bool) (blk : List Byte) : blockWords zd blk = messageWords blk := by
  unfold blockWords
  split
  · rename_i h
    exact (messageWords_of_allZero (Bool.and_eq_true_iff.mp h).1).symm
  · rfl

/-- R137, R143: one block of a single stream, whatever CORE and ZERO_DETECT are. -/
theorem compressOn_eq_compress (core : CoreSel) (zd : Bool) (st : Digest) (blk : List Byte) :
    compressOn core zd st blk = compress st blk := by
  rw [compressOn, runScalar_rotOf, blockWords_eq_messageWords, compress]

theorem allZero_replicate (n : Nat) : allZero (List.replicate n 0) = true := by
  simp [allZero]

/-- R142: the zero-fill path compresses 64 zero bytes. -/
theorem compressZeroOn_eq_compress (core : CoreSel) (st : Digest) :
    compressZeroOn core st = compress st (List.replicate 64 0) := by
  rw [compressZeroOn, runScalar_rotOf, compress, messageWords_of_allZero (allZero_replicate 64)]

/-! ## The LanePair registers -/

/-- R122: the round functions act bit by bit, so on each part of a word alone. -/
theorem roundFn_append {m n : Nat} (fn : RoundFn) (x y z : BitVec m) (x' y' z' : BitVec n) :
    roundFn fn (x ++ x') (y ++ y') (z ++ z') = roundFn fn x y z ++ roundFn fn x' y' z' := by
  cases fn <;> simp only [roundFn, BitVec.and_append, BitVec.or_append, BitVec.xor_append, BitVec.not_append]

theorem roundFn_dup (fn : RoundFn) (x y z : Word) : roundFn fn (dup x) (dup y) (dup z) = dup (roundFn fn x y z) :=
  roundFn_append fn x y z x y z

/-- R138: a round function on the LanePair registers is the round function on each lane. -/
theorem roundFn_packLanes (fn : RoundFn) (x x' y y' z z' : Word) :
    roundFn fn (packLanes x x') (packLanes y y') (packLanes z z') =
      packLanes (roundFn fn x y z) (roundFn fn x' y' z') :=
  (roundFn_append fn (dup x') (dup y') (dup z') (dup x) (dup y) (dup z)).trans
    (by rw [roundFn_dup, roundFn_dup]; rfl)

/-- R139: the additions carry within a lane. -/
theorem addLanes_packLanes (x x' y y' : Word) :
    addLanes (packLanes x x') (packLanes y y') = packLanes (x + y) (x' + y') := by
  simp only [addLanes, laneA_packLanes, laneB_packLanes]

/-- R139: the rotation of both halves is the vector rotate of each lane's word. -/
theorem rotLanes_packLanes (x x' : Word) (r : Nat) : rotLanes (packLanes x x') r = packLanes (vrot x r) (vrot x' r) := by
  have hlo : loHalf (packLanes x x') = dup x := loHalf_pair ..
  have hhi : hiHalf (packLanes x x') = dup x' := hiHalf_pair ..
  rw [rotLanes, hlo, hhi, vrot, vrot]

/-- R48: the LanePair registers hold two scalar datapaths' registers, lane A's and lane B's. -/
structure PackedRegs (r : LaneRegs) (x y : ScalarRegs) : Prop where
  a : r.a = packLanes x.a y.a
  b : r.b = packLanes x.b y.b
  c : r.c = packLanes x.c y.c
  d : r.d = packLanes x.d y.d
  aa : r.aa = packLanes x.aa y.aa
  bb : r.bb = packLanes x.bb y.bb
  cc : r.cc = packLanes x.cc y.cc
  dd : r.dd = packLanes x.dd y.dd
  w : ∀ j, j < 16 → r.w.getD j 0 = packLanes (x.w.getD j 0) (y.w.getD j 0)

/-- R139: the interleaving load. -/
theorem packedRegs_startLanes (r : LaneRegs) (sA sB : Digest) (wA wB : List Word) :
    PackedRegs (startLanes (loadLanes r sA sB) wA wB) (loadScalar sA wA) (loadScalar sB wB) := by
  refine ⟨rfl, rfl, rfl, rfl, rfl, rfl, rfl, rfl, fun j hj => ?_⟩
  simp [startLanes, loadScalar, List.getD_eq_getElem?_getD, hj]

/-- R139: one step of the schedule steps each lane. -/
theorem packedRegs_laneStep {r : LaneRegs} {x y : ScalarRegs} (h : PackedRegs r x y) {row : StepRow}
    (hrow : row ∈ schedule) : PackedRegs (laneStep r row) (scalarStep rotl32 x row) (scalarStep rotl32 y row) := by
  obtain ⟨⟨h0, h32⟩, hidx⟩ := schedule_bounds row hrow
  have hb : (laneStep r row).b =
      packLanes (x.b + rotl32 (stepSum x row) row.rot) (y.b + rotl32 (stepSum y row) row.rot) := by
    simp only [laneStep, h.a, h.b, h.c, h.d, h.w _ hidx, roundFn_packLanes, addLanes_packLanes, rotLanes_packLanes,
      vrot_eq_rotl32 _ h0 h32, stepSum]
  exact ⟨h.d, hb, h.b, h.c, h.aa, h.bb, h.cc, h.dd, h.w⟩

theorem packedRegs_foldl {rows : List StepRow} (hrows : ∀ row ∈ rows, row ∈ schedule) {r : LaneRegs}
    {x y : ScalarRegs} (h : PackedRegs r x y) :
    PackedRegs (rows.foldl laneStep r) (rows.foldl (scalarStep rotl32) x) (rows.foldl (scalarStep rotl32) y) := by
  induction rows generalizing r x y with
  | nil => exact h
  | cons row rows ih =>
    exact ih (fun q hq => hrows q (List.mem_cons_of_mem _ hq))
      (packedRegs_laneStep h (hrows row List.mem_cons_self))

/-- R130, R139: the chaining addition on each lane. -/
theorem storeLanes_chainLanes {r : LaneRegs} {x y : ScalarRegs} (h : PackedRegs r x y) :
    storeLanes (chainLanes r) = (chainAdd x, chainAdd y) := by
  simp only [storeLanes, chainLanes, h.a, h.b, h.c, h.d, h.aa, h.bb, h.cc, h.dd, addLanes_packLanes, laneA_packLanes,
    laneB_packLanes, chainAdd]

/-- R140: the DualLaneVectorCore compresses each stream's block into its own state. -/
theorem compressDual_eq_compress (sA sB : Digest) (bA bB : List Byte) :
    compressDual sA sB bA bB = (compress sA bA, compress sB bB) :=
  storeLanes_chainLanes (packedRegs_foldl (fun _ h => h) (packedRegs_startLanes _ sA sB _ _))

/-! ## Chains of blocks -/

theorem chainOn_eq_chainN (core : CoreSel) (zd : Bool) (k : Nat) (st : Digest) (m : List Byte) :
    chainOn core zd k st m = chainN k st m := by
  induction k generalizing st m with
  | zero => rfl
  | succ k ih => rw [chainOn, chainN, ih, compressOn_eq_compress]

theorem chainZero_eq_chainN (core : CoreSel) (k : Nat) (st : Digest) :
    chainZero core k st = chainN k st (List.replicate (64 * k) 0) := by
  induction k generalizing st with
  | zero => rfl
  | succ k ih =>
    rw [chainZero, chainN, ih, compressZeroOn_eq_compress, List.take_replicate, List.drop_replicate,
      show min 64 (64 * (k + 1)) = 64 by omega, show 64 * (k + 1) - 64 = 64 * k by omega]

/-- R140: a dual-lane run chains each stream's blocks. -/
theorem dualBlocks_eq_chainN (m : Nat) (st : Digest × Digest) (dA dB : List Byte) :
    dualBlocks m st dA dB = (chainN m st.1 dA, chainN m st.2 dB) := by
  induction m generalizing st dA dB with
  | zero => rfl
  | succ m ih => rw [dualBlocks, ih, compressDual_eq_compress, chainN, chainN]

end Sys2Proof.Proofs
end

section
/-! The stream a context holds (10_state.md R27): BEGIN starts an empty one, and every run of bytes a command feeds or
compresses into a context is appended to it. -/

namespace Sys2Proof.Proofs

open Sys2Proof.Machine Sys2Proof.Laws

/-! ## One context -/

/-- R27: an ACTIVE or FINAL context holds some stream. -/
def HoldsStream (c : Ctx) : Prop := c.phase = .active ∨ c.phase = .final → ∃ m, Holds c m

theorem holdsStream_of_holds {c : Ctx} {m : List Byte} (h : Holds c m) : HoldsStream c := fun _ => ⟨m, h⟩

theorem holdsStream_of_inactive {c : Ctx} (ha : c.phase ≠ .active) (hf : c.phase ≠ .final) : HoldsStream c :=
  fun h => (h.elim ha hf).elim

/-- R24: what cannot be told apart holds the same stream. -/
theorem holds_of_sameCtx {c c' : Ctx} {m : List Byte} (h : SameCtx c c') (hm : Holds c' m) : Holds c m := by
  obtain ⟨hdig, hcount, -, hres⟩ := h
  exact ⟨hcount.trans hm.count, hdig.trans hm.dig, hres.trans hm.res⟩

theorem holdsStream_of_sameCtx {c c' : Ctx} (h : SameCtx c c') (hs : HoldsStream c') : HoldsStream c := fun hp => by
  have ⟨_, _, hphase, _⟩ := h
  obtain ⟨m, hm⟩ := hs (hphase ▸ hp)
  exact ⟨m, holds_of_sameCtx h hm⟩

/-- R27: a context whose digest is chained over the whole blocks of its residual followed by `data`, with the rest for
its residual, holds its stream followed by `data`. -/
theorem holds_append {c c' : Ctx} {m data : List Byte} (h : Holds c m)
    (hcount : c'.count = c.count + BitVec.ofNat 64 data.length)
    (hdig : c'.dig = chainBlocks c.dig (wholePart (validRes c ++ data)))
    (hres : validRes c' = tailPart (validRes c ++ data)) : Holds c' (m ++ data) := by
  have hm : m ++ data = wholePart m ++ (validRes c ++ data) := by
    rw [h.res, ← List.append_assoc, wholePart_append_tailPart]
  refine ⟨?_, ?_, ?_⟩
  · rw [hcount, h.count, List.length_append, BitVec.ofNat_add]
  · rw [hdig, h.dig, hm, wholePart_append _ _ (wholePart_length_mod m), chainBlocks_append _ _ _ (wholePart_length_mod m)]
  · rw [hres, hm, tailPart_append _ _ (wholePart_length_mod m)]

/-- R170: BEGIN starts the empty stream. -/
theorem holds_begunCtx (c : Ctx) : Holds (begunCtx c) [] :=
  ⟨rfl, rfl, by simp [validRes, resLen, begunCtx, tailPart]⟩

/-- R175: the bytes fed to a context join its stream. -/
theorem holds_feed (core : CoreSel) (zd : Bool) (copy : Nat → Bool) {c : Ctx} {m : List Byte} (data : List Byte)
    (hres : c.res.length = 64) (h : Holds c m) : Holds (feed core zd copy data c) (m ++ data) := by
  obtain ⟨hdig, hval, -, hcount, -⟩ := feed_spec core zd copy data c hres
  exact holds_append h hcount (by rw [hdig, chainOn_eq_chainN, chainBlocks_wholePart]) hval

/-- R180: END appends the pad of the counter. -/
theorem holds_finalCtx (core : CoreSel) (zd : Bool) {c : Ctx} {m : List Byte} (hres : c.res.length = 64)
    (h : Holds c m) : Holds (finalCtx core zd c) (m ++ padBytes c.count) :=
  have hf := holds_feed core zd (fun _ => false) (padBytes c.count) hres h
  ⟨hf.count, hf.dig, hf.res⟩

theorem validRes_of_resLen_zero {c : Ctx} (h : resLen c = 0) : validRes c = [] := by
  rw [validRes, h, List.take_zero]

theorem wholePart_of_mod {data : List Byte} (h : data.length % 64 = 0) : wholePart data = data := by
  rw [wholePart, show 64 * (data.length / 64) = data.length by omega, List.take_length]

theorem tailPart_of_mod {data : List Byte} (h : data.length % 64 = 0) : tailPart data = [] := by
  rw [tailPart, show 64 * (data.length / 64) = data.length by omega, List.drop_length]

/-- R145, R148, R151: whole blocks chained into a context with no residual join its stream. -/
theorem holds_advanceCtx {c : Ctx} {m data : List Byte} (hr : resLen c = 0) (hd : data.length % 64 = 0)
    (h : Holds c m) : Holds (advanceCtx c (chainN (data.length / 64) c.dig data) data.length) (m ++ data) := by
  have hr' : resLen (advanceCtx c (chainN (data.length / 64) c.dig data) data.length) = 0 := by
    unfold resLen at hr
    simp only [resLen, advanceCtx, BitVec.toNat_add, BitVec.toNat_ofNat]
    omega
  refine holds_append h rfl ?_ ?_
  · rw [validRes_of_resLen_zero hr, List.nil_append, wholePart_of_mod hd]
    rfl
  · rw [validRes_of_resLen_zero hr, validRes_of_resLen_zero hr', List.nil_append, tailPart_of_mod hd]

theorem holds_compressedCtx (core : CoreSel) (zd : Bool) {c : Ctx} {m data : List Byte} (hr : resLen c = 0)
    (hd : data.length % 64 = 0) (h : Holds c m) : Holds (compressedCtx core zd data c) (m ++ data) := by
  rw [compressedCtx, chainOn_eq_chainN]
  exact holds_advanceCtx hr hd h

/-- R148: the zero bytes of ZCOMPRESS join the stream. -/
theorem holds_zeroCtx (core : CoreSel) {c : Ctx} {m : List Byte} {len : Nat} (hr : resLen c = 0) (hl : len % 64 = 0)
    (h : Holds c m) : Holds (advanceCtx c (chainZero core (len / 64) c.dig) len) (m ++ List.replicate len 0) := by
  obtain ⟨k, rfl⟩ := Nat.dvd_of_mod_eq_zero hl
  have hz := holds_advanceCtx (data := List.replicate (64 * k) 0) hr (by rwa [List.length_replicate]) h
  rw [List.length_replicate, Nat.mul_div_cancel_left k (by decide), ← chainZero_eq_chainN core] at hz
  rwa [Nat.mul_div_cancel_left k (by decide)]

/-! ## The dual commands, stream by stream -/

/-- R177, R201: blocks taken early, by the common run, change neither the digest nor the bytes left for the residual. -/
theorem fedFinish_resume (core : CoreSel) (zd : Bool) (copy : Nat → Bool) {data : List Byte} {f : Fed} {m : Nat}
    (hm : f.p + 64 * m ≤ data.length) (hr : f.res.length = 64) :
    let g : Fed := { f with dig := chainN m f.dig (data.drop f.p), p := f.p + 64 * m }
    (fedFinish core zd copy data g).dig = (fedFinish core zd copy data f).dig ∧
      (fedFinish core zd copy data g).res.take ((data.length - f.p) % 64) =
        (fedFinish core zd copy data f).res.take ((data.length - f.p) % 64) := by
  intro g
  obtain ⟨gdig, -, gtail, -⟩ := fedFinish_spec core zd copy data g hm hr
  obtain ⟨fdig, -, ftail, -⟩ := fedFinish_spec core zd copy data f (by omega) hr
  simp only [g] at gdig gtail
  constructor
  · rw [gdig, fdig, chainOn_eq_chainN, chainOn_eq_chainN, ← List.drop_drop, ← chainN_add]
    congr 1
    omega
  · rcases Nat.eq_or_lt_of_le hm with he | hlt
    · rw [show (data.length - f.p) % 64 = 0 by omega, List.take_zero, List.take_zero]
    · rw [ftail (by omega), show (data.length - f.p) % 64 = (data.length - (f.p + 64 * m)) % 64 by omega, gtail hlt]
      congr 1
      omega

/-- R201, R202: a stream of the coordinator, after a common run of `m` of its open blocks, ends as PROCESS ends it. -/
theorem sameCtx_feed_resume (core : CoreSel) (zd : Bool) (copy : Nat → Bool) {data : List Byte} {c : Ctx} {m : Nat}
    (hres : c.res.length = 64) (hm : m ≤ fedOpen data (fedTopUp core zd data c)) :
    let f := fedTopUp core zd data c
    SameCtx (storeFed c data.length (fedFinish core zd copy data
      { f with dig := chainN m f.dig (data.drop f.p), p := f.p + 64 * m })) (feed core zd copy data c) := by
  intro f
  obtain ⟨hr, hp, hcase⟩ := fedTopUp_spec core zd data c hres
  rcases hcase with ⟨h0, j, hj, -, -⟩ | ⟨h0, -⟩
  · have hb : f.p + 64 * m ≤ data.length := by
      rw [fedOpen, if_pos h0] at hm
      show (fedTopUp core zd data c).p + 64 * m ≤ data.length
      omega
    have hmod : (c.count + BitVec.ofNat 64 data.length).toNat % 64 = (data.length - f.p) % 64 := by
      show _ = (data.length - (fedTopUp core zd data c).p) % 64
      unfold resLen at hj
      rw [BitVec.toNat_add, BitVec.toNat_ofNat]
      omega
    obtain ⟨hdig, htake⟩ := fedFinish_resume core zd copy hb hr
    refine ⟨hdig, rfl, rfl, ?_⟩
    simp only [validRes, resLen, feed, storeFed, hmod]
    exact htake
  · have hm0 : m = 0 := by rwa [fedOpen, if_neg h0, Nat.le_zero] at hm
    subst hm0
    exact ⟨rfl, rfl, rfl, rfl⟩

/-- R202: PROCESS_DUAL leaves each context as PROCESS on its own stream does. -/
theorem sameCtx_fedPair (core : CoreSel) (zd : Bool) (copyA copyB : Nat → Bool) (dA dB : List Byte) {cA cB : Ctx}
    (hA : cA.res.length = 64) (hB : cB.res.length = 64) :
    SameCtx (fedPair core zd copyA copyB dA dB cA cB).1 (feed core zd copyA dA cA) ∧
      SameCtx (fedPair core zd copyA copyB dA dB cA cB).2 (feed core zd copyB dB cB) := by
  simp only [fedPair, dualBlocks_eq_chainN]
  exact ⟨sameCtx_feed_resume core zd copyA hA (Nat.min_le_left _ _),
    sameCtx_feed_resume core zd copyB hB (Nat.min_le_right _ _)⟩

/-- R152: COMPRESS_DUAL leaves each context as COMPRESS on its own stream does. -/
theorem compressedPair_eq (core : CoreSel) (zd : Bool) {dA dB : List Byte} (hl : dA.length = dB.length) (cA cB : Ctx) :
    compressedPair dA dB cA cB = (compressedCtx core zd dA cA, compressedCtx core zd dB cB) := by
  simp only [compressedPair, compressedCtx, dualBlocks_eq_chainN, chainOn_eq_chainN, hl]

end Sys2Proof.Proofs
end

section
/-! What a step can do, said once: the engine's turn runs a command to its completion or waits; an event of the host or
the platform accepts a command, resets the engine, or leaves contexts, sequencer and BUSY alone. -/

namespace Sys2Proof.Proofs

open Sys2Proof.Machine Sys2Proof.Laws

/-! ## The engine's turn -/

/-- What a step that gives the engine its turn ends in, from the state `s` without the entry of the schedule. -/
inductive EngineNext (s : State) : State → Prop
  /-- R262: an idle engine waits. -/
  | waits (h : s.status.busy = false) : EngineNext s s
  /-- R97, R226: an illegal word completes with ERR_ENCODING. -/
  | illegal (h : s.status.busy = true) : EngineNext s (complete .encoding .c0 s)
  /-- R105: a legal word is executed. -/
  | runs (h : s.status.busy = true) {i : Instr} (hi : decode s.seq.cmd = .ok i) {t : State} (ht : exec i s = .next t) :
      EngineNext s t

theorem engineTurn_next {s t : State} (h : engineTurn s = .next t) : EngineNext s t := by
  unfold engineTurn at h
  split at h
  · rename_i hb
    unfold runCommand at h
    split at h
    · exact .runs hb ‹_› h
    · cases h
      exact .illegal hb
  · rename_i hb
    cases h
    exact .waits (Bool.eq_false_of_not_eq_true hb)

/-- The state with the first entry of the schedule taken off. -/
def tookInput (s : State) : State := { s with inputs := s.inputs.tail }

@[simp] theorem getCtx_tookInput (s : State) (n : CtxId) : getCtx (tookInput s) n = getCtx s n := by cases n <;> rfl

@[simp] theorem tookInput_status (s : State) : (tookInput s).status = s.status := rfl

/-- A step is the engine's turn or the event at the head of the schedule. -/
theorem step_next {s t : State} (h : step s = .next t) :
    EngineNext (tookInput s) t ∨ ∃ e, s.inputs.head? = some (.host e) ∧ hostEvent e (tookInput s) = .next t := by
  unfold step at h
  unfold tookInput
  split at h
  · rename_i hi
    refine .inl (engineTurn_next ?_)
    rwa [hi, List.tail_nil, ← hi]
  · rename_i rest hi
    refine .inl (engineTurn_next ?_)
    rwa [hi, List.tail_cons]
  · rename_i e rest hi
    refine .inr ⟨e, by rw [hi, List.head?_cons], ?_⟩
    rwa [hi, List.tail_cons]

/-! ## The host's events -/

/-- What an event that is neither an accept nor a RESET leaves: contexts, sequencer, working registers and BUSY as they
were, no new completion or error, memory in its canonical form, and no race with an idle engine. -/
structure EngineKept (s t : State) : Prop where
  c0 : t.c0 = s.c0
  c1 : t.c1 = s.c1
  seq : t.seq = s.seq
  work : t.work = s.work
  busy : t.status.busy = s.status.busy
  done : s.status.done = false → t.status.done = false
  errcode : t.status.errcode = s.status.errcode
  errctx : t.status.errctx = s.status.errctx
  mem : Memory.wf s.mem → Memory.wf t.mem
  raced : s.status.busy = false → s.raced = [] → t.raced = []

theorem regWrite_next {s t : State} {off width : Nat} {v : Word} (h : hostEvent (.regWrite off width v) s = .next t) :
    width = 4 ∧ accessOk off 4 = true ∧ t = writeReg (regAt off) v s := by
  simp only [hostEvent] at h
  split at h
  · rename_i ho
    obtain ⟨rfl, -⟩ := accessOk_iff.mp ho
    cases h
    exact ⟨rfl, ho, rfl⟩
  · cases h

/-- A register access that is not refused is to one of its 32 words. -/
theorem eq_of_accessOk {off : Nat} (h : accessOk off 4 = true) : ∃ k, k < 32 ∧ off = 4 * k := by
  obtain ⟨-, hm, hl⟩ := accessOk_iff.mp h
  exact ⟨off / 4, by omega, by omega⟩

/-- R40: CMD and STATUS stand at one offset each. -/
theorem regAt_control : ∀ k < 32, (regAt (4 * k) = .cmd → 4 * k = 0x000) ∧ (regAt (4 * k) = .status → 4 * k = 0x004) := by
  decide

theorem eq_of_regAt_cmd {off : Nat} (ho : accessOk off 4 = true) (h : regAt off = .cmd) : off = 0x000 := by
  obtain ⟨k, hk, rfl⟩ := eq_of_accessOk ho
  exact (regAt_control k hk).1 h

theorem eq_of_regAt_status {off : Nat} (ho : accessOk off 4 = true) (h : regAt off = .status) : off = 0x004 := by
  obtain ⟨k, hk, rfl⟩ := eq_of_accessOk ho
  exact (regAt_control k hk).2 h

/-- R30, R33, R34, R39, R103: every register write but an accepted CMD. -/
theorem engineKept_writeReg {r : Reg} (v : Word) {s : State} (h : r = .cmd → s.status.busy = true) :
    EngineKept s (writeReg r v s) := by
  cases r with
  | cmd =>
    rw [writeReg, writeCmd, if_pos (h rfl)]
    exact ⟨rfl, rfl, rfl, rfl, rfl, id, rfl, rfl, id, fun _ => id⟩
  | status => exact ⟨rfl, rfl, rfl, rfl, rfl, fun hd => by simp [writeReg, statusWrite, hd], rfl, rfl, id, fun _ => id⟩
  | _ => exact ⟨rfl, rfl, rfl, rfl, rfl, id, rfl, rfl, id, fun _ => id⟩

/-- Everything an event of the host or the platform can do. -/
theorem hostEvent_cases {e : HostEvent} {s t : State} (h : hostEvent e s = .next t) :
    EngineKept s t ∨ (∃ v, e = .regWrite 0x000 4 v ∧ s.status.busy = false ∧ t = accept v s) ∨
      (e = .reset ∧ t = resetEngine s) := by
  cases e with
  | regWrite off width v =>
    obtain ⟨rfl, ho, rfl⟩ := regWrite_next h
    by_cases hc : regAt off = .cmd ∧ s.status.busy = false
    · obtain ⟨hr, hb⟩ := hc
      refine .inr (.inl ⟨v, by rw [eq_of_regAt_cmd ho hr], hb, ?_⟩)
      rw [hr, writeReg, writeCmd, if_neg (by simp [hb])]
    · exact .inl (engineKept_writeReg v fun hr => by simpa [hr] using hc)
  | regRead off width =>
    simp only [hostEvent] at h
    split at h <;> cases h
    exact .inl ⟨rfl, rfl, rfl, rfl, rfl, id, rfl, rfl, id, fun _ => id⟩
  | memStore a b =>
    simp only [hostEvent] at h
    split at h
    · cases h
    · rename_i ha
      split at h <;> cases h
      exact .inl ⟨rfl, rfl, rfl, rfl, rfl, id, rfl, rfl, memSet_wf b (Nat.not_le.mp ha),
        fun hb hr => by simp [hostStore, hb, hr]⟩
  | publish =>
    cases h
    exact .inl ⟨rfl, rfl, rfl, rfl, rfl, id, rfl, rfl, id, fun hb hr => by simp [publishStores, hb, hr]⟩
  | busMap rs =>
    cases h
    exact .inl ⟨rfl, rfl, rfl, rfl, rfl, id, rfl, rfl, id, fun _ => id⟩
  | reset =>
    cases h
    exact .inr (.inr ⟨rfl, rfl⟩)

theorem getCtx_of_engineKept {s t : State} (h : EngineKept s t) (n : CtxId) : getCtx t n = getCtx s n := by
  cases n
  · exact h.c0
  · exact h.c1

/-! ## Contexts, phases and OVR over a step -/

/-- Settles O12: of the events, only RESET writes a context and only it and an accepted CMD write the sequencer. -/
theorem hostCannotWriteContexts : Obligations.HostCannotWriteContexts := by
  intro s t e rest hin hne hstep
  rw [step_host hin] at hstep
  rcases hostEvent_cases hstep with hk | ⟨v, rfl, -, rfl⟩ | ⟨rfl, -⟩
  · exact ⟨hk.c0, hk.c1, fun _ => ⟨hk.seq, hk.busy⟩⟩
  · exact ⟨rfl, rfl, fun h => absurd rfl (h v)⟩
  · exact absurd rfl hne

/-- Settles O9: a command's next state is a completion after writes of the contexts it uses. -/
theorem commandFrame : Obligations.CommandFrame := by
  intro i s t h
  obtain ⟨code, c, u, rfl, hw, -, hctx⟩ := exec_next h
  obtain ⟨hmem, -⟩ := outside_complete hw code c
  refine ⟨outside_complete hw code c, fun a => by rw [hmem], fun n hn => ?_⟩
  rw [getCtx_complete]
  rcases hctx n with hsame | ⟨hu, -⟩
  · exact hsame
  · rw [hn] at hu
    cases hu

/-- R26: the phase changes of a command. -/
theorem exec_phase {i : Instr} {s t : State} (h : exec i s = .next t) (n : CtxId) :
    (getCtx t n).phase = (getCtx s n).phase ∨
      (∃ k, i = .beginCtx n k ∧ (getCtx t n).phase = .active) ∨
      (∃ k, i = .endCtx n k ∧ (getCtx s n).phase = .active ∧ (getCtx t n).phase = .final) ∨
      (instrUses i n = true ∧ (getCtx s n).phase = .active ∧ (getCtx t n).phase = .fault ∧ t.status.errcode = .bus) := by
  obtain ⟨code, c, u, rfl, -, -, hctx⟩ := exec_next h
  rw [getCtx_complete, complete_status, statusComplete_errcode]
  rcases hctx n with hsame | ⟨hu, ⟨k, hi, hb⟩ | ⟨hact, ⟨hcode, hf⟩ | ⟨-, hp | ⟨k, hi, hp⟩⟩⟩⟩
  · exact .inl (by rw [hsame])
  · exact .inr (.inl ⟨k, hi, by rw [hb]; rfl⟩)
  · exact .inr (.inr (.inr ⟨hu, hact, by rw [hf]; rfl, hcode⟩))
  · exact .inl (hp.trans hact.symm)
  · exact .inr (.inr (.inl ⟨k, hi, hact, hp⟩))

/-- Settles O10: only RESET and the running command change a phase. -/
theorem phaseTransitions : Obligations.PhaseTransitions := by
  intro s t n hstep
  rcases step_next hstep with heng | ⟨e, he, hev⟩
  · cases heng with
    | waits => exact .inl (by rw [getCtx_tookInput])
    | illegal => exact .inl (by rw [getCtx_complete, getCtx_tookInput])
    | runs hb hi ht =>
      have hp := exec_phase ht n
      rw [getCtx_tookInput] at hp
      exact hp.imp id fun hp => .inr ⟨hb, _, hi, hp⟩
  · rcases hostEvent_cases hev with hk | ⟨v, -, -, rfl⟩ | ⟨rfl, rfl⟩
    · exact .inl (by rw [getCtx_of_engineKept hk, getCtx_tookInput])
    · exact .inl (by rw [getCtx_accept, getCtx_tookInput])
    · exact .inr (.inl ⟨he, by rw [getCtx_resetEngine]; rfl⟩)

/-- R103: no turn of the engine touches OVR. -/
theorem ovr_of_engineNext {s t : State} (h : EngineNext s t) : t.status.ovr = s.status.ovr := by
  cases h with
  | waits => rfl
  | illegal => rfl
  | runs _ _ ht =>
    obtain ⟨-, -, -, hovr, -⟩ := (commandFrame _ _ _ ht).1
    exact hovr

/-- R33: of the register writes only STATUS clears OVR, where the value written has bit 2 set. -/
theorem writeReg_ovr_cleared {r : Reg} {v : Word} {s : State} (hs : s.status.ovr = true)
    (ht : (writeReg r v s).status.ovr = false) : r = .status ∧ v.getLsbD 2 = true := by
  cases r with
  | cmd =>
    simp only [writeReg, writeCmd] at ht
    split at ht <;> simp [statusOverrun, hs] at ht
  | status => exact ⟨rfl, by simpa [writeReg, statusWrite, hs] using ht⟩
  | _ => exact absurd (hs.symm.trans ht) (by decide)

/-- R103: of the register writes only CMD sets OVR, while BUSY = 1. -/
theorem writeReg_ovr_set {r : Reg} {v : Word} {s : State} (hs : s.status.ovr = false)
    (ht : (writeReg r v s).status.ovr = true) : r = .cmd ∧ s.status.busy = true := by
  cases r with
  | cmd =>
    refine ⟨rfl, Bool.of_not_eq_false fun hb => ?_⟩
    simp [writeReg, writeCmd, hb, hs] at ht
  | status => simp [writeReg, statusWrite, hs] at ht
  | _ => exact absurd (hs.symm.trans ht) (by decide)

/-- Settles O13: OVR moves by a register write to STATUS or CMD, or by RESET. -/
theorem overrunIsSticky : Obligations.OverrunIsSticky := by
  intro s t hstep
  rcases step_next hstep with heng | ⟨e, he, hev⟩
  · have hovr : t.status.ovr = s.status.ovr := by rw [ovr_of_engineNext heng, tookInput_status]
    constructor <;> intro hs ht <;> rw [hovr, hs] at ht <;> cases ht
  · rw [he]
    cases e with
    | regWrite off width v =>
      obtain ⟨rfl, ho, rfl⟩ := regWrite_next hev
      constructor <;> intro hs ht
      · obtain ⟨hr, hv⟩ := writeReg_ovr_cleared (s := tookInput s) hs ht
        exact .inr ⟨v, by rw [eq_of_regAt_status ho hr], hv⟩
      · obtain ⟨hr, hb⟩ := writeReg_ovr_set (s := tookInput s) hs ht
        exact ⟨hb, v, by rw [eq_of_regAt_cmd ho hr]⟩
    | reset =>
      cases hev
      exact ⟨fun _ _ => .inl rfl, fun _ ht => by cases ht⟩
    | _ =>
      obtain ⟨-, -, -, hst, -⟩ := hostEvent_frame hev (by simp) (by simp)
      have hovr : t.status.ovr = s.status.ovr := by rw [hst, tookInput_status]
      constructor <;> intro hs ht <;> rw [hovr, hs] at ht <;> cases ht

end Sys2Proof.Proofs
end

section
/-! The machine's invariant and the chaining invariant of the streams (10_state.md R27): every step keeps both, and both
hold at reset. -/

namespace Sys2Proof.Proofs

open Sys2Proof.Machine Sys2Proof.Laws

/-! ## The machine's invariant -/

theorem inv_tookInput {s : State} (h : Inv s) : Inv (tookInput s) :=
  ⟨h.mem, fun n => by rw [getCtx_tookInput]; exact h.res n, h.busy, h.errctx, h.raced,
    fun hb x => match x with | .a => h.pos hb .a | .b => h.pos hb .b, h.pad, h.words⟩

theorem inv_of_engineKept {s t : State} (hs : Inv s) (h : EngineKept s t) : Inv t where
  mem := h.mem hs.mem
  res n := by rw [getCtx_of_engineKept h]; exact hs.res n
  busy hb := by
    obtain ⟨hd, he⟩ := hs.busy (h.busy ▸ hb)
    exact ⟨h.done hd, h.errcode.trans he⟩
  errctx he := h.errctx.trans (hs.errctx (h.errcode ▸ he))
  raced hb := by
    rw [h.busy] at hb
    exact h.raced hb (hs.raced hb)
  pos hb x := by
    have hp := hs.pos (h.busy ▸ hb) x
    cases x <;> simpa only [posOf, lenOf, h.seq] using hp
  pad := by rw [h.seq]; exact hs.pad
  words := by rw [h.work]; exact hs.words

/-- R104: an accept starts with both offsets at 0. -/
theorem inv_accept {s : State} (v : Word) (hs : Inv s) : Inv (accept v s) where
  mem := hs.mem
  res n := by rw [getCtx_accept]; exact hs.res n
  busy _ := ⟨rfl, rfl⟩
  errctx _ := rfl
  raced _ := rfl
  pos _ x := by rw [posOf_accept]; exact Nat.zero_le _
  pad := hs.pad
  words := hs.words

theorem inv_resetEngine {s : State} (hs : Inv s) : Inv (resetEngine s) where
  mem := hs.mem
  res n := by rw [getCtx_resetEngine]; rfl
  busy hb := by cases hb
  errctx _ := rfl
  raced _ := rfl
  pos hb := by cases hb
  pad := Nat.zero_le _
  words := ⟨rfl, rfl⟩

/-- R107: a completion keeps the invariant when the contexts still have their residual buffers and the report names a
context only where R221 has one. -/
theorem inv_complete {s u : State} {code : ErrCode} {c : CtxId} (hs : Inv s) (hw : CtxWrite s u)
    (hres : ∀ n, (getCtx u n).res.length = 64)
    (hc : code ∈ [ErrCode.none, ErrCode.encoding, ErrCode.lenMismatch] → c = .c0) : Inv (complete code c u) where
  mem := by
    obtain ⟨hmem, -⟩ := outside_complete hw code c
    rw [hmem]
    exact hs.mem
  res n := by rw [getCtx_complete]; exact hres n
  busy hb := by cases hb
  errctx := hc
  raced _ := rfl
  pos hb := by cases hb
  pad := by simp [freeSeq]
  words := by simp [freeWork]

theorem faultCtx_res_length (d : Nat) (n : CtxId) : (faultCtx d n).res.length = 64 := by
  simp [faultCtx]

/-- R24: whatever a command makes of a context, its residual buffer has 64 bytes. -/
theorem res_length_of_ctxOutcome {i : Instr} {s : State} {c : Ctx} {code : ErrCode} {n : CtxId}
    (hs : (getCtx s n).res.length = 64) (h : CtxOutcome i s c code n) : c.res.length = 64 := by
  rcases h with rfl | ⟨-, ⟨k, -, rfl⟩ | ⟨-, ⟨-, rfl⟩ | ⟨hkeep, -⟩⟩⟩
  · exact hs
  · exact hs
  · exact faultCtx_res_length _ _
  · exact hkeep hs

theorem inv_exec {i : Instr} {s t : State} (hs : Inv s) (h : exec i s = .next t) : Inv t := by
  obtain ⟨code, c, u, rfl, hw, ⟨hc, -⟩, hctx⟩ := exec_next h
  exact inv_complete hs hw (fun n => res_length_of_ctxOutcome (hs.res n) (hctx n)) hc

theorem inv_engineNext {s t : State} (hs : Inv s) (h : EngineNext s t) : Inv t := by
  cases h with
  | waits => exact hs
  | illegal => exact inv_complete hs (ctxWrite_refl s) hs.res fun _ => rfl
  | runs _ _ ht => exact inv_exec hs ht

theorem inv_hostEvent {e : HostEvent} {s t : State} (hs : Inv s) (h : hostEvent e s = .next t) : Inv t := by
  rcases hostEvent_cases h with hk | ⟨v, -, -, rfl⟩ | ⟨-, rfl⟩
  · exact inv_of_engineKept hs hk
  · exact inv_accept v hs
  · exact inv_resetEngine hs

theorem inv_step {s t : State} (hs : Inv s) (h : step s = .next t) : Inv t := by
  rcases step_next h with heng | ⟨e, -, hev⟩
  · exact inv_engineNext (inv_tookInput hs) heng
  · exact inv_hostEvent (inv_tookInput hs) hev

/-! ## The streams -/

theorem streamsHeld_of_getCtx {s t : State} (hs : StreamsHeld s) (h : ∀ n, getCtx t n = getCtx s n) : StreamsHeld t :=
  fun n => by rw [h n]; exact hs n

theorem streamsHeld_complete {s : State} (e : ErrCode) (c : CtxId) (hs : StreamsHeld s) : StreamsHeld (complete e c s) :=
  streamsHeld_of_getCtx hs fun n => getCtx_complete e c s n

theorem streamsHeld_setCtx {s : State} {n : CtxId} {c : Ctx} (hs : StreamsHeld s) (hc : HoldsStream c) :
    StreamsHeld (setCtx s n c) := fun m => by
  by_cases hm : m = n
  · subst hm
    rw [getCtx_setCtx_same]
    exact hc
  · rw [getCtx_setCtx_ne s c hm]
    exact hs m

/-- R232: a context in FAULT need hold no stream. -/
theorem streamsHeld_faultAt {s : State} (n : CtxId) (hs : StreamsHeld s) : StreamsHeld (faultAt n s) :=
  streamsHeld_setCtx hs (holdsStream_of_inactive (by simp [faultCtx]) (by simp [faultCtx]))

theorem streamsHeld_singleOutcome {s : State} {n : CtxId} {r : Option Ctx} (hs : StreamsHeld s)
    (hr : ∀ c, r = some c → HoldsStream c) : StreamsHeld (singleOutcome n s r) := by
  cases r with
  | none => exact streamsHeld_complete _ _ (streamsHeld_faultAt n hs)
  | some c => exact streamsHeld_complete _ _ (streamsHeld_setCtx hs (hr c rfl))

theorem streamsHeld_pairOutcome {s : State} {r : Option Ctx × Option Ctx} (hs : StreamsHeld s)
    (ha : ∀ c, r.1 = some c → HoldsStream c) (hb : ∀ c, r.2 = some c → HoldsStream c) :
    StreamsHeld (pairOutcome r s) := by
  obtain ⟨_ | a, _ | b⟩ := r <;> apply streamsHeld_complete
  · exact streamsHeld_faultAt _ (streamsHeld_faultAt _ hs)
  · exact streamsHeld_faultAt _ (streamsHeld_setCtx hs (hb b rfl))
  · exact streamsHeld_faultAt _ (streamsHeld_setCtx hs (ha a rfl))
  · exact streamsHeld_setCtx (streamsHeld_setCtx hs (ha a rfl)) (hb b rfl)

/-- R201, R202: the contexts of PROCESS_DUAL hold streams. -/
theorem holdsStream_processCtxs (core : CoreSel) {s : State} (hres : ∀ n, (getCtx s n).res.length = 64) {mA mB : List Byte}
    (hA : Holds s.c0 mA) (hB : Holds s.c1 mB) :
    (∀ c, (processCtxs core s).1 = some c → HoldsStream c) ∧ (∀ c, (processCtxs core s).2 = some c → HoldsStream c) := by
  have rA : s.c0.res.length = 64 := hres .c0
  have rB : s.c1.res.length = 64 := hres .c1
  unfold processCtxs
  split <;> constructor <;> rintro c ⟨⟩
  · exact holdsStream_of_sameCtx (sameCtx_fedPair core _ _ _ _ _ rA rB).1 (holdsStream_of_holds (holds_feed _ _ _ _ rA hA))
  · exact holdsStream_of_sameCtx (sameCtx_fedPair core _ _ _ _ _ rA rB).2 (holdsStream_of_holds (holds_feed _ _ _ _ rB hB))
  · exact holdsStream_of_holds (holds_feed _ _ _ _ rA hA)
  · exact holdsStream_of_holds (holds_feed _ _ _ _ rB hB)

/-- R145: whole blocks read from a source region and compressed leave a context that holds a stream. -/
theorem holdsStream_compressedCtx {s : State} {x : Stream} {d m : List Byte} {c : Ctx} (hd : readSource s x = some d)
    (hl : lenOf s x % 64 = 0) (hr : resLen c = 0) (hm : Holds c m) (core : CoreSel) (zd : Bool) :
    HoldsStream (compressedCtx core zd d c) :=
  holdsStream_of_holds (holds_compressedCtx core zd hr (by rw [readSource_length hd, hl]) hm)

/-- R151, R152: the contexts of COMPRESS_DUAL hold streams. -/
theorem holdsStream_compressCtxs {s : State} (hl : lenOf s .a % 64 = 0) (hab : lenOf s .a = lenOf s .b)
    (rA : resLen s.c0 = 0) (rB : resLen s.c1 = 0) {mA mB : List Byte} (hA : Holds s.c0 mA) (hB : Holds s.c1 mB) :
    (∀ c, (compressCtxs s).1 = some c → HoldsStream c) ∧ (∀ c, (compressCtxs s).2 = some c → HoldsStream c) := by
  have hlB : lenOf s .b % 64 = 0 := hab ▸ hl
  unfold compressCtxs
  split <;> constructor <;> rintro c ⟨⟩
  · rename_i dA dB ha hb
    rw [compressedPair_eq .scalar s.params.zeroDetect (by rw [readSource_length ha, readSource_length hb, hab])]
    exact holdsStream_compressedCtx ha hl rA hA _ _
  · rename_i dA dB ha hb
    rw [compressedPair_eq .scalar s.params.zeroDetect (by rw [readSource_length ha, readSource_length hb, hab])]
    exact holdsStream_compressedCtx hb hlB rB hB _ _
  · exact holdsStream_compressedCtx ‹_› hl rA hA _ _
  · exact holdsStream_compressedCtx ‹_› hlB rB hB _ _

/-! ## The checks a command has passed (R225), as propositions -/

theorem firstError_nil : firstError [] = none := rfl

theorem firstError_cons_eq_none {p : Prop} [Decidable p] {e : ErrCode × CtxId} {l : List Check} :
    firstError ((decide p, e) :: l) = none ↔ p ∧ firstError l = none := by
  by_cases h : p <;> simp [firstError, h]

theorem passed_process_iff {n : CtxId} {core : CoreSel} {s : State} :
    firstError (checksOf (.process n core) s) = none ↔
      (getCtx s n).phase = .active ∧ (lenOf s .a = 0 ∨ srcOf s .a + lenOf s .a ≤ 2 ^ 64) := by
  simp only [checksOf, firstError_cons_eq_none, firstError_nil, and_true]

theorem passed_endCtx_iff {n : CtxId} {core : CoreSel} {s : State} :
    firstError (checksOf (.endCtx n core) s) = none ↔ (getCtx s n).phase = .active := by
  simp only [checksOf, firstError_cons_eq_none, firstError_nil, and_true]

theorem passed_compress_iff {n : CtxId} {core : CoreSel} {s : State} :
    firstError (checksOf (.compress n core) s) = none ↔
      (getCtx s n).phase = .active ∧ (lenOf s .a ≠ 0 ∧ lenOf s .a % 64 = 0) ∧ resLen (getCtx s n) = 0 ∧
        (lenOf s .a = 0 ∨ srcOf s .a + lenOf s .a ≤ 2 ^ 64) := by
  simp only [checksOf, firstError_cons_eq_none, firstError_nil, and_true, resLen]

theorem passed_zcompress_iff {n : CtxId} {core : CoreSel} {s : State} :
    firstError (checksOf (.zcompress n core) s) = none ↔
      (getCtx s n).phase = .active ∧ (lenOf s .a ≠ 0 ∧ lenOf s .a % 64 = 0) ∧ resLen (getCtx s n) = 0 := by
  simp only [checksOf, firstError_cons_eq_none, firstError_nil, and_true, resLen]

theorem passed_processDual_iff {core : CoreSel} {s : State} :
    firstError (checksOf (.processDual core) s) = none ↔
      (getCtx s .c0).phase = .active ∧ (getCtx s .c1).phase = .active ∧ lenOf s .a = lenOf s .b ∧
        (lenOf s .a = 0 ∨ srcOf s .a + lenOf s .a ≤ 2 ^ 64) ∧ (lenOf s .b = 0 ∨ srcOf s .b + lenOf s .b ≤ 2 ^ 64) := by
  simp only [checksOf, firstError_cons_eq_none, firstError_nil, and_true]

theorem passed_compressDual_iff {core : CoreSel} {s : State} :
    firstError (checksOf (.compressDual core) s) = none ↔
      (getCtx s .c0).phase = .active ∧ (getCtx s .c1).phase = .active ∧ lenOf s .a = lenOf s .b ∧
        (lenOf s .a ≠ 0 ∧ lenOf s .a % 64 = 0) ∧ resLen (getCtx s .c0) = 0 ∧ resLen (getCtx s .c1) = 0 ∧
        (lenOf s .a = 0 ∨ srcOf s .a + lenOf s .a ≤ 2 ^ 64) ∧ (lenOf s .b = 0 ∨ srcOf s .b + lenOf s .b ≤ 2 ^ 64) := by
  simp only [checksOf, firstError_cons_eq_none, firstError_nil, and_true, resLen]

/-! ## The streams over a step -/

/-- R27: a command that passed its checks keeps the streams. -/
theorem streamsHeld_bodyOf {i : Instr} {s t : State} (hc : firstError (checksOf i s) = none)
    (hres : ∀ n, (getCtx s n).res.length = 64) (hs : StreamsHeld s) (h : bodyOf i s = .next t) : StreamsHeld t := by
  cases i with
  | beginCtx n core =>
    cases h
    exact streamsHeld_complete _ _ (streamsHeld_setCtx hs (holdsStream_of_holds (holds_begunCtx _)))
  | process n core =>
    obtain ⟨hp, -⟩ := passed_process_iff.mp hc
    obtain ⟨m, hm⟩ := hs n (.inl hp)
    obtain ⟨-, rfl⟩ := unlessStopped_next h
    refine streamsHeld_singleOutcome hs fun c hx => ?_
    obtain ⟨d, -, rfl⟩ := Option.map_eq_some_iff.mp hx
    exact holdsStream_of_holds (holds_feed _ _ _ _ (hres n) hm)
  | endCtx n core =>
    obtain ⟨m, hm⟩ := hs n (.inl (passed_endCtx_iff.mp hc))
    cases h
    exact streamsHeld_complete _ _ (streamsHeld_setCtx hs (holdsStream_of_holds (holds_finalCtx _ _ (hres n) hm)))
  | compress n core =>
    obtain ⟨hp, ⟨-, hl⟩, hr, -⟩ := passed_compress_iff.mp hc
    obtain ⟨m, hm⟩ := hs n (.inl hp)
    obtain ⟨-, rfl⟩ := unlessStopped_next h
    refine streamsHeld_singleOutcome hs fun c hx => ?_
    obtain ⟨d, hd, rfl⟩ := Option.map_eq_some_iff.mp hx
    exact holdsStream_compressedCtx hd hl hr hm _ _
  | zcompress n core =>
    obtain ⟨hp, ⟨-, hl⟩, hr⟩ := passed_zcompress_iff.mp hc
    obtain ⟨m, hm⟩ := hs n (.inl hp)
    cases h
    exact streamsHeld_complete _ _ (streamsHeld_setCtx hs (holdsStream_of_holds (holds_zeroCtx _ hr hl hm)))
  | processDual core =>
    obtain ⟨hpA, hpB, -⟩ := passed_processDual_iff.mp hc
    obtain ⟨mA, hA⟩ := hs .c0 (.inl hpA)
    obtain ⟨mB, hB⟩ := hs .c1 (.inl hpB)
    obtain ⟨-, rfl⟩ := unlessStopped_next h
    obtain ⟨ha, hb⟩ := holdsStream_processCtxs core hres hA hB
    exact streamsHeld_pairOutcome hs ha hb
  | compressDual core =>
    obtain ⟨hpA, hpB, hab, ⟨-, hl⟩, rA, rB, -⟩ := passed_compressDual_iff.mp hc
    obtain ⟨mA, hA⟩ := hs .c0 (.inl hpA)
    obtain ⟨mB, hB⟩ := hs .c1 (.inl hpB)
    obtain ⟨-, rfl⟩ := unlessStopped_next h
    obtain ⟨ha, hb⟩ := holdsStream_compressCtxs hl hab rA rB hA hB
    exact streamsHeld_pairOutcome hs ha hb

theorem streamsHeld_exec {i : Instr} {s t : State} (hres : ∀ n, (getCtx s n).res.length = 64) (hs : StreamsHeld s)
    (h : exec i s = .next t) : StreamsHeld t := by
  rw [exec_guarded, guarded] at h
  split at h
  · cases h
    exact streamsHeld_complete _ _ hs
  · exact streamsHeld_bodyOf ‹_› hres hs h

theorem streamsHeld_engineNext {s t : State} (hres : ∀ n, (getCtx s n).res.length = 64) (hs : StreamsHeld s)
    (h : EngineNext s t) : StreamsHeld t := by
  cases h with
  | waits => exact hs
  | illegal => exact streamsHeld_complete _ _ hs
  | runs _ _ ht => exact streamsHeld_exec hres hs ht

theorem streamsHeld_resetEngine (s : State) : StreamsHeld (resetEngine s) := fun n => by
  rw [getCtx_resetEngine]
  exact holdsStream_of_inactive (by decide) (by decide)

theorem streamsHeld_hostEvent {e : HostEvent} {s t : State} (hs : StreamsHeld s) (h : hostEvent e s = .next t) :
    StreamsHeld t := by
  rcases hostEvent_cases h with hk | ⟨v, -, -, rfl⟩ | ⟨-, rfl⟩
  · exact streamsHeld_of_getCtx hs (getCtx_of_engineKept hk)
  · exact streamsHeld_of_getCtx hs fun n => getCtx_accept v s n
  · exact streamsHeld_resetEngine s

theorem streamsHeld_step {s t : State} (hres : ∀ n, (getCtx s n).res.length = 64) (hs : StreamsHeld s)
    (h : step s = .next t) : StreamsHeld t := by
  have hs' : StreamsHeld (tookInput s) := streamsHeld_of_getCtx hs (getCtx_tookInput s)
  rcases step_next h with heng | ⟨e, -, hev⟩
  · exact streamsHeld_engineNext (fun n => by rw [getCtx_tookInput]; exact hres n) hs' heng
  · exact streamsHeld_hostEvent hs' hev

/-- Settles O14: by the step's inversion, the engine's turn and the host's event apart. -/
theorem stepKeepsInvariant : Obligations.StepKeepsInvariant := fun _ _ hinv hstep =>
  ⟨inv_step hinv hstep, fun hs => streamsHeld_step hinv.res hs hstep⟩

/-- Settles O15: both contexts are IDLE at reset. -/
theorem resetMeetsInvariant : Obligations.ResetMeetsInvariant := by
  refine ⟨⟨reset_mem_wf, ?_, ?_, fun _ => rfl, fun _ => rfl, ?_, Nat.zero_le _, rfl, rfl⟩, ?_⟩
  · intro n
    cases n <;> rfl
  · exact fun h => by cases h
  · exact fun h => by cases h
  · intro n
    cases n <;> exact holdsStream_of_inactive (by decide) (by decide)

end Sys2Proof.Proofs
end

section
/-! The argument registers and a command (10_state.md R31): every part of a command's meaning reads the latched arguments,
so putting other values in the argument registers before it or after it is the same. -/

namespace Sys2Proof.Proofs

open Sys2Proof.Machine Sys2Proof.Laws

/-- R30: the same machine with other values in the argument registers. -/
def withArgs (r : Args) (s : State) : State := { s with args := r }

@[simp] theorem getCtx_withArgs (r : Args) (s : State) (n : CtxId) : getCtx (withArgs r s) n = getCtx s n := by
  cases n <;> rfl

@[simp] theorem srcOf_withArgs (r : Args) (s : State) (x : Stream) : srcOf (withArgs r s) x = srcOf s x := by
  cases x <;> rfl

@[simp] theorem lenOf_withArgs (r : Args) (s : State) (x : Stream) : lenOf (withArgs r s) x = lenOf s x := by
  cases x <;> rfl

@[simp] theorem params_withArgs (r : Args) (s : State) : (withArgs r s).params = s.params := rfl

@[simp] theorem c0_withArgs (r : Args) (s : State) : (withArgs r s).c0 = s.c0 := rfl

@[simp] theorem c1_withArgs (r : Args) (s : State) : (withArgs r s).c1 = s.c1 := rfl

@[simp] theorem sourceStop_withArgs (r : Args) (s : State) (src len : Nat) :
    sourceStop (withArgs r s) src len = sourceStop s src len := rfl

@[simp] theorem dualStop_withArgs (r : Args) (s : State) : dualStop (withArgs r s) = dualStop s := rfl

@[simp] theorem readSource_withArgs (r : Args) (s : State) (x : Stream) :
    readSource (withArgs r s) x = readSource s x := by
  rw [readSource, readSource, srcOf_withArgs, lenOf_withArgs]
  exact readFrom_congr fun _ _ => rfl

@[simp] theorem processCtxs_withArgs (core : CoreSel) (r : Args) (s : State) :
    processCtxs core (withArgs r s) = processCtxs core s := by
  simp [processCtxs]

@[simp] theorem compressCtxs_withArgs (r : Args) (s : State) : compressCtxs (withArgs r s) = compressCtxs s := by
  simp [compressCtxs]

@[simp] theorem checksOf_withArgs (i : Instr) (r : Args) (s : State) : checksOf i (withArgs r s) = checksOf i s := by
  cases i <;> simp only [checksOf, getCtx_withArgs, srcOf_withArgs, lenOf_withArgs]

theorem complete_withArgs (e : ErrCode) (c : CtxId) (r : Args) (s : State) :
    complete e c (withArgs r s) = withArgs r (complete e c s) := rfl

theorem setCtx_withArgs (r : Args) (s : State) (n : CtxId) (c : Ctx) :
    setCtx (withArgs r s) n c = withArgs r (setCtx s n c) := by
  cases n <;> rfl

theorem faultAt_withArgs (n : CtxId) (r : Args) (s : State) : faultAt n (withArgs r s) = withArgs r (faultAt n s) :=
  setCtx_withArgs r s n _

theorem singleOutcome_withArgs (n : CtxId) (r : Args) (s : State) (c : Option Ctx) :
    singleOutcome n (withArgs r s) c = withArgs r (singleOutcome n s c) := by
  cases c <;> simp only [singleOutcome, setCtx_withArgs, faultAt_withArgs, complete_withArgs]

theorem pairOutcome_withArgs (p : Option Ctx × Option Ctx) (r : Args) (s : State) :
    pairOutcome p (withArgs r s) = withArgs r (pairOutcome p s) := by
  obtain ⟨_ | a, _ | b⟩ := p <;> simp only [pairOutcome, setCtx_withArgs, faultAt_withArgs, complete_withArgs]

/-- The outcome of a step with its next state, if it has one, changed by `f`. -/
def mapNext (f : State → State) : Host.Outcome State Fault Refusal → Host.Outcome State Fault Refusal
  | .next s => .next (f s)
  | .fault q => .fault q
  | .refused q => .refused q

theorem mapNext_next (f : State → State) (s : State) : mapNext f (.next s) = .next (f s) := rfl

theorem mapNext_unlessStopped (f : State → State) (stop : Option Refusal) (t : State) :
    mapNext f (unlessStopped stop t) = unlessStopped stop (f t) := by
  cases stop <;> rfl

theorem bodyOf_withArgs (i : Instr) (r : Args) (s : State) :
    bodyOf i (withArgs r s) = mapNext (withArgs r) (bodyOf i s) := by
  cases i <;> simp [bodyOf, mapNext_unlessStopped, mapNext_next, setCtx_withArgs, complete_withArgs,
    singleOutcome_withArgs, pairOutcome_withArgs]

/-- R31: the argument registers pass through a command as they are. -/
theorem exec_withArgs (i : Instr) (r : Args) (s : State) :
    exec i (withArgs r s) = mapNext (withArgs r) (exec i s) := by
  rw [exec_guarded, exec_guarded, guarded, guarded, checksOf_withArgs]
  split
  · rw [complete_withArgs, mapNext_next]
  · exact bodyOf_withArgs i r s

/-- Settles O43: by the commutation above, for a next state and for a refusal. -/
theorem argumentsAreLatched : Obligations.ArgumentsAreLatched := by
  intro i s r
  have h := exec_withArgs i r s
  constructor <;> intro x hx <;> rw [hx] at h <;> exact h

end Sys2Proof.Proofs
end

section
/-! The register window as the host sees it (10_state.md R30 to R41): what a write leaves and what a read delivers at each
offset; and the bytes of a digest (R22). -/

namespace Sys2Proof.Proofs

open Sys2Proof.Machine Sys2Proof.Laws

/-! ## Reads and refused accesses -/

/-- What a register reads does not depend on the events still waiting. -/
theorem readReg_withInputs (s : State) (rest : List Input) (r : Reg) : readReg { s with inputs := rest } r = readReg s r := by
  cases r with
  | digA n | digB n | digC n | digD n | cnt n h | ctxstat n => cases n <;> rfl
  | _ => rfl

/-- R35 to R40: a read delivers the register at its offset and changes nothing else. -/
theorem step_regRead_eq {s : State} {off : Nat} {rest : List Input} {v : Word}
    (h : s.inputs = .host (.regRead off 4) :: rest) (ho : accessOk off 4 = true) (hv : readReg s (regAt off) = v) :
    step s = .next { s with inputs := rest, rdata := some v, draws := s.draws + 1 } := by
  rw [step_regRead h ho, hostRead, readReg_withInputs, hv]

/-- Settles O55: `accessOk` fails on every such access. -/
theorem oddAccessRefused : Obligations.OddAccessRefused := by
  intro s off width v rest hodd
  have ho : accessOk off width = false := Bool.eq_false_of_not_eq_true (mt accessOk_iff.mp hodd)
  constructor <;> intro hin <;> rw [step_host hin]
  · exact (hostEvent_odd ho).1 v
  · exact (hostEvent_odd ho).2

/-! ## STATUS and CTRL -/

/-- R32: the fields of STATUS at their bits. -/
theorem statusWord_toNat (f : Status) : (statusWord f).toNat = f.busy.toNat + 2 * f.done.toNat + 4 * f.ovr.toNat +
    16 * f.errctx.bit.toNat + 256 * (errCodeBits f.errcode).toNat := by
  obtain ⟨b, d, o, c, e⟩ := f
  cases c <;> cases e <;> revert b d o <;> decide

/-- Settles O48: a read of STATUS delivers its word. -/
theorem statusWordLayout : Obligations.StatusWordLayout := fun s _ hin =>
  ⟨statusWord s.status, step_regRead_eq hin rfl rfl, statusWord_toNat s.status⟩

/-- Settles O49: a write to STATUS changes only its two write-1-to-clear bits. -/
theorem statusWriteOneToClear : Obligations.StatusWriteOneToClear := by
  intro s v rest hin
  refine ⟨_, step_regWrite hin rfl, rfl, ?_, ?_⟩ <;>
    simp only [regAt_status, writeReg, statusWrite, Bool.and_eq_true, Bool.not_eq_true']

/-- R34: the word of CTRL is the value written with every bit but bit 0 cleared. -/
theorem ctrlWord_ctrlWrite (v : Word) : ctrlWord (ctrlWrite v) = v &&& 1 := by
  apply BitVec.eq_of_getLsbD_eq
  intro i hi
  have hword : (ctrlWord (ctrlWrite v)).getLsbD i = (decide (i < 1) && (BitVec.ofBool (ctrlWrite v)).getLsbD i) := by
    rw [ctrlWord, BitVec.getLsbD_append]
    by_cases h1 : i < 1 <;> simp [h1]
  rw [hword, BitVec.getLsbD_and]
  cases i with
  | zero => simp [ctrlWrite]
  | succ i => simp

/-- Settles O51: a write to CTRL, then a read of it. -/
theorem ctrlHoldsOneBit : Obligations.CtrlHoldsOneBit := by
  refine ⟨rfl, fun s v rest hin => ⟨_, _, step_regWrite hin rfl, step_regRead rfl rfl, rfl, ?_⟩⟩
  exact congrArg some (ctrlWord_ctrlWrite v)

/-! ## The argument registers -/

/-- R40: the offset of each half of each argument register. -/
def argOffset : ArgName → Half → Nat
  | .srcA, .lo => 0x010
  | .srcA, .hi => 0x014
  | .srcB, .lo => 0x018
  | .srcB, .hi => 0x01C
  | .lenA, .lo => 0x020
  | .lenA, .hi => 0x024
  | .lenB, .lo => 0x028
  | .lenB, .hi => 0x02C

@[simp] theorem regAt_argOffset (x : ArgName) (h : Half) : regAt (argOffset x h) = .arg x h := by
  cases x <;> cases h <;> rfl

theorem accessOk_argOffset (x : ArgName) (h : Half) : accessOk (argOffset x h) 4 = true := by
  cases x <;> cases h <;> rfl

theorem eq_argOffset {off : Nat} (h : off ∈ [0x010, 0x014, 0x018, 0x01C, 0x020, 0x024, 0x028, 0x02C]) :
    ∃ x h, off = argOffset x h := by
  simp only [List.mem_cons, List.not_mem_nil, or_false] at h
  obtain h | h | h | h | h | h | h | h := h
  exacts [⟨.srcA, .lo, h⟩, ⟨.srcA, .hi, h⟩, ⟨.srcB, .lo, h⟩, ⟨.srcB, .hi, h⟩, ⟨.lenA, .lo, h⟩, ⟨.lenA, .hi, h⟩,
    ⟨.lenB, .lo, h⟩, ⟨.lenB, .hi, h⟩]

theorem argOffset_inj {x y : ArgName} {h h' : Half} (e : argOffset x h = argOffset y h') : x = y ∧ h = h' := by
  have hreg := regAt_argOffset x h
  rw [e, regAt_argOffset] at hreg
  cases hreg
  exact ⟨rfl, rfl⟩

theorem argOffset_hi (x : ArgName) : argOffset x .hi = argOffset x .lo + 4 := by cases x <;> rfl

/-- R30: any argument register after a write at the offset of half `h` of register `x`. -/
theorem getArg_written (r : Args) (x y : ArgName) (h : Half) (v : Word) :
    getArg (setArg r x (setHalf (getArg r x) h v)) y =
      if argOffset x h = argOffset y .lo then (getArg r y).extractLsb' 32 32 ++ v
      else if argOffset x h = argOffset y .lo + 4 then v ++ (getArg r y).extractLsb' 0 32
      else getArg r y := by
  rw [← argOffset_hi]
  by_cases hx : x = y
  · subst hx
    rw [getArg_setArg]
    cases h with
    | lo => rw [if_pos rfl]; rfl
    | hi =>
      have hne : argOffset x .hi ≠ argOffset x .lo := fun e => nomatch (argOffset_inj e).2
      rw [if_neg hne, if_pos rfl]
      rfl
  · rw [getArg_setArg_ne _ _ (Ne.symm hx), if_neg fun e => hx (argOffset_inj e).1, if_neg fun e => hx (argOffset_inj e).1]

/-- Settles O50: one half of one register is written, and then read. -/
theorem argumentRegistersReadBack : Obligations.ArgumentRegistersReadBack := by
  intro s off v rest hoff hin
  obtain ⟨x, h, rfl⟩ := eq_argOffset hoff
  have ht := step_regWrite hin (accessOk_argOffset x h)
  rw [regAt_argOffset] at ht
  refine ⟨_, _, ht, step_regRead rfl (accessOk_argOffset x h), ?_, rfl, ?_, ?_, rfl, rfl, rfl⟩
  · rw [regAt_argOffset, hostRead, readReg]
    exact congrArg some ((halfOf_getArg_setArg s.args x x h h v).trans (if_pos ⟨rfl, rfl⟩))
  · have hw : ∀ y, _ := fun y => getArg_written s.args x y h v
    simp only [List.forall_mem_cons]
    exact ⟨hw .srcA, hw .srcB, hw .lenA, hw .lenB, List.forall_mem_nil _⟩
  · intro off' hoff' hne
    obtain ⟨y, h', rfl⟩ := eq_argOffset hoff'
    rw [regAt_argOffset, regAt_argOffset]
    refine (halfOf_getArg_setArg s.args x y h h' v).trans (if_neg ?_)
    rintro ⟨rfl, rfl⟩
    exact hne rfl

/-! ## The context registers -/

/-- The number two adjacent fields make. -/
theorem toNat_append_eq_add {m n : Nat} (x : BitVec m) (y : BitVec n) : (x ++ y).toNat = x.toNat * 2 ^ n + y.toNat := by
  rw [BitVec.toNat_append, ← Nat.shiftLeft_add_eq_or_of_lt y.isLt, Nat.shiftLeft_eq]

/-- R36: PHASE in bits 1:0 and RESLEN in bits 13:8. -/
theorem ctxStatWord_toNat (p : Phase) (r : BitVec 6) :
    (ctxStatWord p r).toNat = (phaseBits p).toNat + 256 * r.toNat := by
  have h18 : (0 : BitVec 18).toNat = 0 := rfl
  have h6 : (0 : BitVec 6).toNat = 0 := rfl
  simp only [ctxStatWord, toNat_append_eq_add, h18, h6]
  omega

theorem not_undefinedPhase {p : Phase} (h : p = .active ∨ p = .final) : undefinedPhase p = false := by
  rcases h with rfl | rfl <;> rfl

/-- R37: digest and counter of an ACTIVE or FINAL context that no command uses. -/
theorem readCtxWord_eq {s : State} {n : CtxId} (hu : inUse s n = false)
    (hp : (getCtx s n).phase = .active ∨ (getCtx s n).phase = .final) (v : Word) : readCtxWord s n v = v := by
  simp [readCtxWord, hu, not_undefinedPhase hp]

/-- R36: CTXSTAT of such a context. -/
theorem readCtxStat_eq {s : State} {n : CtxId} (hu : inUse s n = false)
    (hp : (getCtx s n).phase = .active ∨ (getCtx s n).phase = .final) :
    readCtxStat s n = BitVec.ofNat 32
      ((if (getCtx s n).phase = .active then 1 else 2) + 256 * ((getCtx s n).count.toNat % 64)) := by
  have hphase : (phaseBits (getCtx s n).phase).toNat = if (getCtx s n).phase = .active then 1 else 2 := by
    rcases hp with h | h <;> rw [h] <;> rfl
  have hread : readCtxStat s n = ctxStatWord (getCtx s n).phase ((getCtx s n).count.extractLsb' 0 6) := by
    simp [readCtxStat, hu, not_undefinedPhase hp]
  apply BitVec.eq_of_toNat_eq
  rw [hread, ctxStatWord_toNat, hphase, BitVec.extractLsb'_toNat, Nat.shiftRight_zero, BitVec.toNat_ofNat]
  split <;> omega

/-- R36, R38: RESLEN alone is open in IDLE and FAULT. -/
theorem readCtxStat_undefined {s : State} {n : CtxId} (hu : inUse s n = false)
    (hp : (getCtx s n).phase = .idle ∨ (getCtx s n).phase = .fault) :
    readCtxStat s n = ctxStatWord (getCtx s n).phase ((Config.freeRead s.draws).extractLsb' 0 6) := by
  have hd : undefinedPhase (getCtx s n).phase = true := by rcases hp with h | h <;> rw [h] <;> rfl
  simp [readCtxStat, hu, hd]

/-- R40: the seven registers of context `n` from `0x040 + 0x020 · n` on. -/
theorem regAt_ctx (n : CtxId) : let base := 0x040 + 0x020 * n.bit.toNat
    regAt base = .digA n ∧ regAt (base + 0x4) = .digB n ∧ regAt (base + 0x8) = .digC n ∧ regAt (base + 0xC) = .digD n ∧
      regAt (base + 0x10) = .cnt n .lo ∧ regAt (base + 0x14) = .cnt n .hi ∧ regAt (base + 0x18) = .ctxstat n := by
  cases n <;> decide

theorem accessOk_ctx (n : CtxId) : ∀ k ∈ [0x0, 0x4, 0x8, 0xC, 0x10, 0x14, 0x18],
    accessOk (0x040 + 0x020 * n.bit.toNat + k) 4 = true := by
  cases n <;> decide

/-- A read at one of these seven offsets. -/
theorem step_regRead_ctx {s : State} {n : CtxId} {k : Nat} {rest : List Input} {reg : Reg} {v : Word}
    (hk : k ∈ [0x0, 0x4, 0x8, 0xC, 0x10, 0x14, 0x18]) (hreg : regAt (0x040 + 0x020 * n.bit.toNat + k) = reg)
    (hv : readReg s reg = v) (hin : s.inputs = .host (.regRead (0x040 + 0x020 * n.bit.toNat + k) 4) :: rest) :
    step s = .next { s with inputs := rest, rdata := some v, draws := s.draws + 1 } :=
  step_regRead_eq hin (accessOk_ctx n k hk) (by rw [hreg, hv])

/-- Settles O52: each of the seven registers of a context with defined values. -/
theorem contextRegistersRead : Obligations.ContextRegistersRead := by
  intro s n rest hu hp base c stat
  obtain ⟨ra, rb, rc, rd, rlo, rhi, rst⟩ := regAt_ctx n
  have hhi : halfOf c.count .hi = BitVec.ofNat 32 (c.count.toNat / 2 ^ 32) := by
    rw [← Nat.shiftRight_eq_div_pow]
    rfl
  simp only [List.forall_mem_cons]
  refine ⟨?_, ?_, ?_, ?_, ?_, ?_, ?_, List.forall_mem_nil _⟩
  · exact step_regRead_ctx (k := 0) (by decide) ra (readCtxWord_eq hu hp _)
  · exact step_regRead_ctx (by decide) rb (readCtxWord_eq hu hp _)
  · exact step_regRead_ctx (by decide) rc (readCtxWord_eq hu hp _)
  · exact step_regRead_ctx (by decide) rd (readCtxWord_eq hu hp _)
  · exact step_regRead_ctx (by decide) rlo (readCtxWord_eq hu hp _)
  · exact step_regRead_ctx (by decide) rhi ((readCtxWord_eq hu hp _).trans hhi)
  · exact step_regRead_ctx (by decide) rst (readCtxStat_eq hu hp)

/-- Settles O53: the phase below, RESLEN in bits 13:8. -/
theorem idleAndFaultPhaseReads : Obligations.IdleAndFaultPhaseReads := by
  intro s n rest hu hp hin
  have hreg : regAt (0x058 + 0x020 * n.bit.toNat) = .ctxstat n := by cases n <;> rfl
  have hacc : accessOk (0x058 + 0x020 * n.bit.toNat) 4 = true := by cases n <;> rfl
  refine ⟨_, step_regRead_eq hin hacc (by rw [hreg, readReg, readCtxStat_undefined hu hp]), ?_⟩
  have hphase := (phaseBits (getCtx s n).phase).isLt
  have hlen := ((Config.freeRead s.draws).extractLsb' 0 6).isLt
  rw [ctxStatWord_toNat]
  omega

/-! ## Read-only and reserved offsets -/

/-- R35 to R37, R39: the registers a host write leaves as they are. -/
def ignoresWrites : Reg → Bool
  | .cmd | .status | .ctrl | .arg _ _ => false
  | .digA _ | .digB _ | .digC _ | .digD _ | .cnt _ _ | .ctxstat _ | .reserved => true

theorem writeReg_of_ignoresWrites {r : Reg} (h : ignoresWrites r = true) (v : Word) (s : State) : writeReg r v s = s := by
  cases r with
  | cmd | status | ctrl | arg x h' => cases h
  | _ => rfl

theorem ignoresWrites_regAt : ∀ k < 32, 4 * k = 0x00C ∨ 0x030 ≤ 4 * k → ignoresWrites (regAt (4 * k)) = true := by decide

theorem regAt_reads_zero : ∀ off ∈ [0x000, 0x00C, 0x030, 0x034, 0x038, 0x03C, 0x05C, 0x07C],
    regAt off = .cmd ∨ regAt off = .reserved := by decide

/-- Settles O54: the map has no writable register there, and CMD and the reserved offsets have no value to read. -/
theorem reservedAndReadOnlyOffsets : Obligations.ReservedAndReadOnlyOffsets := by
  intro s off rest hm hlt
  have ho : accessOk off 4 = true := accessOk_iff.mpr ⟨rfl, hm, hlt⟩
  constructor
  · intro hoff v hin
    obtain ⟨k, hk, rfl⟩ := eq_of_accessOk ho
    rw [step_regWrite hin ho, writeReg_of_ignoresWrites (ignoresWrites_regAt k hk hoff)]
  · intro hoff hin
    refine step_regRead_eq hin ho ?_
    rcases regAt_reads_zero off hoff with h | h <;> rw [h] <;> rfl

/-! ## The bytes of a digest -/

/-- R22: byte `i` is byte `i mod 4` of word `i / 4`. -/
theorem digestBytes_eq (s : Digest) :
    digestBytes s = (List.range 16).map (fun i => wordByte ([s.a, s.b, s.c, s.d].getD (i / 4) 0) (i % 4)) := rfl

/-- Settles O27: by the table of the sixteen bytes. -/
theorem digestByteOrder : Obligations.DigestByteOrder := by
  intro s i hi
  refine ⟨rfl, ?_⟩
  have hb : (digestBytes s).getD i 0 = wordByte ([s.a, s.b, s.c, s.d].getD (i / 4) 0) (i % 4) := by
    rw [digestBytes_eq]
    simp [List.getD_eq_getElem?_getD, hi]
  rw [hb, wordByte, BitVec.extractLsb'_toNat, Nat.shiftRight_eq_div_pow]

end Sys2Proof.Proofs
end

section
/-! Memory as the engine reads it (20_memory.md): the words of a block (R63), the source regions that are refused (R69),
the bytes that matter to a command (R61) and their values (R72). -/

namespace Sys2Proof.Proofs

open Sys2Proof.Machine Sys2Proof.Laws

/-! ## Message words -/

/-- R13: the little-endian word is its bytes side by side, the last one on top. -/
theorem le32_eq_append (b0 b1 b2 b3 : Byte) : le32 b0 b1 b2 b3 = b3 ++ (b2 ++ (b1 ++ b0)) := by
  ext i hi
  simp only [le32, BitVec.getElem_or, BitVec.getElem_shiftLeft, BitVec.getElem_setWidth]
  grind

theorem le32_toNat (b0 b1 b2 b3 : Byte) :
    (le32 b0 b1 b2 b3).toNat = b0.toNat + 2 ^ 8 * b1.toNat + 2 ^ 16 * b2.toNat + 2 ^ 24 * b3.toNat := by
  rw [le32_eq_append, toNat_append_eq_add, toNat_append_eq_add, toNat_append_eq_add]
  omega

/-- Settles O26: word `j` is assembled from bytes `4j` to `4j + 3`. -/
theorem messageWordsLittleEndian : Obligations.MessageWordsLittleEndian := by
  intro blk j hj
  have hw : (messageWords blk).getD j 0 = messageWord blk j := by
    simp [messageWords, List.getD_eq_getElem?_getD, hj]
  rw [hw, messageWord, le32_toNat]

/-! ## Source regions outside the spec -/

/-- A range of addresses and a region meet in one of the range's addresses. -/
theorem overlaps_iff {r : Region} {src len : Nat} :
    overlaps r src len = true ↔ ∃ j, j < len ∧ r.base ≤ src + j ∧ src + j < r.base + r.size := by
  simp only [overlaps, Bool.and_eq_true, bne_iff_ne, decide_eq_true_eq]
  constructor
  · rintro ⟨⟨⟨hlen, hsize⟩, hlo⟩, hhi⟩
    exact ⟨r.base - src, by omega, by omega, by omega⟩
  · rintro ⟨j, hj, hlo, hhi⟩
    exact ⟨⟨⟨by omega, by omega⟩, by omega⟩, by omega⟩

theorem overlaps_window_iff {s : State} {x : Stream} :
    overlaps (window s.params) (srcOf s x) (lenOf s x) = true ↔ OverWindow s x := overlaps_iff

theorem overlaps_device_iff {s : State} {x : Stream} :
    s.params.device.any (fun r => overlaps r (srcOf s x) (lenOf s x)) = true ↔ OverDevice s x := by
  simp only [List.any_eq_true, overlaps_iff, OverDevice]
  constructor
  · rintro ⟨r, hr, j, hj, hin⟩
    exact ⟨j, hj, r, hr, hin⟩
  · rintro ⟨j, hj, r, hr, hin⟩
    exact ⟨r, hr, j, hj, hin⟩

/-- R69: why the spec gives no result for the source region of stream `x`, if it does not. -/
def streamStop (s : State) (x : Stream) : Option Refusal := sourceStop s (srcOf s x) (lenOf s x)

theorem streamStop_of_overWindow {s : State} {x : Stream} (h : OverWindow s x) :
    streamStop s x = some .sourceOverlapsWindow := if_pos (overlaps_window_iff.mpr h)

theorem streamStop_of_overDevice {s : State} {x : Stream} (hw : ¬OverWindow s x) (hd : OverDevice s x) :
    streamStop s x = some .sourceHasSideEffects := by
  rw [streamStop, sourceStop, if_neg (mt overlaps_window_iff.mp hw), if_pos (overlaps_device_iff.mpr hd)]

theorem streamStop_of_clear {s : State} {x : Stream} (hw : ¬OverWindow s x) (hd : ¬OverDevice s x) :
    streamStop s x = none := by
  rw [streamStop, sourceStop, if_neg (mt overlaps_window_iff.mp hw), if_neg (mt overlaps_device_iff.mp hd)]

/-- R69, log 11: the stop of a command is that of the first of its streams that has one. -/
def commandStop (i : Instr) (s : State) : Option Refusal := (streamsOf i).findSome? (streamStop s)

theorem dualStop_eq_findSome (s : State) : dualStop s = [Stream.a, .b].findSome? (streamStop s) := by
  simp only [dualStop, List.findSome?_cons, List.findSome?_nil, streamStop]
  cases sourceStop s (srcOf s .a) (lenOf s .a) with
  | some r => rfl
  | none => cases sourceStop s (srcOf s .b) (lenOf s .b) <;> rfl

/-- A command that passed its checks is refused for its stop, and answers a next state when it has none. -/
theorem exec_of_passed {i : Instr} {s : State} (hc : firstError (checksOf i s) = none) :
    ∃ t, exec i s = unlessStopped (commandStop i s) t := by
  have single : [Stream.a].findSome? (streamStop s) = streamStop s .a := by simp
  rw [exec_guarded, guarded, hc]
  cases i with
  | beginCtx | endCtx | zcompress => exact ⟨_, rfl⟩
  | process | compress =>
    rw [commandStop, streamsOf, single]
    exact ⟨_, rfl⟩
  | processDual | compressDual =>
    rw [commandStop, streamsOf, ← dualStop_eq_findSome]
    exact ⟨_, rfl⟩

/-- R60: a command reads no stream, stream A, or both. -/
theorem streamsOf_cases (i : Instr) : streamsOf i = [] ∨ streamsOf i = [.a] ∨ streamsOf i = [.a, .b] := by
  cases i <;> simp [streamsOf]

/-- Stream A's stop is named first. -/
theorem commandStop_eq_some {i : Instr} {s : State} {x : Stream} {r : Refusal} (hx : x ∈ streamsOf i)
    (hA : x = .b → streamStop s .a = none) (h : streamStop s x = some r) : commandStop i s = some r := by
  rw [commandStop]
  rcases streamsOf_cases i with hi | hi | hi <;> rw [hi] at hx ⊢
  · cases hx
  · obtain rfl := List.mem_singleton.mp hx
    simp [h]
  · cases x with
    | a => simp [h]
    | b => simp [hA rfl, h]

/-- Settles O42: the command's stop is that of the stream named, or no stream has one. -/
theorem undefinedSourceRefused : Obligations.UndefinedSourceRefused := by
  intro i s hc
  obtain ⟨t, ht⟩ := exec_of_passed hc
  have refused {r : Refusal} (h : commandStop i s = some r) : exec i s = .refused r := by
    rw [ht, h, unlessStopped]
  refine ⟨fun x hx hfirst => ?_, fun hclear => ⟨t, ?_⟩⟩
  · have hA : x = .b → streamStop s .a = none := fun hb => streamStop_of_clear (hfirst hb).1 (hfirst hb).2
    exact ⟨fun hw => refused (commandStop_eq_some hx hA (streamStop_of_overWindow hw)),
      fun hw hd => refused (commandStop_eq_some hx hA (streamStop_of_overDevice hw hd))⟩
  · have hnone : commandStop i s = none :=
      List.findSome?_eq_none_iff.mpr fun x hx => streamStop_of_clear (hclear x hx).1 (hclear x hx).2
    rw [ht, hnone, unlessStopped_none]

/-! ## The bytes that matter -/

/-- R60: the same machine with another host memory. -/
def withMem (m : Memory) (s : State) : State := { s with mem := m }

@[simp] theorem getCtx_withMem (m : Memory) (s : State) (n : CtxId) : getCtx (withMem m s) n = getCtx s n := by
  cases n <;> rfl

@[simp] theorem srcOf_withMem (m : Memory) (s : State) (x : Stream) : srcOf (withMem m s) x = srcOf s x := by
  cases x <;> rfl

@[simp] theorem lenOf_withMem (m : Memory) (s : State) (x : Stream) : lenOf (withMem m s) x = lenOf s x := by
  cases x <;> rfl

@[simp] theorem params_withMem (m : Memory) (s : State) : (withMem m s).params = s.params := rfl

@[simp] theorem c0_withMem (m : Memory) (s : State) : (withMem m s).c0 = s.c0 := rfl

@[simp] theorem c1_withMem (m : Memory) (s : State) : (withMem m s).c1 = s.c1 := rfl

@[simp] theorem sourceStop_withMem (m : Memory) (s : State) (src len : Nat) :
    sourceStop (withMem m s) src len = sourceStop s src len := rfl

@[simp] theorem dualStop_withMem (m : Memory) (s : State) : dualStop (withMem m s) = dualStop s := rfl

theorem checksOf_withMem (i : Instr) (m : Memory) (s : State) : checksOf i (withMem m s) = checksOf i s := by
  cases i <;> simp only [checksOf, getCtx_withMem, srcOf_withMem, lenOf_withMem]

theorem setCtx_withMem (m : Memory) (s : State) (n : CtxId) (c : Ctx) :
    setCtx (withMem m s) n c = withMem m (setCtx s n c) := by
  cases n <;> rfl

theorem faultAt_withMem (n : CtxId) (m : Memory) (s : State) : faultAt n (withMem m s) = withMem m (faultAt n s) :=
  setCtx_withMem m s n _

theorem complete_withMem (e : ErrCode) (c : CtxId) (m : Memory) (s : State) :
    complete e c (withMem m s) = withMem m (complete e c s) := rfl

theorem singleOutcome_withMem (n : CtxId) (m : Memory) (s : State) (c : Option Ctx) :
    singleOutcome n (withMem m s) c = withMem m (singleOutcome n s c) := by
  cases c <;> simp only [singleOutcome, setCtx_withMem, faultAt_withMem, complete_withMem]

theorem pairOutcome_withMem (p : Option Ctx × Option Ctx) (m : Memory) (s : State) :
    pairOutcome p (withMem m s) = withMem m (pairOutcome p s) := by
  obtain ⟨_ | a, _ | b⟩ := p <;> simp only [pairOutcome, setCtx_withMem, faultAt_withMem, complete_withMem]

/-- R61: the memory agrees with the machine's own on the source region of stream `x`. -/
def AgreesOn (m : Memory) (s : State) (x : Stream) : Prop :=
  ∀ j, j < lenOf s x → hostByte m (srcOf s x + j) = hostByte s.mem (srcOf s x + j)

theorem readByte_withMem {m : Memory} {s : State} {a : Nat} (h : hostByte m a = hostByte s.mem a) (x : Stream)
    (i : Nat) : readByte (withMem m s) x i a = readByte s x i a := by
  have hm : hostByte (withMem m s).mem a = hostByte s.mem a := h
  rw [readByte, hm]
  rfl

theorem readSource_withMem {m : Memory} {s : State} {x : Stream} (h : AgreesOn m s x) :
    readSource (withMem m s) x = readSource s x := by
  rw [readSource, readSource, srcOf_withMem, lenOf_withMem]
  refine readFrom_congr fun j hj => readByte_withMem ?_ x _
  rw [Nat.zero_add]
  exact h j hj

/-- R61: a command's body meets memory only in its reads. -/
theorem bodyOf_withMem {i : Instr} {m : Memory} {s : State} (h : ∀ x ∈ streamsOf i, AgreesOn m s x) :
    bodyOf i (withMem m s) = mapNext (withMem m) (bodyOf i s) := by
  have hread : ∀ x ∈ streamsOf i, readSource (withMem m s) x = readSource s x :=
    fun x hx => readSource_withMem (h x hx)
  cases i with
  | beginCtx | endCtx | zcompress => simp [bodyOf, setCtx_withMem, complete_withMem, mapNext_next]
  | process | compress =>
    simp [bodyOf, hread .a List.mem_cons_self, singleOutcome_withMem, mapNext_unlessStopped]
  | processDual | compressDual =>
    have ha := hread .a (by simp [streamsOf])
    have hb := hread .b (by simp [streamsOf])
    simp [bodyOf, processCtxs, compressCtxs, ha, hb, pairOutcome_withMem, mapNext_unlessStopped]

/-- R61: a memory that agrees on the source regions passes through a command as it is. -/
theorem exec_withMem {i : Instr} {m : Memory} {s : State} (h : ∀ x ∈ streamsOf i, AgreesOn m s x) :
    exec i (withMem m s) = mapNext (withMem m) (exec i s) := by
  rw [exec_guarded, exec_guarded, guarded, guarded, checksOf_withMem]
  split
  · rw [complete_withMem, mapNext_next]
  · exact bodyOf_withMem h

/-- Settles O45: by the commutation above, for a next state. -/
theorem onlySourceRegionMatters : Obligations.OnlySourceRegionMatters := by
  intro i s m h t ht
  have hm := exec_withMem h
  rw [ht, mapNext_next] at hm
  exact hm

/-! ## The values read -/

/-- R61, R66: a stream yields no bytes exactly when a read of its source region ends in a bus error. -/
theorem readSource_eq_none {s : State} {x : Stream} :
    readSource s x = none ↔ ∃ j, j < lenOf s x ∧ busErrorAt s.params (srcOf s x + j) = true := by
  simp only [readSource, readFrom_eq_none, Nat.zero_add]

/-- R72: what a stream yields is a possible reading of its source region. -/
theorem readingOf_readSource {s : State} {x : Stream} {data : List Byte} (h : readSource s x = some data) :
    ReadingOf s x data := by
  obtain ⟨hl, hh⟩ := readFrom_held h
  exact ⟨hl, fun j hj => by simpa only [Nat.zero_add] using hh j hj⟩

/-- R72: with every store visible and no race there is one possible reading, the bytes stored. -/
theorem eq_sourceBytes_of_settled {s : State} {x : Stream} {data : List Byte} (hr : ReadingOf s x data)
    (hs : SourceSettled s x) : data = sourceBytes s x := by
  obtain ⟨hl, hh⟩ := hr
  refine List.ext_getElem (by simp [sourceBytes, hl]) fun j hj _ => ?_
  rw [hl] at hj
  rcases hh j hj with he | ho
  · rw [← List.getD_eq_getElem _ 0, he]
    simp [sourceBytes]
  · rw [hs j hj] at ho
    cases ho

/-- Settles O46: the reads of a stream, with and without a bus error. -/
theorem sourceReadsHeldBytes : Obligations.SourceReadsHeldBytes := by
  intro s x
  refine ⟨readSource_eq_none.mpr, fun hr => ?_⟩
  have hsome : readSource s x ≠ none := fun hn => by
    obtain ⟨j, hj, hb⟩ := readSource_eq_none.mp hn
    rw [hr j hj] at hb
    cases hb
  obtain ⟨data, hd⟩ := Option.ne_none_iff_exists'.mp hsome
  have hreading := readingOf_readSource hd
  exact ⟨data, hd, hreading, eq_sourceBytes_of_settled hreading⟩

/-! ## Stores and their visibility -/

theorem valuesAt_nil (a : Nat) : valuesAt [] a = [] := rfl

theorem valuesAt_append (l l' : List Host.Cell) (a : Nat) : valuesAt (l ++ l') a = valuesAt l a ++ valuesAt l' a := by
  simp [valuesAt]

theorem valuesAt_cons_same (l : List Host.Cell) (a : Nat) (b : Byte) :
    valuesAt ((a, b) :: l) a = b :: valuesAt l a := by
  simp [valuesAt]

theorem valuesAt_cons_ne (l : List Host.Cell) {a a' : Nat} (b : Byte) (h : a' ≠ a) :
    valuesAt ((a, b) :: l) a' = valuesAt l a' := by
  simp [valuesAt, Ne.symm h]

/-- R72 item 1: the value a store replaces stays a possible reading of its byte. -/
theorem mem_oldBytes_hostStore (a : Nat) (b : Byte) (s : State) :
    hostByte s.mem a ∈ oldBytes (hostStore a b s) a := by
  simp [oldBytes, hostStore, valuesAt_cons_same]

/-- R72: a store leaves the older values of every other byte. -/
theorem oldBytes_hostStore_ne {a a' : Nat} (b : Byte) (s : State) (h : a' ≠ a) :
    oldBytes (hostStore a b s) a' = oldBytes s a' := by
  simp only [oldBytes, hostStore, valuesAt_cons_ne _ _ h]
  split
  · rw [valuesAt_cons_ne _ _ h]
  · rfl

theorem step_memStore {s : State} {a : Nat} {b : Byte} {rest : List Input} (ha : a < 2 ^ 64)
    (hw : ¬(s.params.base.toNat ≤ a ∧ a < s.params.base.toNat + 128))
    (h : s.inputs = .host (.memStore a b) :: rest) :
    step s = .next (hostStore a b { s with inputs := rest }) := by
  rw [step_host h, hostEvent, if_neg (Nat.not_le.mpr ha), if_neg (by simpa [inWindow] using hw)]

/-- R72: once stores are made visible while no command runs, no byte has an older value. -/
theorem oldBytes_publishStores_idle {s : State} (hb : s.status.busy = false) (hr : s.raced = []) (a : Nat) :
    oldBytes (publishStores s) a = [] := by
  simp [oldBytes, publishStores, hb, hr, valuesAt_nil]

/-- R72 item 2: a running command may have read every older value before. -/
theorem mem_oldBytes_publishStores_busy {s : State} (hb : s.status.busy = true) (a : Nat) (b : Byte) :
    b ∈ oldBytes (publishStores s) a ↔ b ∈ oldBytes s a := by
  simp [oldBytes, publishStores, hb, valuesAt_nil, valuesAt_append, or_comm]

/-- R107, R72: a completion ends every race and leaves the stores not made visible. -/
theorem oldBytes_exec {i : Instr} {s t : State} (h : exec i s = .next t) (a : Nat) :
    oldBytes t a = valuesAt s.stale a := by
  obtain ⟨code, c, u, rfl, hw, -, -⟩ := exec_next h
  obtain ⟨-, -, -, -, -, hstale, -⟩ := outside_complete hw code c
  rw [oldBytes, complete_raced, hstale, valuesAt_nil, List.nil_append]

/-- Settles O47: a store, the two publications and a completion, by their effect on the older values. -/
theorem storesAndVisibility : Obligations.StoresAndVisibility := by
  intro s rest
  refine ⟨fun a b ha hw hin => ⟨_, step_memStore ha hw hin, ?_, fun a' hne => ⟨?_, ?_⟩, ?_⟩,
    fun hin hb hr => ⟨_, step_host hin, ?_⟩, fun hin hb => ⟨_, step_host hin, ?_⟩,
    fun _ _ a h => oldBytes_exec h a⟩
  · exact hostByte_memSet_same s.mem a b
  · exact hostByte_memSet_ne s.mem b hne
  · exact oldBytes_hostStore_ne b _ hne
  · exact .inr (mem_oldBytes_hostStore a b _)
  · exact oldBytes_publishStores_idle hb hr
  · exact mem_oldBytes_publishStores_busy hb

end Sys2Proof.Proofs
end

section
/-! The decoder and the encoder (30_encoding.md): a word and its fields determine each other (R90), a word decodes to an
instruction exactly when its fields are the instruction's (R99), and the match and mask table reads the same fields
(R98). -/

namespace Sys2Proof.Proofs

open Sys2Proof.Machine Sys2Proof.Laws

/-! ## A word and its fields (R90) -/

/-- R90: OP in bits 3:0, CTX in bit 4, CORE in bit 5, RSVD above. -/
theorem wordOfFields_toNat (f : Fields) :
    (wordOfFields f).toNat = f.op.toNat + 2 ^ 4 * f.ctx.toNat + 2 ^ 5 * f.core.toNat + 2 ^ 6 * f.rsvd.toNat := by
  rw [wordOfFields, toNat_append_eq_add, toNat_append_eq_add, toNat_append_eq_add]
  omega

theorem fieldsOfWord_wordOfFields (f : Fields) : fieldsOfWord (wordOfFields f) = f := by
  obtain ⟨op, ctx, core, rsvd⟩ := f
  have hw := wordOfFields_toNat ⟨op, ctx, core, rsvd⟩
  simp only at hw
  rw [fieldsOfWord, Fields.mk.injEq]
  refine ⟨?_, ?_, ?_, ?_⟩ <;>
    (apply BitVec.eq_of_toNat_eq
     rw [BitVec.extractLsb'_toNat, Nat.shiftRight_eq_div_pow, hw]
     omega)

theorem wordOfFields_fieldsOfWord (w : Word) : wordOfFields (fieldsOfWord w) = w := by
  rw [wordOfFields, fieldsOfWord, BitVec.extractLsb'_append_extractLsb'_eq_extractLsb' (by rfl),
    BitVec.extractLsb'_append_extractLsb'_eq_extractLsb' (by rfl),
    BitVec.extractLsb'_append_extractLsb'_eq_extractLsb' (by rfl)]
  exact BitVec.extractLsb'_eq_self

theorem wordOfFields_injective : Function.Injective wordOfFields :=
  Function.LeftInverse.injective fieldsOfWord_wordOfFields

theorem eq_wordOfFields_iff {w : Word} {f : Fields} : w = wordOfFields f ↔ fieldsOfWord w = f := by
  rw [← wordOfFields_injective.eq_iff, wordOfFields_fieldsOfWord]

/-! ## The decoder (R99) -/

@[simp] theorem bit_ctxOfBit (b : BitVec 1) : (ctxOfBit b).bit = b := by
  revert b; decide

@[simp] theorem bit_coreOfBit (b : BitVec 1) : (coreOfBit b).bit = b := by
  revert b; decide

theorem dispatchOp_fields (i : Instr) : dispatchOp i.fields = .ok i := by
  cases i with
  | beginCtx n k | process n k | endCtx n k | compress n k | zcompress n k => cases n <;> cases k <;> rfl
  | processDual k | compressDual k => cases k <;> rfl

theorem rsvd_fields (i : Instr) : i.fields.rsvd = 0 := by
  cases i <;> rfl

/-- R99: each branch of the dispatch answers the instruction with that OP and with the word's own CTX and CORE. -/
theorem eq_fields_of_dispatchOp {f : Fields} {i : Instr} (hr : f.rsvd = 0) (h : dispatchOp f = .ok i) :
    f = i.fields := by
  obtain ⟨op, ctx, core, rsvd⟩ := f
  simp only [dispatchOp] at h
  split_ifs at h <;> cases h <;> simp_all only [Instr.fields, bit_ctxOfBit, bit_coreOfBit]

theorem decode_eq_ok_iff {w : Word} {i : Instr} : decode w = .ok i ↔ fieldsOfWord w = i.fields := by
  constructor
  · intro h
    unfold decode at h
    split at h
    · rename_i hr
      exact eq_fields_of_dispatchOp (eq_of_beq hr) h
    · cases h
  · intro h
    rw [decode, h, Fields.rsvdOk, rsvd_fields, if_pos (by rfl), dispatchOp_fields]

/-- Settles O1: the word of an instruction is the one word with the instruction's fields. -/
theorem decodeEncodeAgree : Obligations.DecodeEncodeAgree := fun _ _ =>
  decode_eq_ok_iff.trans eq_wordOfFields_iff.symm

/-- Settles O4: each word is the encoding of its command. -/
theorem commonWordsDecode : Obligations.CommonWordsDecode := by
  unfold Obligations.CommonWordsDecode
  simp only [decodeEncodeAgree _ _]
  decide

/-! ## The match and mask table (R98) -/

theorem wordOfFields_and (f g : Fields) : wordOfFields f &&& wordOfFields g =
    wordOfFields ⟨f.op &&& g.op, f.ctx &&& g.ctx, f.core &&& g.core, f.rsvd &&& g.rsvd⟩ := by
  refine BitVec.and_append.trans ?_
  rw [BitVec.and_append, BitVec.and_append]
  rfl

/-- A mask acts on each field of a word alone. -/
theorem and_eq_wordOfFields_iff {w : Word} {mask v : Fields} :
    w &&& wordOfFields mask = wordOfFields v ↔
      (fieldsOfWord w).op &&& mask.op = v.op ∧ (fieldsOfWord w).ctx &&& mask.ctx = v.ctx ∧
        (fieldsOfWord w).core &&& mask.core = v.core ∧ (fieldsOfWord w).rsvd &&& mask.rsvd = v.rsvd := by
  obtain ⟨op, ctx, core, rsvd⟩ := v
  rw [← wordOfFields_fieldsOfWord w, wordOfFields_and, wordOfFields_injective.eq_iff, fieldsOfWord_wordOfFields,
    Fields.mk.injEq]

/-- The mask of the single-stream commands keeps OP and RSVD. -/
theorem and_singleMask_iff {w : Word} (op : BitVec 4) :
    w &&& 0xFFFFFFCF = wordOfFields ⟨op, 0, 0, 0⟩ ↔ (fieldsOfWord w).op = op ∧ (fieldsOfWord w).rsvd = 0 := by
  rw [show (0xFFFFFFCF : Word) = wordOfFields ⟨.allOnes 4, 0#1, 0#1, .allOnes 26⟩ by decide, and_eq_wordOfFields_iff]
  simp only [BitVec.and_allOnes, BitVec.and_zero, BitVec.ofNat_eq_ofNat, true_and]

/-- The mask of the dual-stream commands keeps OP, CTX and RSVD. -/
theorem and_dualMask_iff {w : Word} (op : BitVec 4) : w &&& 0xFFFFFFDF = wordOfFields ⟨op, 0, 0, 0⟩ ↔
    (fieldsOfWord w).op = op ∧ (fieldsOfWord w).ctx = 0 ∧ (fieldsOfWord w).rsvd = 0 := by
  rw [show (0xFFFFFFDF : Word) = wordOfFields ⟨.allOnes 4, .allOnes 1, 0#1, .allOnes 26⟩ by decide,
    and_eq_wordOfFields_iff]
  simp only [BitVec.and_allOnes, BitVec.and_zero, BitVec.ofNat_eq_ofNat, true_and]

/-- R98: a row of a single-stream command. -/
theorem decodes_single_iff {mk : CtxId → CoreSel → Instr} {op : BitVec 4}
    (hf : ∀ n k, (mk n k).fields = ⟨op, n.bit, k.bit, 0⟩) {v : Word} (hv : v = wordOfFields ⟨op, 0, 0, 0⟩) (w : Word) :
    (∃ n k, decode w = .ok (mk n k)) ↔ w &&& 0xFFFFFFCF = v := by
  rw [hv, and_singleMask_iff]
  simp only [decode_eq_ok_iff, hf]
  constructor
  · rintro ⟨n, k, h⟩
    rw [h]
    exact ⟨rfl, rfl⟩
  · rintro ⟨rfl, hr⟩
    exact ⟨ctxOfBit (fieldsOfWord w).ctx, coreOfBit (fieldsOfWord w).core, by rw [bit_ctxOfBit, bit_coreOfBit, ← hr]⟩

/-- R98: a row of a dual-stream command. -/
theorem decodes_dual_iff {mk : CoreSel → Instr} {op : BitVec 4} (hf : ∀ k, (mk k).fields = ⟨op, 0, k.bit, 0⟩)
    {v : Word} (hv : v = wordOfFields ⟨op, 0, 0, 0⟩) (w : Word) :
    (∃ k, decode w = .ok (mk k)) ↔ w &&& 0xFFFFFFDF = v := by
  rw [hv, and_dualMask_iff]
  simp only [decode_eq_ok_iff, hf]
  constructor
  · rintro ⟨k, h⟩
    rw [h]
    exact ⟨rfl, rfl, rfl⟩
  · rintro ⟨rfl, hc, hr⟩
    exact ⟨coreOfBit (fieldsOfWord w).core, by rw [bit_coreOfBit, ← hc, ← hr]⟩

/-- R97: a word is illegal exactly when it decodes to no command. -/
theorem decode_error_iff {w : Word} : (∃ e, decode w = .error e) ↔
    ((¬∃ n k, decode w = .ok (.beginCtx n k)) ∧ (¬∃ n k, decode w = .ok (.process n k)) ∧
      (¬∃ n k, decode w = .ok (.endCtx n k)) ∧ (¬∃ n k, decode w = .ok (.compress n k)) ∧
      (¬∃ n k, decode w = .ok (.zcompress n k))) ∧
    (¬∃ k, decode w = .ok (.processDual k)) ∧ ¬∃ k, decode w = .ok (.compressDual k) := by
  cases decode w with
  | error e => simp
  | ok i => cases i <;> simp

/-- Settles O2: row by row; an illegal word is decoded to the command of no row. -/
theorem matchMaskTable : Obligations.MatchMaskTable := by
  intro w
  have hbegin := decodes_single_iff (mk := .beginCtx) (fun _ _ => rfl) (v := 0x00000001) (by decide) w
  have hprocess := decodes_single_iff (mk := .process) (fun _ _ => rfl) (v := 0x00000002) (by decide) w
  have hend := decodes_single_iff (mk := .endCtx) (fun _ _ => rfl) (v := 0x00000003) (by decide) w
  have hcompress := decodes_single_iff (mk := .compress) (fun _ _ => rfl) (v := 0x00000004) (by decide) w
  have hzcompress := decodes_single_iff (mk := .zcompress) (fun _ _ => rfl) (v := 0x00000005) (by decide) w
  have hprocessDual := decodes_dual_iff (mk := .processDual) (fun _ => rfl) (v := 0x00000006) (by decide) w
  have hcompressDual := decodes_dual_iff (mk := .compressDual) (fun _ => rfl) (v := 0x00000007) (by decide) w
  refine ⟨hbegin, hprocess, hend, hcompress, hzcompress, hprocessDual, hcompressDual, ?_⟩
  rw [decode_error_iff, hbegin, hprocess, hend, hcompress, hzcompress, hprocessDual, hcompressDual]
  simp [and_assoc]

end Sys2Proof.Proofs
end

section
/-! The life of a command (30_encoding.md R103 to R107): a CMD write is accepted or discarded, the engine's turn runs the
decoded command, and an accepted command comes to its completion. -/

namespace Sys2Proof.Proofs

open Sys2Proof.Machine Sys2Proof.Laws

/-! ## One step -/

/-- Settles O5: offset 0 is CMD, and BUSY decides between the two effects of a write to it. -/
theorem cmdWriteAcceptedOrDiscarded : Obligations.CmdWriteAcceptedOrDiscarded := by
  intro s v rest hin
  rw [step_regWrite hin rfl, regAt_cmd, writeReg, writeCmd]
  exact ⟨fun hb => by rw [if_pos hb]; rfl, fun hb => by rw [if_neg (by simp [hb])]; rfl⟩

theorem step_nil {s : State} (h : s.inputs = []) : step s = engineTurn s := by
  rw [step, h]

theorem step_engine {s : State} {rest : List Input} (h : s.inputs = .engine :: rest) :
    step s = engineTurn { s with inputs := rest } := by
  rw [step, h]

theorem engineTurn_idle {s : State} (h : s.status.busy = false) : engineTurn s = .next s :=
  if_neg (by simp [h])

theorem engineTurn_busy {s : State} (h : s.status.busy = true) : engineTurn s = runCommand s := if_pos h

/-- R99: the engine's turn with a legal word. -/
theorem engineTurn_legal {s : State} {i : Instr} (hb : s.status.busy = true) (hi : decode s.seq.cmd = .ok i) :
    engineTurn s = exec i s := by
  rw [engineTurn_busy hb, runCommand, hi]

/-- Settles O6: the turn comes with or without an entry of the schedule, and `withFetchWord` is an accept before it. -/
theorem stepRunsDecodedCommand : Obligations.StepRunsDecodedCommand := by
  refine ⟨fun s i hi hb => ⟨fun hin => ?_, fun rest hin => ?_⟩, fun s w i hw hi => ?_,
    fun s hb => ⟨fun hin => ?_, fun rest hin => ?_⟩⟩
  · rw [step_nil hin, engineTurn_legal hb hi]
  · rw [step_engine hin]
    exact engineTurn_legal hb hi
  · rw [State.withFetchWord, Nat.mod_eq_of_lt hw, step_engine (rest := s.inputs) rfl]
    exact engineTurn_legal rfl hi
  · rw [step_nil hin, engineTurn_idle hb]
  · rw [step_engine hin]
    exact engineTurn_idle hb

/-! ## The command's end -/

/-- R106: the end of a command: a completion, or the refusal of a source region the spec gives no result for. -/
def CommandEnds (o : Host.Outcome State Fault Refusal) : Prop :=
  (∃ t : State, o = .next t ∧ t.status.busy = false ∧ t.status.done = true) ∨
    ∃ r, o = .refused r ∧ (r = .sourceOverlapsWindow ∨ r = .sourceHasSideEffects)

theorem commandEnds_complete (e : ErrCode) (c : CtxId) (s : State) : CommandEnds (.next (complete e c s)) :=
  .inl ⟨_, rfl, rfl, rfl⟩

theorem streamStop_eq_some {s : State} {x : Stream} {r : Refusal} (h : streamStop s x = some r) :
    r = .sourceOverlapsWindow ∨ r = .sourceHasSideEffects := by
  unfold streamStop sourceStop at h
  split_ifs at h <;> cases h
  · exact .inl rfl
  · exact .inr rfl

/-- R105 to R107: a command reports its first failing check, is refused for its stop, or runs to its completion. -/
theorem exec_commandEnds (i : Instr) (s : State) : CommandEnds (exec i s) := by
  cases hc : firstError (checksOf i s) with
  | some e =>
    rw [exec_guarded, guarded, hc]
    exact commandEnds_complete ..
  | none =>
    obtain ⟨t, ht⟩ := exec_of_passed hc
    cases hstop : commandStop i s with
    | some r =>
      obtain ⟨x, -, hx⟩ := List.exists_of_findSome?_eq_some hstop
      rw [ht, hstop]
      exact .inr ⟨r, rfl, streamStop_eq_some hx⟩
    | none =>
      rw [hstop, unlessStopped_none] at ht
      obtain ⟨code, c, u, rfl, -, -, -⟩ := exec_next ht
      rw [ht]
      exact commandEnds_complete ..

theorem engineTurn_commandEnds {s : State} (hb : s.status.busy = true) : CommandEnds (engineTurn s) := by
  cases hi : decode s.seq.cmd with
  | ok i =>
    rw [engineTurn_legal hb hi]
    exact exec_commandEnds i s
  | error e =>
    rw [engineTurn_busy hb, runCommand, hi]
    exact commandEnds_complete ..

/-! ## The events before it -/

/-- R41, R60: an ordinary event is neither refused nor a fault, and leaves the schedule and the window's place alone. -/
theorem hostEvent_ordinary {e : HostEvent} {s : State} (he : OrdinaryEvent s.params e) :
    ∃ t, hostEvent e s = .next t ∧ t.inputs = s.inputs ∧ t.params.base = s.params.base := by
  cases e with
  | regWrite off width v =>
    obtain ⟨-, -, -, hp, -, hin, -⟩ := writeReg_frame (regAt off) v s
    exact ⟨_, if_pos (accessOk_iff.mpr he), hin, by rw [hp]⟩
  | regRead off width => exact ⟨_, if_pos (accessOk_iff.mpr he), rfl, rfl⟩
  | memStore a b =>
    obtain ⟨ha, hw⟩ := he
    have hout : inWindow s.params a = false := by simpa [inWindow] using hw
    exact ⟨hostStore a b s, by rw [hostEvent, if_neg (Nat.not_le.mpr ha), hout]; rfl, rfl, rfl⟩
  | publish => exact ⟨_, rfl, rfl, rfl⟩
  | busMap rs => exact ⟨_, rfl, rfl, rfl⟩
  | reset => exact he.elim

/-- R106: no ordinary event ends a running command. -/
theorem busy_of_ordinary {e : HostEvent} {s t : State} (he : OrdinaryEvent s.params e) (h : hostEvent e s = .next t)
    (hb : s.status.busy = true) : t.status.busy = true := by
  rcases hostEvent_cases h with hk | ⟨v, -, hidle, -⟩ | ⟨rfl, -⟩
  · rw [hk.busy, hb]
  · rw [hb] at hidle
    cases hidle
  · exact he.elim

/-- R41, R60: what is ordinary depends on the place of the window alone. -/
theorem ordinaryEvent_of_base {p q : Params} {e : HostEvent} (hb : q.base = p.base) (he : OrdinaryEvent p e) :
    OrdinaryEvent q e := by
  cases e with
  | memStore a b => simpa only [OrdinaryEvent, hb] using he
  | regWrite | regRead | publish | busMap | reset => exact he

theorem run_succ_of_next {s t : State} (h : step s = .next t) (k : Nat) : core.run (k + 1) s = core.run k t := by
  have hs : core.step s = .next t := h
  simp only [Host.Core.run, hs]

theorem run_one (s : State) : core.run 1 s = step s := by
  have hs : core.step s = step s := rfl
  simp only [Host.Core.run, hs]
  cases step s <;> rfl

/-- Settles O8: by induction on the waiting events, up to the engine's first turn. -/
theorem acceptedCommandCompletes : Obligations.AcceptedCommandCompletes := by
  intro s hb hin
  change ∃ k, k ≤ s.inputs.length + 1 ∧ CommandEnds (core.run k s)
  generalize hl : s.inputs = l at hin ⊢
  induction l generalizing s with
  | nil => exact ⟨1, by simp, by rw [run_one, step_nil hl]; exact engineTurn_commandEnds hb⟩
  | cons x l ih =>
    obtain ⟨hx, hrest⟩ := List.forall_mem_cons.mp hin
    rcases hx with rfl | ⟨e, rfl, he⟩
    · exact ⟨1, by simp, by rw [run_one, step_engine hl]; exact engineTurn_commandEnds hb⟩
    · obtain ⟨t, ht, htin, htbase⟩ := hostEvent_ordinary (s := { s with inputs := l }) he
      have htb : t.status.busy = true := busy_of_ordinary (s := { s with inputs := l }) he ht hb
      have htrest : ∀ y ∈ l, y = .engine ∨ ∃ e, y = .host e ∧ OrdinaryEvent t.params e := fun y hy =>
        (hrest y hy).imp_right fun ⟨e', hy', he'⟩ => ⟨e', hy', ordinaryEvent_of_base htbase he'⟩
      obtain ⟨k, hk, hend⟩ := ih t htb htin htrest
      refine ⟨k + 1, by simpa using hk, ?_⟩
      rw [run_succ_of_next ((step_host hl).trans ht)]
      exact hend

end Sys2Proof.Proofs
end

section
/-! The latched operands a single-stream command reads (30_encoding.md R95): with the operands it reads left as they are, it
runs the same checks and comes to the same completion, which keeps nothing of the sequencer (R45). -/

namespace Sys2Proof.Proofs

open Sys2Proof.Machine Sys2Proof.Laws

@[simp] theorem getCtx_withLatched (s : State) (r : Args) (n : CtxId) : getCtx (withLatched s r) n = getCtx s n := by
  cases n <;> rfl

@[simp] theorem params_withLatched (s : State) (r : Args) : (withLatched s r).params = s.params := rfl

@[simp] theorem sourceStop_withLatched (s : State) (r : Args) (src len : Nat) :
    sourceStop (withLatched s r) src len = sourceStop s src len := rfl

theorem lenOf_withLatched {s : State} {r : Args} (h : r.lenA = s.seq.args.lenA) :
    lenOf (withLatched s r) .a = lenOf s .a := congrArg BitVec.toNat h

theorem srcOf_withLatched {s : State} {r : Args} (h : r.srcA = s.seq.args.srcA) :
    srcOf (withLatched s r) .a = srcOf s .a := congrArg BitVec.toNat h

theorem readSource_withLatched {s : State} {r : Args} (hl : r.lenA = s.seq.args.lenA) (hs : r.srcA = s.seq.args.srcA) :
    readSource (withLatched s r) .a = readSource s .a := by
  rw [readSource, readSource, lenOf_withLatched hl, srcOf_withLatched hs]
  exact readFrom_congr fun _ _ => rfl

/-- R45: a completion keeps nothing of the latched arguments. -/
@[simp] theorem complete_withLatched (e : ErrCode) (c : CtxId) (s : State) (r : Args) :
    complete e c (withLatched s r) = complete e c s := rfl

@[simp] theorem setCtx_withLatched (s : State) (r : Args) (n : CtxId) (c : Ctx) :
    setCtx (withLatched s r) n c = withLatched (setCtx s n c) r := by
  cases n <;> rfl

@[simp] theorem faultAt_withLatched (n : CtxId) (s : State) (r : Args) :
    faultAt n (withLatched s r) = withLatched (faultAt n s) r := setCtx_withLatched s r n _

@[simp] theorem singleOutcome_withLatched (n : CtxId) (s : State) (r : Args) (c : Option Ctx) :
    singleOutcome n (withLatched s r) c = singleOutcome n s c := by
  cases c <;> simp only [singleOutcome, setCtx_withLatched, faultAt_withLatched, complete_withLatched]

/-- A command whose checks and body come to the same on other operands has the same outcome on them. -/
theorem exec_withLatched {i : Instr} {s : State} {r : Args} (hc : checksOf i (withLatched s r) = checksOf i s)
    (hb : bodyOf i (withLatched s r) = bodyOf i s) : exec i (withLatched s r) = exec i s := by
  rw [exec_guarded, exec_guarded, guarded, guarded, hc, hb]
  simp only [complete_withLatched]

/-- Settles O44: the checks and the body of each command, by the operands they read. -/
theorem unreadOperandsIgnored : Obligations.UnreadOperandsIgnored := by
  intro n k s r
  refine ⟨exec_withLatched (by simp [checksOf]) (by simp [bodyOf]),
    exec_withLatched (by simp [checksOf]) (by simp [bodyOf]), fun hl => ?_, fun hl hs => ?_⟩
  · have hlen := lenOf_withLatched hl
    exact exec_withLatched (by simp [checksOf, hlen]) (by simp [bodyOf, hlen])
  · have hlen := lenOf_withLatched hl
    have hsrc := srcOf_withLatched hs
    have hread := readSource_withLatched hl hs
    exact ⟨exec_withLatched (by simp [checksOf, hlen, hsrc]) (by simp [bodyOf, hlen, hsrc, hread]),
      exec_withLatched (by simp [checksOf, hlen, hsrc]) (by simp [bodyOf, hlen, hsrc, hread])⟩

end Sys2Proof.Proofs
end

section
/-! The compression core as the commands use it (40_compression_core.md R122 to R142): the rows of the schedule and the
steps of a block, one compression function on every datapath, and no command that depends on CORE. -/

namespace Sys2Proof.Proofs

open Sys2Proof.Machine Sys2Proof.Laws

/-! ## The step schedule (R122 to R126) -/

theorem schedule_getElem? (i : BitVec 6) : schedule[i.toNat]? = some (rowAt i) := by
  have hi : i.toNat < schedule.length := i.isLt
  rw [rowAt, List.getD_eq_getElem _ _ hi, List.getElem?_eq_getElem hi]

theorem rowAt_mem_schedule (i : BitVec 6) : rowAt i ∈ schedule := List.mem_of_getElem? (schedule_getElem? i)

/-- R126, R137: one step on either single-stream datapath rotates by the row's amount. -/
theorem singleStep_scalar_eq (core : CoreSel) (s : State) :
    (singleStep core s).work.scalar = scalarStep rotl32 s.work.scalar (rowAt s.seq.step) := by
  rw [singleStep_scalar, scalarStep, scalarStep, rotOf_eq_rotl32 core _ (rowAt_mem_schedule _)]

/-- R45: a block that has run `k` steps stands at row `k`. -/
theorem blockStep_index (core : CoreSel) (n : CtxId) (w : List Word) (s : State) {k : Nat} (hk : k < 64) :
    ((singleStep core)^[k] (loadBlock n w s)).seq.step.toNat = k := by
  have h0 : (loadBlock n w s).seq.step = 0 := rfl
  rw [step_iterate (singleStep_step core), h0, zero_add, BitVec.toNat_ofNat]
  exact Nat.mod_eq_of_lt hk

/-- Settles O25: the rows by the table; a step and a block by what they do to `seq.step` and the working registers. -/
theorem scheduleFollowsFormulas : Obligations.ScheduleFollowsFormulas := by
  refine ⟨rfl, by decide, fun core s => ⟨schedule_getElem? _, singleStep_step core s, ?_⟩,
    fun core n w s => ⟨fun k hk => blockStep_index core n w s hk, ?_⟩⟩
  · exact singleStep_scalar_eq core s
  · obtain ⟨-, -, -, hstep, -⟩ := compressBlock_spec core n w s
    exact hstep

/-! ## The datapaths (R136 to R142) -/

/-- Settles O28, bit by bit: below `r` the bit comes from the duplicate, from `r` on from the word. -/
theorem vectorRotateIsRotate : Obligations.VectorRotateIsRotate := fun x _ h0 h32 => vrot_eq_rotl32 x h0 h32

/-- R130, R137: a block given by its message words leaves `runScalar` of its context's digest there, whatever CORE is. -/
theorem compressBlock_dig (core : CoreSel) (n : CtxId) (w : List Word) (s : State) :
    (getCtx (compressBlock core n w s) n).dig = runScalar rotl32 (getCtx s n).dig w := by
  obtain ⟨hctx, -⟩ := compressBlock_spec core n w s
  rw [hctx, runScalar_rotOf]

theorem fedTopUp_core (core k : CoreSel) (zd : Bool) (data : List Byte) (c : Ctx) :
    fedTopUp core zd data c = fedTopUp k zd data c := by
  simp only [fedTopUp, compressOn_eq_compress]

theorem fedBlocks_core (core k : CoreSel) (zd : Bool) (copy : Nat → Bool) (data : List Byte) (m : Nat) (f : Fed) :
    fedBlocks core zd copy data m f = fedBlocks k zd copy data m f := by
  induction m generalizing f with
  | zero => rfl
  | succ m ih =>
    have hblock : fedBlock core zd copy data f = fedBlock k zd copy data f := by
      simp only [fedBlock, compressOn_eq_compress]
    rw [fedBlocks, fedBlocks, hblock, ih]

theorem fedFinish_core (core k : CoreSel) (zd : Bool) (copy : Nat → Bool) (data : List Byte) (f : Fed) :
    fedFinish core zd copy data f = fedFinish k zd copy data f := by
  rw [fedFinish, fedFinish, fedBlocks_core core k]

/-- R137: PROCESS of `data` with another CORE. -/
theorem feed_core (core k : CoreSel) (zd : Bool) (copy : Nat → Bool) (data : List Byte) (c : Ctx) :
    feed core zd copy data c = feed k zd copy data c := by
  rw [feed, feed, fedTopUp_core core k, fedFinish_core core k]

theorem finalCtx_core (core k : CoreSel) (zd : Bool) (c : Ctx) : finalCtx core zd c = finalCtx k zd c := by
  rw [finalCtx, finalCtx, feed_core core k]

theorem compressedCtx_core (core k : CoreSel) (zd : Bool) (data : List Byte) (c : Ctx) :
    compressedCtx core zd data c = compressedCtx k zd data c := by
  rw [compressedCtx, compressedCtx, chainOn_eq_chainN, chainOn_eq_chainN]

theorem chainZero_core (core k : CoreSel) (m : Nat) (st : Digest) : chainZero core m st = chainZero k m st := by
  rw [chainZero_eq_chainN, chainZero_eq_chainN]

theorem fedPair_core (core k : CoreSel) (zd : Bool) (copyA copyB : Nat → Bool) (dA dB : List Byte) (cA cB : Ctx) :
    fedPair core zd copyA copyB dA dB cA cB = fedPair k zd copyA copyB dA dB cA cB := by
  simp only [fedPair, fedTopUp_core core k, fedFinish_core core k]

theorem processCtxs_core (core k : CoreSel) (s : State) : processCtxs core s = processCtxs k s := by
  simp only [processCtxs, fedPair_core core k, feed_core core k]

/-- R93: CORE is no operand of a check. -/
theorem checksOf_withCore (k : CoreSel) (i : Instr) (s : State) : checksOf (withCore k i) s = checksOf i s := by
  cases i <;> rfl

/-- R137: CORE changes nothing a command leaves. -/
theorem bodyOf_withCore (k : CoreSel) (i : Instr) (s : State) : bodyOf (withCore k i) s = bodyOf i s := by
  cases i with
  | beginCtx | compressDual => rfl
  | process n core => simp only [withCore, bodyOf, feed_core k core]
  | endCtx n core => simp only [withCore, bodyOf, finalCtx_core k core]
  | compress n core => simp only [withCore, bodyOf, compressedCtx_core k core]
  | zcompress n core => simp only [withCore, bodyOf, chainZero_core k core]
  | processDual core => simp only [withCore, bodyOf, processCtxs_core k core]

/-- Settles O29: the steps of a block agree, and with them the checks and the body of every command. -/
theorem datapathsEquivalent : Obligations.DatapathsEquivalent := by
  refine ⟨fun st blk => runScalar_rotOf .vector st _, fun core n blk s => compressBlock_dig core n _ s, fun i k s => ?_⟩
  rw [exec_guarded, exec_guarded, checksOf_withCore, bodyOf_withCore]

/-- Settles O30: the lanes of a block, and the dual-lane run from the offsets at which it begins. -/
theorem laneIndependence : Obligations.LaneIndependence := by
  refine ⟨compressDual_eq_compress, fun m dA dB s hA hB => ?_⟩
  have hrun := atPair_dualRun m dA dB hA hB (atPair_start s)
  simp only [dualBlocks_eq_chainN] at hrun
  exact ⟨congrArg Ctx.dig hrun.a, congrArg Ctx.dig hrun.b⟩

/-- Settles O31: the zero-fill path as a function, and the block ZCOMPRESS runs on it. -/
theorem zeroFillIsCompress : Obligations.ZeroFillIsCompress := by
  refine ⟨compressZeroOn_eq_compress, fun core n s => ?_⟩
  rw [nextZeroBlock, advancePos, getCtx_setPos, compressBlock_dig]
  exact compressZeroOn_eq_compress .scalar _

end Sys2Proof.Proofs
end

section
/-! The commands that compress whole blocks (40_compression_core.md R145 to R152): what COMPRESS, ZCOMPRESS and
COMPRESS_DUAL leave when their checks pass, and that they agree with PROCESS and with each other. -/

namespace Sys2Proof.Proofs

open Sys2Proof.Machine Sys2Proof.Laws

/-! ## Runs that pass their checks -/

theorem exec_eq_bodyOf {i : Instr} {s : State} (hc : firstError (checksOf i s) = none) : exec i s = bodyOf i s := by
  rw [exec_guarded, guarded, hc]

theorem unlessStopped_sourceClear {s : State} {x : Stream} (h : SourceClear s x) (t : State) :
    unlessStopped (sourceStop s (srcOf s x) (lenOf s x)) t = .next t := by
  rw [show sourceStop s (srcOf s x) (lenOf s x) = none from h, unlessStopped_none]

/-- R145, R232: COMPRESS with a clear source region. -/
theorem exec_compress {n : CtxId} {core : CoreSel} {s : State} (hc : firstError (checksOf (.compress n core) s) = none)
    (hclear : SourceClear s .a) : exec (.compress n core) s = .next (singleOutcome n s ((readSource s .a).map
      (fun data => compressedCtx core s.params.zeroDetect data (getCtx s n)))) := by
  rw [exec_eq_bodyOf hc, bodyOf, unlessStopped_sourceClear hclear]

/-- R175, R232: PROCESS with a clear source region. -/
theorem exec_process {n : CtxId} {core : CoreSel} {s : State} (hc : firstError (checksOf (.process n core) s) = none)
    (hclear : SourceClear s .a) : exec (.process n core) s = .next (singleOutcome n s ((readSource s .a).map
      (fun data => feed core s.params.zeroDetect (copyPath (srcOf s .a)) data (getCtx s n)))) := by
  rw [exec_eq_bodyOf hc, bodyOf, unlessStopped_sourceClear hclear]

/-- R61, R66: a source region without bus errors yields bytes held there. -/
theorem exists_reading {s : State} {x : Stream} (h : SourceReadable s x) :
    ∃ data, readSource s x = some data ∧ ReadingOf s x data := by
  obtain ⟨-, hread⟩ := sourceReadsHeldBytes s x
  obtain ⟨data, hdata, hreading, -⟩ := hread h
  exact ⟨data, hdata, hreading⟩

/-- R107: what a successful completion leaves of the state in which one context was written. -/
theorem complete_setCtx_spec (s : State) (n : CtxId) (c : Ctx) :
    let t := complete .none .c0 (setCtx s n c)
    getCtx t n = c ∧ (∀ m, m ≠ n → getCtx t m = getCtx s m) ∧ Reported s t .none .c0 ∧ OutsideUnchanged s t := by
  have hw := ctxWrite_setCtx s n c
  refine ⟨?_, fun m hm => ?_, reported_complete hw _ _, outside_complete hw _ _⟩
  · rw [getCtx_complete, getCtx_setCtx_same]
  · rw [getCtx_complete, getCtx_setCtx_ne s c hm]

/-- R31: the number of bytes a stream has counts as its latched length register. -/
theorem ofNat_lenOf_a (s : State) : BitVec.ofNat 64 (lenOf s .a) = s.seq.args.lenA := by
  simp [lenOf]

theorem ofNat_lenOf_b (s : State) : BitVec.ofNat 64 (lenOf s .b) = s.seq.args.lenB := by
  simp [lenOf]

/-- R131, R145: COMPRESS of `data` on an ACTIVE context. -/
theorem compressedCtx_eq (core : CoreSel) (zd : Bool) (data : List Byte) {c : Ctx} (hp : c.phase = .active) :
    compressedCtx core zd data c =
      ⟨chainBlocks c.dig data, c.count + BitVec.ofNat 64 data.length, c.res, .active⟩ := by
  rw [compressedCtx, advanceCtx, chainOn_eq_chainN, hp]
  rfl

/-! ## COMPRESS and ZCOMPRESS -/

/-- Settles O32: the run on the bytes read, written to one context. -/
theorem compressResult : Obligations.CompressResult := by
  intro n core s hc hclear hread
  obtain ⟨hp, ⟨-, hl⟩, hr, -⟩ := passed_compress_iff.mp hc
  obtain ⟨data, hdata, hreading⟩ := exists_reading hread
  have hlen := readSource_length hdata
  obtain ⟨hctx, hframe⟩ := complete_setCtx_spec s n (compressedCtx core s.params.zeroDetect data (getCtx s n))
  refine ⟨_, data, by rw [exec_compress hc hclear, hdata]; rfl, hreading, ?_, fun m hm => ?_, hframe⟩
  · rw [hctx, compressedCtx_eq core _ data hp, hlen, ofNat_lenOf_a]
  · rw [hctx]
    exact holds_compressedCtx core _ hr (by rw [hlen, hl]) hm

/-- R131, R148: ZCOMPRESS of `len` bytes on an ACTIVE context. -/
theorem zeroCtx_eq (core : CoreSel) {len : Nat} (hl : len % 64 = 0) {c : Ctx} (hp : c.phase = .active) :
    advanceCtx c (chainZero core (len / 64) c.dig) len =
      ⟨chainBlocks c.dig (List.replicate len 0), c.count + BitVec.ofNat 64 len, c.res, .active⟩ := by
  rw [advanceCtx, chainZero_eq_chainN, chainBlocks, List.length_replicate, show 64 * (len / 64) = len by omega, hp]

/-- Settles O34: the run on the zero-fill path, written to one context. -/
theorem zcompressResult : Obligations.ZcompressResult := by
  intro n core s hc
  obtain ⟨hp, ⟨-, hl⟩, hr⟩ := passed_zcompress_iff.mp hc
  obtain ⟨hctx, hframe⟩ := complete_setCtx_spec s n
    (advanceCtx (getCtx s n) (chainZero core (lenOf s .a / 64) (getCtx s n).dig) (lenOf s .a))
  refine ⟨_, exec_eq_bodyOf hc, ?_, fun m hm => ?_, hframe⟩
  · rw [hctx, zeroCtx_eq core hl hp, ofNat_lenOf_a]
  · rw [hctx]
    exact holds_zeroCtx core hr hl hm

/-- R25: after whole blocks a context with no residual has none again. -/
theorem validRes_of_wholeBlocks {c c' : Ctx} {len : Nat} (hr : resLen c = 0) (hl : len % 64 = 0)
    (h : c'.count = c.count + BitVec.ofNat 64 len) : validRes c' = [] := by
  refine validRes_of_resLen_zero ?_
  unfold resLen at hr ⊢
  rw [h, BitVec.toNat_add, BitVec.toNat_ofNat]
  omega

/-- R146: whole blocks fed to a context with no residual are chained as COMPRESS chains them. -/
theorem sameCtx_compressedCtx_feed (core : CoreSel) (zd : Bool) (copy : Nat → Bool) {data : List Byte} {c : Ctx}
    (hr : resLen c = 0) (hd : data.length % 64 = 0) :
    SameCtx (compressedCtx core zd data c) (feed core zd copy data c) := by
  have htop : fedTopUp core zd data c = ⟨c.dig, c.res, 0, 0⟩ := if_pos hr
  have hdig : (feed core zd copy data c).dig = chainOn core zd (data.length / 64) c.dig data := by
    have hblocks := fedBlocks_dig core zd copy data (data.length / 64) ⟨c.dig, c.res, 0, 0⟩
    simp only [feed, storeFed, htop, fedFinish, fedTail]
    split <;> exact hblocks
  refine ⟨hdig.symm, rfl, rfl, ?_⟩
  rw [validRes_of_wholeBlocks (c' := compressedCtx core zd data c) hr hd rfl,
    validRes_of_wholeBlocks (c' := feed core zd copy data c) hr hd rfl]

/-- Settles O33: both fault the context on a bus error, and otherwise run on the same bytes. -/
theorem compressAgreesWithProcess : Obligations.CompressAgreesWithProcess := by
  intro n core s hc hclear
  obtain ⟨hp, ⟨-, hl⟩, hr, hrange⟩ := passed_compress_iff.mp hc
  refine ⟨_, _, exec_compress hc hclear, exec_process (passed_process_iff.mpr ⟨hp, hrange⟩) hclear, ?_⟩
  cases hdata : readSource s .a with
  | none => exact ⟨⟨rfl, rfl, rfl, rfl⟩, rfl⟩
  | some data =>
    simp only [Option.map_some, singleOutcome, getCtx_complete, getCtx_setCtx_same, complete_status, setCtx_status,
      and_true]
    exact sameCtx_compressedCtx_feed core _ _ hr (by rw [readSource_length hdata, hl])

/-! ## COMPRESS_DUAL -/

/-- R151: COMPRESS_DUAL on two streams that are clear and read without a bus error: each context as COMPRESS on its own
stream leaves it. -/
theorem exec_compressDual {core : CoreSel} {s : State} {dA dB : List Byte}
    (hc : firstError (checksOf (.compressDual core) s) = none) (hA : SourceClear s .a) (hB : SourceClear s .b)
    (ha : readSource s .a = some dA) (hb : readSource s .b = some dB) :
    exec (.compressDual core) s = .next (complete .none .c0 (setCtx
      (setCtx s .c0 (compressedCtx core s.params.zeroDetect dA s.c0)) .c1
      (compressedCtx core s.params.zeroDetect dB s.c1))) := by
  obtain ⟨-, -, hab, -⟩ := passed_compressDual_iff.mp hc
  have hl : dA.length = dB.length := by rw [readSource_length ha, readSource_length hb, hab]
  rw [exec_eq_bodyOf hc, bodyOf, dualStop_eq_none.mpr ⟨hA, hB⟩, unlessStopped_none, compressCtxs, ha, hb]
  simp only [compressedPair_eq core s.params.zeroDetect hl, pairOutcome]

/-- Settles O35: the lock-step run on the bytes read, written to both contexts. -/
theorem compressDualResult : Obligations.CompressDualResult := by
  intro core s hc hA hB hreadA hreadB
  obtain ⟨hpA, hpB, hab, ⟨-, hl⟩, rA, rB, -⟩ := passed_compressDual_iff.mp hc
  obtain ⟨dA, ha, hreadingA⟩ := exists_reading hreadA
  obtain ⟨dB, hb, hreadingB⟩ := exists_reading hreadB
  have hlA := readSource_length ha
  have hlB := readSource_length hb
  have hw := ctxWrite_trans (ctxWrite_setCtx s .c0 (compressedCtx core s.params.zeroDetect dA s.c0))
    (ctxWrite_setCtx _ .c1 (compressedCtx core s.params.zeroDetect dB s.c1))
  refine ⟨_, dA, dB, exec_compressDual hc hA hB ha hb, hreadingA, hreadingB, ?_, ?_, fun m hm => ?_,
    fun m hm => ?_, reported_complete hw _ _, outside_complete hw _ _⟩
  · simp only [complete_c0, setCtx_c1_c0, setCtx_c0_c0]
    rw [compressedCtx_eq core _ dA (c := s.c0) hpA, hlA, ofNat_lenOf_a]
  · simp only [complete_c1, setCtx_c1_c1]
    rw [compressedCtx_eq core _ dB (c := s.c1) hpB, hlB, ofNat_lenOf_b]
  · exact holds_compressedCtx core _ rA (by rw [hlA, hl]) hm
  · exact holds_compressedCtx core _ rB (by rw [hlB, ← hab, hl]) hm

/-- The machine `t` with stream B's operands of `s` for its stream A. -/
def onStreamB (s t : State) : State := withLatched t (streamBFirst s.seq.args)

theorem lenOf_onStreamB (s t : State) : lenOf (onStreamB s t) .a = lenOf s .b := rfl

theorem srcOf_onStreamB (s t : State) : srcOf (onStreamB s t) .a = srcOf s .b := rfl

theorem getCtx_onStreamB (s t : State) (n : CtxId) : getCtx (onStreamB s t) n = getCtx t n := getCtx_withLatched ..

/-- R69, R72: after a command the host's duties towards stream B are met as they were before, for stream A of the next. -/
theorem onStreamB_duties {i : Instr} {s t : State} (ht : exec i s = .next t) (hclear : SourceClear s .b)
    (hread : SourceReadable s .b) (hset : SourceSettled s .b) :
    SourceClear (onStreamB s t) .a ∧ SourceReadable (onStreamB s t) .a ∧ SourceSettled (onStreamB s t) .a ∧
      sourceBytes (onStreamB s t) .a = sourceBytes s .b := by
  obtain ⟨⟨hmem, -, -, -, hparams, -⟩, -⟩ := commandFrame i s t ht
  have hp : (onStreamB s t).params = s.params := hparams
  have hm : (onStreamB s t).mem = s.mem := hmem
  refine ⟨?_, ?_, fun j hj => ?_, ?_⟩
  · rw [SourceClear, sourceStop, hp]
    exact hclear
  · rw [SourceReadable, hp]
    exact hread
  · refine (oldBytes_exec ht _).trans ?_
    exact (List.append_eq_nil_iff.mp (hset j hj)).2
  · rw [sourceBytes, hm]
    rfl

/-- Settles O36: the second COMPRESS finds CTX1 and stream B as COMPRESS_DUAL did. -/
theorem compressDualEquivalence : Obligations.CompressDualEquivalence := by
  intro core k s hc hA hB hreadA hreadB hsetA hsetB
  obtain ⟨hpA, hpB, hab, hl, rA, rB, hrangeA, hrangeB⟩ := passed_compressDual_iff.mp hc
  obtain ⟨t, dA, dB, ht, hdA, hdB, htA, htB, -, -, htst, -⟩ := compressDualResult core s hc hA hB hreadA hreadB
  obtain ⟨t1, dA', ht1, hdA', h1A, -, h1B, -, h1out⟩ :=
    compressResult .c0 k s (passed_compress_iff.mpr ⟨hpA, hl, rA, hrangeA⟩) hA hreadA
  replace h1B : getCtx t1 .c1 = s.c1 := h1B .c1 (by decide)
  obtain ⟨hclear, hread, hset, hbytes⟩ := onStreamB_duties ht1 hB hreadB hsetB
  have hc2 : firstError (checksOf (.compress .c1 k) (onStreamB s t1)) = none := by
    rw [passed_compress_iff, getCtx_onStreamB, h1B, lenOf_onStreamB, srcOf_onStreamB]
    exact ⟨hpB, hab ▸ hl, rB, hrangeB⟩
  obtain ⟨t2, dB', ht2, hdB', h2B, -, h2A, h2st, -⟩ := compressResult .c1 k (onStreamB s t1) hc2 hclear hread
  replace h2A : getCtx t2 .c0 = getCtx t1 .c0 := (h2A .c0 (by decide)).trans (getCtx_onStreamB ..)
  obtain rfl := eq_sourceBytes_of_settled hdA hsetA
  obtain rfl := eq_sourceBytes_of_settled hdA' hsetA
  obtain rfl := eq_sourceBytes_of_settled hdB hsetB
  obtain rfl := eq_sourceBytes_of_settled hdB' hset
  rw [hbytes, getCtx_onStreamB, h1B] at h2B
  refine ⟨t, t1, t2, ht, ht1, ht2, htA.trans (h2A.trans h1A).symm, htB.trans h2B.symm, ?_⟩
  obtain ⟨-, -, -, hovr, -⟩ := h1out
  rw [htst, h2st, show (onStreamB s t1).status.ovr = s.status.ovr from hovr]

end Sys2Proof.Proofs
end

section
/-! The padding of END (41_hasher.md R181 to R185): its length, its bytes, and the length field, which holds the bit length
of the message modulo 2^64. -/

namespace Sys2Proof.Proofs

open Sys2Proof.Machine Sys2Proof.Laws

/-! ## The number of bytes -/

/-- R181, R184: residual and padding fill one block up to a residual of 55 bytes, two from 56. -/
theorem residual_add_padLen (c : DWord) : c.toNat % 64 + padLen c = if c.toNat % 64 ≤ 55 then 64 else 128 := by
  simp only [padLen]
  split <;> split <;> omega

/-- R181: the length before and after the adjustment. -/
theorem padLen_eq (c : DWord) :
    padLen c = if 64 - c.toNat % 64 < 9 then 128 - c.toNat % 64 else 64 - c.toNat % 64 := by
  simp only [padLen]
  split <;> omega

/-! ## The bytes -/

/-- R181: the bytes between 0x80 and the length field. -/
theorem padBytes_getD_zeros {c : DWord} {i : Nat} (h1 : 1 ≤ i) (hi : i < padLen c - 8) : (padBytes c).getD i 0 = 0 := by
  obtain ⟨k, rfl⟩ := Nat.exists_eq_add_of_le' h1
  have hk : k < (List.replicate (padLen c - 9) (0 : Byte)).length := by
    rw [List.length_replicate]
    omega
  rw [padBytes, List.append_assoc, List.singleton_append, List.getD_cons_succ, List.getD_append _ _ _ _ hk,
    List.getD_eq_getElem _ _ hk, List.getElem_replicate]

/-- R181: the last eight bytes are the length field. -/
theorem padBytes_getD_lengthField (c : DWord) {j : Nat} (hj : j < 8) :
    (padBytes c).getD (padLen c - 8 + j) 0 = lengthByte c j := by
  obtain ⟨h9, -⟩ := padLen_bounds c
  have hl : ([0x80] ++ List.replicate (padLen c - 9) (0 : Byte)).length = padLen c - 8 := by
    rw [List.length_append, List.length_replicate, List.length_singleton]
    omega
  rw [padBytes, List.getD_append_right _ _ _ _ (by omega), hl, Nat.add_sub_cancel_left]
  simp [List.getD_eq_getElem?_getD, hj]

/-- R181: byte `j` of `L`, least significant first. -/
theorem lengthByte_toNat (c : DWord) (j : Nat) :
    (lengthByte c j).toNat = c.toNat * 8 % 2 ^ 64 / 2 ^ (8 * j) % 256 := by
  rw [lengthByte, BitVec.extractLsb'_toNat, BitVec.toNat_mul, Nat.shiftRight_eq_div_pow]
  rfl

/-- Settles O23: the padding part by part, the byte 0x80, the zeros and the length field. -/
theorem paddingBytes : Obligations.PaddingBytes := by
  intro c
  obtain ⟨h9, h72, -⟩ := padLen_bounds c
  have hsum := residual_add_padLen c
  refine ⟨padLen_eq c, h9, h72, ?_, padBytes_length c, rfl, fun i => padBytes_getD_zeros, fun j hj => ?_⟩
  · split at hsum
    · exact .inl hsum
    · exact .inr hsum
  · rw [padBytes_getD_lengthField c hj, lengthByte_toNat]

/-! ## The length field -/

/-- R185: `c[60:0] ‖ 000`. -/
def bitLength (c : DWord) : DWord := c.extractLsb' 0 61 ++ (0 : BitVec 3)

theorem bitLength_toNat (c : DWord) : (bitLength c).toNat = c.toNat * 8 % 2 ^ 64 := by
  have h0 : (0 : BitVec 3).toNat = 0 := rfl
  rw [bitLength, toNat_append_eq_add, BitVec.extractLsb'_toNat, Nat.shiftRight_zero, h0]
  omega

/-- R181, R185: `c[60:0] ‖ 000` is `L`. -/
theorem bitLength_eq (c : DWord) : bitLength c = c * 8 :=
  BitVec.eq_of_toNat_eq (by rw [bitLength_toNat, BitVec.toNat_mul]; rfl)

/-- A byte below bit 64 is that of the number modulo 2^64. -/
theorem byte_mod_two_pow_64 (a : Nat) {j : Nat} (hj : j < 8) :
    a % 2 ^ 64 / 2 ^ (8 * j) % 256 = a / 2 ^ (8 * j) % 256 := by
  have hpow : 2 ^ 64 = 2 ^ (8 * j) * 2 ^ (64 - 8 * j) := by
    rw [← Nat.pow_add]
    congr 1
    omega
  have hdvd : 256 ∣ 2 ^ (64 - 8 * j) := Nat.pow_dvd_pow 2 (m := 8) (by omega)
  rw [hpow, Nat.mod_mul_right_div_self, Nat.mod_mod_of_dvd _ hdvd]

/-- Settles O24: the counter loses multiples of 2^64, which are multiples of 2^64 in the bit length too. -/
theorem bitLengthWraps : Obligations.BitLengthWraps := by
  intro n c l
  have hc : c.toNat * 8 % 2 ^ 64 = 8 * n % 2 ^ 64 := by
    rw [BitVec.toNat_ofNat]
    omega
  refine ⟨(bitLength_toNat c).trans hc, fun j hj => ⟨?_, ?_⟩⟩
  · rw [show l = c * 8 from bitLength_eq c]
    rfl
  · rw [padBytes_getD_lengthField c hj, lengthByte_toNat, hc, byte_mod_two_pow_64 _ hj]

end Sys2Proof.Proofs
end

section
/-! The stream commands (41_hasher.md R170 to R186): what BEGIN, PROCESS and END leave, that the pieces a message is fed in
do not matter, and that END leaves the digest of the message. -/

namespace Sys2Proof.Proofs

open Sys2Proof.Machine Sys2Proof.Laws

/-! ## BEGIN -/

/-- Settles O16: BEGIN has no check, and it writes one context. -/
theorem beginResult : Obligations.BeginResult := fun n _ s =>
  ⟨_, rfl, complete_setCtx_spec s n (begunCtx (getCtx s n))⟩

/-! ## PROCESS -/

/-- R175 to R177: the digest after the bytes fed is chained over the whole blocks of residual and data. -/
theorem feed_dig (core : CoreSel) (zd : Bool) (copy : Nat → Bool) (data : List Byte) {c : Ctx} (hres : c.res.length = 64) :
    (feed core zd copy data c).dig = chainBlocks c.dig (wholePart (validRes c ++ data)) := by
  obtain ⟨hdig, -⟩ := feed_spec core zd copy data c hres
  rw [hdig, chainOn_eq_chainN, chainBlocks_wholePart]

/-- R175: PROCESS on an ACTIVE context with bytes read from a clear source region. -/
theorem exec_process_read {n : CtxId} (core : CoreSel) {s : State} {data : List Byte} (hp : (getCtx s n).phase = .active)
    (hrange : lenOf s .a = 0 ∨ srcOf s .a + lenOf s .a ≤ 2 ^ 64) (hclear : SourceClear s .a)
    (hdata : readSource s .a = some data) : exec (.process n core) s = .next (complete .none .c0
      (setCtx s n (feed core s.params.zeroDetect (copyPath (srcOf s .a)) data (getCtx s n)))) := by
  rw [exec_process (passed_process_iff.mpr ⟨hp, hrange⟩) hclear, hdata]
  rfl

/-- R45, R176: the bytes the top-up takes. -/
theorem fedTopUp_p (core : CoreSel) (zd : Bool) (data : List Byte) (c : Ctx) :
    (fedTopUp core zd data c).p = if resLen c = 0 then 0 else min (64 - resLen c) data.length := by
  simp only [fedTopUp]
  split
  · rfl
  · split <;> rfl

/-- Settles O17: the context written is the one the bytes read make; the offsets are those of the run. -/
theorem processResult : Obligations.ProcessResult := by
  intro n core s hp hres hrange hclear hread
  obtain ⟨data, hdata, hreading⟩ := exists_reading hread
  have hlt := readSource_lt hdata
  have hlen := readSource_length hdata
  obtain ⟨-, hval, hres', hcount, hphase⟩ :=
    feed_spec core s.params.zeroDetect (copyPath (srcOf s .a)) data (getCtx s n) hres
  obtain ⟨hctx, hother, hrep, hout⟩ := complete_setCtx_spec s n
    (feed core s.params.zeroDetect (copyPath (srcOf s .a)) data (getCtx s n))
  refine ⟨_, data, exec_process_read core hp hrange hclear hdata, hreading, ?_, ?_, ?_, ?_, ?_, hother, hrep, hout,
    ?_, ?_, ?_⟩
  · rw [hctx, feed_dig _ _ _ _ hres]
  · rw [hctx, hval]
  · rw [hctx, hcount, hlen, ofNat_lenOf_a]
  · rw [hctx, hphase, hp]
  · rw [hctx, hres']
  · rw [(at_topUp n .a core s hlt).pos, fedTopUp_p, hlen]
  · exact (wrote_complete (wrote_feedStream n .a core _ s hlt) _ _).symm
  · rw [posOf_feedStream n .a core _ s hlt, hlen]

/-- Settles O18: the one reading of a settled region joins the stream. -/
theorem processAppendsToStream : Obligations.ProcessAppendsToStream := by
  intro n core s m hp hres hm hrange hclear hread hset
  obtain ⟨data, hdata, hreading⟩ := exists_reading hread
  obtain rfl := eq_sourceBytes_of_settled hreading hset
  obtain ⟨hctx, -, hrep, -⟩ := complete_setCtx_spec s n
    (feed core s.params.zeroDetect (copyPath (srcOf s .a)) (sourceBytes s .a) (getCtx s n))
  refine ⟨_, exec_process_read core hp hrange hclear hdata, ?_, ?_, hrep⟩
  · rw [hctx]
    exact holds_feed core _ _ _ hres hm
  · rw [hctx]
    exact hp

/-! ## Feeding a message in pieces -/

/-- R225: a command that reports success has passed its checks. -/
theorem passed_of_success {i : Instr} {s t : State} (h : exec i s = .next t) (hr : Reported s t .none .c0) :
    firstError (checksOf i s) = none := by
  obtain ⟨code, c, u, rfl, -, ⟨-, hfail | ⟨hpass, -⟩⟩, -⟩ := exec_next h
  · obtain rfl : code = .none := congrArg Status.errcode hr
    rcases checksOf_codes (firstError_mem hfail) with hc | hc
    · exact absurd hc (by simp)
    · cases hc
  · exact hpass

/-- R175: the context of a PROCESS that reports success was fed the bytes read. -/
theorem process_success {n : CtxId} {core : CoreSel} {s t : State} (h : exec (.process n core) s = .next t)
    (hr : Reported s t .none .c0) : ∃ data, readSource s .a = some data ∧
      getCtx t n = feed core s.params.zeroDetect (copyPath (srcOf s .a)) data (getCtx s n) := by
  rw [exec_eq_bodyOf (passed_of_success h hr)] at h
  obtain ⟨-, rfl⟩ := unlessStopped_next h
  cases hdata : readSource s .a with
  | none =>
    rw [hdata] at hr
    cases congrArg Status.errcode hr
  | some data =>
    refine ⟨data, rfl, ?_⟩
    rw [Option.map_some, singleOutcome, getCtx_complete, getCtx_setCtx_same]

/-- R131, R177: chaining the whole blocks of `x ++ y` is chaining those of `x` and then those of what `x` leaves
followed by `y`. -/
theorem chainBlocks_wholePart_append (st : Digest) (x y : List Byte) :
    chainBlocks st (wholePart (x ++ y)) =
      chainBlocks (chainBlocks st (wholePart x)) (wholePart (tailPart x ++ y)) := by
  have hx := wholePart_length_mod x
  conv_lhs => rw [← wholePart_append_tailPart x]
  rw [List.append_assoc, wholePart_append _ _ hx, chainBlocks_append _ _ _ hx]

theorem tailPart_tailPart_append (x y : List Byte) : tailPart (tailPart x ++ y) = tailPart (x ++ y) := by
  conv_rhs => rw [← wholePart_append_tailPart x]
  rw [List.append_assoc, tailPart_append _ _ (wholePart_length_mod x)]

/-- R179: two runs of bytes fed one after the other are their concatenation fed at once, on whatever datapath and by
whatever path each of them goes. -/
theorem sameCtx_feed_append (k1 k2 k3 : CoreSel) (z1 z2 z3 : Bool) (copy1 copy2 copy3 : Nat → Bool) (d1 d2 : List Byte)
    {c : Ctx} (hres : c.res.length = 64) :
    SameCtx (feed k2 z2 copy2 d2 (feed k1 z1 copy1 d1 c)) (feed k3 z3 copy3 (d1 ++ d2) c) := by
  obtain ⟨-, hval1, hres1, hcount1, hphase1⟩ := feed_spec k1 z1 copy1 d1 c hres
  have hdig1 := feed_dig k1 z1 copy1 d1 hres
  generalize feed k1 z1 copy1 d1 c = c1 at *
  obtain ⟨-, hval2, -, hcount2, hphase2⟩ := feed_spec k2 z2 copy2 d2 c1 hres1
  obtain ⟨-, hval3, -, hcount3, hphase3⟩ := feed_spec k3 z3 copy3 (d1 ++ d2) c hres
  refine ⟨?_, ?_, ?_, ?_⟩
  · rw [feed_dig _ _ _ _ hres1, feed_dig _ _ _ _ hres, hdig1, hval1, ← List.append_assoc,
      ← chainBlocks_wholePart_append]
  · rw [hcount2, hcount1, hcount3, List.length_append, BitVec.ofNat_add, BitVec.add_assoc]
  · rw [hphase2, hphase1, hphase3]
  · rw [hval2, hval1, hval3, ← List.append_assoc, tailPart_tailPart_append]

/-- Settles O19: each command fed the bytes stored in its settled region. -/
theorem chunkSizeIndependence : Obligations.ChunkSizeIndependence := by
  intro n k1 k2 k3 s1 s2 s3 t1 t2 t3 hres h12 h13 hset1 hset2 hset3 hbytes he1 hr1 he2 hr2 he3 hr3
  obtain ⟨d1, hd1, ht1⟩ := process_success he1 hr1
  obtain ⟨d2, hd2, ht2⟩ := process_success he2 hr2
  obtain ⟨d3, hd3, ht3⟩ := process_success he3 hr3
  obtain rfl := eq_sourceBytes_of_settled (readingOf_readSource hd1) hset1
  obtain rfl := eq_sourceBytes_of_settled (readingOf_readSource hd2) hset2
  obtain rfl := eq_sourceBytes_of_settled (readingOf_readSource hd3) hset3
  rw [ht2, h12, ht1, ht3, h13, hbytes]
  exact sameCtx_feed_append (hres := hres) ..

/-! ## END -/

/-- R180: END on an ACTIVE context. -/
theorem exec_endCtx {n : CtxId} (core : CoreSel) {s : State} (hp : (getCtx s n).phase = .active) :
    exec (.endCtx n core) s =
      .next (complete .none .c0 (setCtx s n (finalCtx core s.params.zeroDetect (getCtx s n)))) :=
  exec_eq_bodyOf (passed_endCtx_iff.mpr hp)

/-- R181: the valid residual and the padding, in bytes. -/
theorem residual_append_pad_length {c : Ctx} (hres : c.res.length = 64) :
    (validRes c ++ padBytes c.count).length = c.count.toNat % 64 + padLen c.count := by
  rw [List.length_append, validRes_length hres, padBytes_length, resLen]

/-- R183: the digest of a finished context. The padding fills the last block, so none of it is left over. -/
theorem finalCtx_dig (core : CoreSel) (zd : Bool) {c : Ctx} (hres : c.res.length = 64) :
    (finalCtx core zd c).dig = chainBlocks c.dig (validRes c ++ padBytes c.count) := by
  obtain ⟨-, -, hmod⟩ := padLen_bounds c.count
  rw [← residual_append_pad_length hres] at hmod
  exact (feed_dig core zd _ _ hres).trans (by rw [wholePart_of_mod hmod])

/-- R183: the counter of a finished context. -/
theorem finalCtx_count (core : CoreSel) (zd : Bool) (c : Ctx) :
    (finalCtx core zd c).count = c.count + BitVec.ofNat 64 (padLen c.count) := by
  rw [← padBytes_length]
  rfl

theorem finalCtx_count_toNat (core : CoreSel) (zd : Bool) (c : Ctx) :
    (finalCtx core zd c).count.toNat = (c.count.toNat + padLen c.count) % 2 ^ 64 := by
  rw [finalCtx_count, BitVec.toNat_add, BitVec.toNat_ofNat, Nat.add_mod_mod]

/-- R183: no residual is left. -/
theorem resLen_finalCtx (core : CoreSel) (zd : Bool) (c : Ctx) : resLen (finalCtx core zd c) = 0 := by
  obtain ⟨-, -, hmod⟩ := padLen_bounds c.count
  rw [resLen, finalCtx_count_toNat]
  omega

/-- Settles O20: the context written is the finished one. -/
theorem endResult : Obligations.EndResult := by
  intro n core s hp hres
  obtain ⟨hctx, hframe⟩ := complete_setCtx_spec s n (finalCtx core s.params.zeroDetect (getCtx s n))
  refine ⟨_, exec_endCtx core hp, ?_, ?_, ?_, ?_, hframe⟩
  · rw [hctx, finalCtx_dig _ _ hres]
  · rw [hctx, finalCtx_count_toNat]
  · rw [hctx]
    exact resLen_finalCtx ..
  · rw [hctx]
    rfl

/-- R132, R183: a finished context that holds a message followed by its padding has the digest of the message. -/
theorem dig_eq_md5 {c : Ctx} {m : List Byte} (h : Holds c (m ++ padBytes (BitVec.ofNat 64 m.length))) :
    c.dig = md5 m := by
  have hmod : (m ++ padBytes (BitVec.ofNat 64 m.length)).length % 64 = 0 := by
    obtain ⟨-, -, hpad⟩ := padLen_bounds (BitVec.ofNat 64 m.length)
    rw [BitVec.toNat_ofNat] at hpad
    rw [List.length_append, padBytes_length]
    omega
  rw [h.dig, wholePart_of_mod hmod, md5]

/-- Settles O21: the stream the finished context holds is the message and its padding. -/
theorem endGivesMd5 : Obligations.EndGivesMd5 := by
  intro n core s m hp hres hm
  obtain ⟨hctx, -⟩ := complete_setCtx_spec s n (finalCtx core s.params.zeroDetect (getCtx s n))
  have hheld := holds_finalCtx core s.params.zeroDetect hres hm
  rw [hm.count] at hheld
  refine ⟨_, exec_endCtx core hp, ?_⟩
  rw [hctx]
  exact ⟨rfl, dig_eq_md5 hheld, finalCtx_count .., resLen_finalCtx .., resLen_finalCtx .., hheld⟩

/-- R131: a chain over two blocks is two compressions. -/
theorem chainBlocks_eq_compress_compress (st : Digest) {m : List Byte} (h : m.length = 128) :
    chainBlocks st m = compress (compress st (m.take 64)) (m.drop 64) := by
  have htake : (m.take 64).length = 64 := by rw [List.length_take, h]; rfl
  have hdrop : (m.drop 64).length = 64 := by rw [List.length_drop, h]
  calc chainBlocks st m = chainBlocks st (m.take 64 ++ m.drop 64) := by rw [List.take_append_drop]
    _ = chainBlocks (chainBlocks st (m.take 64)) (m.drop 64) := chainBlocks_append _ _ _ (by rw [htake])
    _ = compress (compress st (m.take 64)) (m.drop 64) := by
      rw [chainBlocks_eq_compress _ htake, chainBlocks_eq_compress _ hdrop]

/-- Settles O22: by the number of bytes that the residual and the padding have. -/
theorem paddingBlockCount : Obligations.PaddingBlockCount := by
  intro n core s hp hres
  obtain ⟨t, ht, hdig, -⟩ := endResult n core s hp hres
  have hlen := (residual_append_pad_length hres).trans (residual_add_padLen (getCtx s n).count)
  refine ⟨t, ht, fun hle => ?_, fun hge => ?_⟩
  · rw [if_pos hle] at hlen
    rw [hdig, chainBlocks_eq_compress _ hlen]
  · rw [if_neg (by omega)] at hlen
    rw [hdig, chainBlocks_eq_compress_compress _ hlen]

/-! ## FINAL -/

/-- R225, R228: a failing check is all a command reports, and nothing else changes. -/
theorem exec_eq_reject {i : Instr} {s : State} {e : ErrCode × CtxId} (h : firstError (checksOf i s) = some e) :
    exec i s = .next (complete e.1 e.2 s) := by
  rw [exec_guarded, guarded, h]

theorem firstError_cons_of_not {p : Prop} [Decidable p] {e : ErrCode × CtxId} {l : List Check} (h : ¬p) :
    firstError ((decide p, e) :: l) = some e := by
  rw [decide_eq_false h]
  rfl

theorem firstError_cons_of {p : Prop} [Decidable p] {e : ErrCode × CtxId} {l : List Check} (h : p) :
    firstError ((decide p, e) :: l) = firstError l := by
  rw [decide_eq_true h]
  rfl

/-- R225: of the checks of a dual command the first two are the phases. -/
theorem firstError_dual_phase {s : State} {n : CtxId} {l : List Check} (hn : (getCtx s n).phase ≠ .active) :
    ∃ c, firstError ((decide ((getCtx s .c0).phase = .active), .phase, .c0) ::
      (decide ((getCtx s .c1).phase = .active), .phase, .c1) :: l) = some (.phase, c) := by
  by_cases h0 : (getCtx s .c0).phase = .active
  · cases n with
    | c0 => exact absurd h0 hn
    | c1 => exact ⟨.c1, by rw [firstError_cons_of h0, firstError_cons_of_not hn]⟩
  · exact ⟨.c0, firstError_cons_of_not h0⟩

/-- R186, R225: a context that is not ACTIVE fails the first checks of every command that uses it but BEGIN. -/
theorem firstError_of_inactive {i : Instr} {n : CtxId} {s : State} (hn : (getCtx s n).phase ≠ .active)
    (hu : instrUses i n = true) (hb : ∀ k, i ≠ .beginCtx n k) :
    ∃ c, firstError (checksOf i s) = some (.phase, c) := by
  cases i with
  | beginCtx m k => exact absurd (by rw [eq_of_beq hu]) (hb k)
  | process m k | endCtx m k | compress m k | zcompress m k =>
    obtain rfl := eq_of_beq hu
    exact ⟨m, firstError_cons_of_not hn⟩
  | processDual k | compressDual k => exact firstError_dual_phase hn

/-- Settles O11: END writes the finished context, and FINAL fails the phase check. -/
theorem finalisationIsOneWay : Obligations.FinalisationIsOneWay := by
  refine ⟨fun n k s t hp ht => ?_, fun i n s hp hu hb => ?_⟩
  · rw [exec_endCtx k hp] at ht
    cases ht
    rw [getCtx_complete, getCtx_setCtx_same]
    rfl
  · have hn : (getCtx s n).phase ≠ .active := by rw [hp]; decide
    obtain ⟨c, hc⟩ := firstError_of_inactive hn hu hb
    exact ⟨_, c, exec_eq_reject hc, reported_complete (ctxWrite_refl s) _ _, rfl, rfl,
      outside_complete (ctxWrite_refl s) _ _⟩

end Sys2Proof.Proofs
end

section
/-! The dual-stream command (42_dual_stream.md R200 to R203): what PROCESS_DUAL leaves of each context, and that it is
what two PROCESS commands leave. -/

namespace Sys2Proof.Proofs

open Sys2Proof.Machine Sys2Proof.Laws

/-! ## One stream -/

/-- R175 to R178: a context that cannot be told apart from one fed `data` has the digest, residual, counter and phase of
PROCESS's rules. -/
theorem spec_of_sameCtx_feed {core : CoreSel} {zd : Bool} {copy : Nat → Bool} {data : List Byte} {c c' : Ctx}
    (hres : c.res.length = 64) (h : SameCtx c' (feed core zd copy data c)) :
    c'.dig = chainBlocks c.dig (wholePart (validRes c ++ data)) ∧ validRes c' = tailPart (validRes c ++ data) ∧
      c'.count = c.count + BitVec.ofNat 64 data.length ∧ c'.phase = c.phase := by
  obtain ⟨hdig, hcount, hphase, hval⟩ := h
  obtain ⟨-, hval', -, hcount', hphase'⟩ := feed_spec core zd copy data c hres
  exact ⟨hdig.trans (feed_dig core zd copy data hres), hval.trans hval', hcount.trans hcount', hphase.trans hphase'⟩

/-- R72: with every store visible and no race a stream that reads without a bus error yields the bytes stored. -/
theorem readSource_of_settled {s : State} {x : Stream} (hread : SourceReadable s x) (hset : SourceSettled s x) :
    readSource s x = some (sourceBytes s x) := by
  obtain ⟨data, hdata, hreading⟩ := exists_reading hread
  rw [hdata, eq_sourceBytes_of_settled hreading hset]

/-! ## PROCESS_DUAL -/

/-- R200, R201: the contexts the coordinator's run on the bytes of both streams leaves. -/
def coordinatedCtxs (core : CoreSel) (s : State) (dA dB : List Byte) : Ctx × Ctx :=
  fedPair core s.params.zeroDetect (copyPath (srcOf s .a)) (copyPath (srcOf s .b)) dA dB s.c0 s.c1

/-- R202: each of them is, as far as anything can tell, its context fed its own stream. -/
theorem sameCtx_coordinatedCtxs (core : CoreSel) {s : State} (dA dB : List Byte) (hresA : s.c0.res.length = 64)
    (hresB : s.c1.res.length = 64) :
    SameCtx (coordinatedCtxs core s dA dB).1 (feed core s.params.zeroDetect (copyPath (srcOf s .a)) dA s.c0) ∧
      SameCtx (coordinatedCtxs core s dA dB).2 (feed core s.params.zeroDetect (copyPath (srcOf s .b)) dB s.c1) :=
  sameCtx_fedPair core _ _ _ dA dB hresA hresB

/-- R200: PROCESS_DUAL on two streams that are clear and read without a bus error. -/
theorem exec_processDual_read {core : CoreSel} {s : State} {dA dB : List Byte}
    (hc : firstError (checksOf (.processDual core) s) = none) (hA : SourceClear s .a) (hB : SourceClear s .b)
    (ha : readSource s .a = some dA) (hb : readSource s .b = some dB) :
    exec (.processDual core) s = .next (complete .none .c0
      (setCtx (setCtx s .c0 (coordinatedCtxs core s dA dB).1) .c1 (coordinatedCtxs core s dA dB).2)) := by
  rw [exec_eq_bodyOf hc, bodyOf, dualStop_eq_none.mpr ⟨hA, hB⟩, unlessStopped_none, processCtxs, ha, hb]
  rfl

/-- Settles O37: the contexts of the coordinator's run, stream by stream; the offsets are those of the run. -/
theorem processDualResult : Obligations.ProcessDualResult := by
  intro core s hc hresA hresB hA hB hreadA hreadB
  obtain ⟨hpA, hpB, -⟩ := passed_processDual_iff.mp hc
  obtain ⟨dA, ha, hreadingA⟩ := exists_reading hreadA
  obtain ⟨dB, hb, hreadingB⟩ := exists_reading hreadB
  have hlA := readSource_length ha
  have hlB := readSource_length hb
  obtain ⟨hsameA, hsameB⟩ := sameCtx_coordinatedCtxs core dA dB hresA hresB
  obtain ⟨hdigA, hvalA, hcountA, hphaseA⟩ := spec_of_sameCtx_feed hresA hsameA
  obtain ⟨hdigB, hvalB, hcountB, hphaseB⟩ := spec_of_sameCtx_feed hresB hsameB
  have hw := ctxWrite_trans (ctxWrite_setCtx s .c0 (coordinatedCtxs core s dA dB).1)
    (ctxWrite_setCtx _ .c1 (coordinatedCtxs core s dA dB).2)
  obtain ⟨hrun, hposA, hposB⟩ := wrotePair_coordinate core (copyPath (srcOf s .a)) (copyPath (srcOf s .b)) s
    (readSource_lt ha) (readSource_lt hb)
  refine ⟨_, dA, dB, exec_processDual_read hc hA hB ha hb, hreadingA, hreadingB, hdigA, hdigB, hvalA, hvalB, ?_, ?_,
    fun m hm => holds_append hm hcountA hdigA hvalA, fun m hm => holds_append hm hcountB hdigB hvalB,
    hphaseA.trans hpA, hphaseB.trans hpB, reported_complete hw _ _, outside_complete hw _ _,
    (wrotePair_complete hrun _ _).symm, hposA.trans hlA, hposB.trans hlB⟩
  · rw [← ofNat_lenOf_a, ← hlA]
    exact hcountA
  · rw [← ofNat_lenOf_b, ← hlB]
    exact hcountB

/-! ## PROCESS_DUAL and two PROCESS commands -/

/-- R202: PROCESS on CTX0 and then PROCESS on CTX1 with stream B's operands feed each context its own stream: the second
command finds CTX1, stream B and the platform as they were before the first. -/
theorem exec_process_process (k : CoreSel) {s : State} (hpA : s.c0.phase = .active) (hpB : s.c1.phase = .active)
    (hrangeA : lenOf s .a = 0 ∨ srcOf s .a + lenOf s .a ≤ 2 ^ 64)
    (hrangeB : lenOf s .b = 0 ∨ srcOf s .b + lenOf s .b ≤ 2 ^ 64) (hA : SourceClear s .a) (hB : SourceClear s .b)
    (hreadA : SourceReadable s .a) (hreadB : SourceReadable s .b) (hsetA : SourceSettled s .a)
    (hsetB : SourceSettled s .b) :
    ∃ t1 t2, exec (.process .c0 k) s = .next t1 ∧ exec (.process .c1 k) (onStreamB s t1) = .next t2 ∧
      t2.c0 = feed k s.params.zeroDetect (copyPath (srcOf s .a)) (sourceBytes s .a) s.c0 ∧
      t2.c1 = feed k s.params.zeroDetect (copyPath (srcOf s .b)) (sourceBytes s .b) s.c1 ∧
      Reported s t2 .none .c0 := by
  have ht1 := exec_process_read (n := .c0) k hpA hrangeA hA (readSource_of_settled hreadA hsetA)
  obtain ⟨hclear, hread, hset, hbytes⟩ := onStreamB_duties ht1 hB hreadB hsetB
  have hb := readSource_of_settled hread hset
  rw [hbytes] at hb
  exact ⟨_, _, ht1, exec_process_read (s := onStreamB s _) k hpB hrangeB hclear hb, rfl, rfl, rfl⟩

/-- Settles O38: both sides feed each context the bytes stored in its own stream's region, and CORE does not matter. -/
theorem processDualEquivalence : Obligations.ProcessDualEquivalence := by
  intro core k s hc hresA hresB hA hB hreadA hreadB hsetA hsetB
  obtain ⟨hpA, hpB, -, hrangeA, hrangeB⟩ := passed_processDual_iff.mp hc
  obtain ⟨t1, t2, ht1, ht2, h2A, h2B, hst⟩ :=
    exec_process_process k hpA hpB hrangeA hrangeB hA hB hreadA hreadB hsetA hsetB
  obtain ⟨hsameA, hsameB⟩ := sameCtx_coordinatedCtxs core (sourceBytes s .a) (sourceBytes s .b) hresA hresB
  rw [feed_core core k, ← h2A] at hsameA
  rw [feed_core core k, ← h2B] at hsameB
  exact ⟨_, t1, t2, exec_processDual_read hc hA hB (readSource_of_settled hreadA hsetA)
    (readSource_of_settled hreadB hsetB), ht1, ht2, hsameA, hsameB, hst.symm⟩

end Sys2Proof.Proofs
end

section
/-! The errors (60_exceptions.md): the illegal words (R97, R226), the checks before a command runs and the first one that
fails (R225 to R228), and the range check at the top of the address space (R227). -/

namespace Sys2Proof.Proofs

open Sys2Proof.Machine Sys2Proof.Laws

/-! ## Illegal words -/

/-- R99: the dispatch has no command for OP 0 and OP from 8 on, nor for a dual-stream OP with CTX = 1. -/
theorem dispatchOp_error_iff {f : Fields} : (∃ e, dispatchOp f = .error e) ↔
    f.op.toNat = 0 ∨ 8 ≤ f.op.toNat ∨ ((f.op.toNat = 6 ∨ f.op.toNat = 7) ∧ f.ctx.toNat = 1) := by
  have hop := f.op.isLt
  have hctx := f.ctx.isLt
  simp only [dispatchOp, BitVec.toNat_eq]
  -- In each branch of the dispatch what is known of OP and CTX decides both sides.
  split_ifs <;> simp_all <;> omega

/-- R94, R99: a word is illegal for its reserved bits or for its OP. -/
theorem decode_error_iff_fields {w : Word} : (∃ e, decode w = .error e) ↔
    (fieldsOfWord w).rsvd ≠ 0 ∨ ∃ e, dispatchOp (fieldsOfWord w) = .error e := by
  simp only [decode, Fields.rsvdOk, beq_iff_eq]
  rcases eq_or_ne (fieldsOfWord w).rsvd 0 with hr | hr
  · rw [if_pos hr, or_iff_right (not_not.mpr hr)]
  · rw [if_neg hr]
    exact iff_of_true ⟨_, rfl⟩ (.inl hr)

/-- R90: the fields of a word as numbers. -/
theorem fieldsOfWord_toNat (w : Word) : (fieldsOfWord w).op.toNat = w.toNat % 16 ∧
    (fieldsOfWord w).ctx.toNat = w.toNat / 16 % 2 ∧ (fieldsOfWord w).rsvd.toNat = w.toNat / 64 := by
  have hw := w.isLt
  refine ⟨?_, ?_, ?_⟩ <;> simp only [fieldsOfWord, BitVec.extractLsb'_toNat, Nat.shiftRight_eq_div_pow] <;> omega

/-- R97, R226: the engine's turn with an illegal word. -/
theorem engineTurn_illegal {s : State} {e : DecodeError} (hb : s.status.busy = true)
    (he : decode s.seq.cmd = .error e) : engineTurn s = .next (complete .encoding .c0 s) := by
  rw [engineTurn_busy hb, runCommand, he]

/-- Settles O3: the illegal words by their fields; the turn of one is a completion. -/
theorem illegalWordCompletes : Obligations.IllegalWordCompletes := by
  refine ⟨fun w => ?_, fun s rest e hb he hin => ?_⟩
  · obtain ⟨hop, hctx, hrsvd⟩ := fieldsOfWord_toNat w
    have h0 : (0 : BitVec 26).toNat = 0 := rfl
    rw [decode_error_iff_fields, dispatchOp_error_iff, ne_eq, BitVec.toNat_eq, hop, hctx, hrsvd, h0]
    omega
  · have hturn : step s = .next (complete .encoding .c0 { s with inputs := rest }) := by
      rw [step_engine hin]
      exact engineTurn_illegal hb he
    exact ⟨_, hturn, rfl, rfl, rfl, outside_complete (ctxWrite_refl _) _ _⟩

/-! ## The first failing check -/

/-- R225: the checks read the contexts and the latched arguments alone. -/
theorem checksOf_congr {i : Instr} {s t : State} (hctx : ∀ n, getCtx t n = getCtx s n)
    (hargs : t.seq.args = s.seq.args) : checksOf i t = checksOf i s := by
  have hsrc : ∀ x, srcOf t x = srcOf s x := fun x => by cases x <;> simp only [srcOf, hargs]
  have hlen : ∀ x, lenOf t x = lenOf s x := fun x => by cases x <;> simp only [lenOf, hargs]
  cases i <;> simp only [checksOf, hctx, hsrc, hlen]

/-- R225: a command whose checks all pass reports success or a bus error. -/
theorem reported_of_passed {i : Instr} {s t : State} (hc : firstError (checksOf i s) = none) (h : exec i s = .next t) :
    Reported s t .none .c0 ∨ ∃ c, Reported s t .bus c := by
  obtain ⟨code, c, u, rfl, hw, ⟨hname, hcode⟩, -⟩ := exec_next h
  have hrep := reported_complete hw code c
  rcases hcode with hfail | ⟨-, rfl | rfl⟩
  · rw [hc] at hfail
    cases hfail
  · obtain rfl := hname List.mem_cons_self
    exact .inl hrep
  · exact .inr ⟨c, hrep⟩

/-- Settles O7: a failing check is all there is of the command, and neither memory nor the platform is in a check. -/
theorem firstFailingCheckReported : Obligations.FirstFailingCheckReported := by
  intro i s
  refine ⟨fun code c hc => ⟨_, exec_eq_reject hc, rfl, rfl, rfl, outside_complete (ctxWrite_refl s) _ _, fun m p => ?_⟩,
    fun hc _ h => reported_of_passed hc h⟩
  have hsame : checksOf i { s with mem := m, params := p } = checksOf i s :=
    checksOf_congr (fun n => by cases n <;> rfl) rfl
  exact exec_eq_reject (hsame.symm ▸ hc)

/-! ## The range check -/

/-- R175: no bytes fed leave a context as it was. -/
theorem feed_nil (core : CoreSel) (zd : Bool) (copy : Nat → Bool) (c : Ctx) : feed core zd copy [] c = c := by
  have htop : fedTopUp core zd [] c = ⟨c.dig, c.res, resLen c, 0⟩ := by
    have hlt := resLen_lt c
    by_cases h0 : resLen c = 0
    · simp [fedTopUp, h0]
    · simp [fedTopUp, h0, overwrite, Nat.ne_of_lt hlt]
  simp [feed, htop, fedFinish, fedTail, fedBlocks, storeFed]

/-- R61: a source region of length 0 is clear, and its reading is empty. -/
theorem sourceClear_of_len_zero {s : State} {x : Stream} (h : lenOf s x = 0) : SourceClear s x := by
  simp [SourceClear, sourceStop, overlaps, h]

theorem readSource_of_len_zero {s : State} {x : Stream} (h : lenOf s x = 0) : readSource s x = some [] := by
  rw [readSource, h, readFrom]

theorem setCtx_getCtx (s : State) (n : CtxId) : setCtx s n (getCtx s n) = s := by cases n <;> rfl

/-- R62, R175: PROCESS of length 0 is a success and nothing else. -/
theorem exec_process_zero {n : CtxId} (core : CoreSel) {s : State} (hp : (getCtx s n).phase = .active)
    (hl : lenOf s .a = 0) : exec (.process n core) s = .next (complete .none .c0 s) := by
  rw [exec_process_read core hp (.inl hl) (sourceClear_of_len_zero hl) (readSource_of_len_zero hl), feed_nil,
    setCtx_getCtx]

/-- Settles O41: length 0 has an empty reading, and otherwise the range check of R225 decides. -/
theorem rangeBoundary : Obligations.RangeBoundary := by
  intro n core s hp
  refine ⟨fun hl => ⟨_, exec_process_zero core hp (congrArg BitVec.toNat hl), rfl, rfl, rfl⟩, fun hpos hover => ?_,
    fun hfit t c ht hrange => ?_⟩
  · have hc : firstError (checksOf (.process n core) s) = some (.range, n) := by
      have hnot : ¬(lenOf s .a = 0 ∨ srcOf s .a + lenOf s .a ≤ 2 ^ 64) := by
        simp only [lenOf, srcOf]
        omega
      rw [checksOf, firstError_cons_of hp, firstError_cons_of_not hnot]
    exact ⟨_, exec_eq_reject hc, rfl, rfl, rfl⟩
  · have hcode : t.status.errcode = .range := congrArg Status.errcode hrange
    rcases reported_of_passed (passed_process_iff.mpr ⟨hp, .inr hfit⟩) ht with hr | ⟨c', hr⟩ <;>
      (rw [hr] at hcode; cases hcode)

end Sys2Proof.Proofs
end

section
/-! Bus errors (60_exceptions.md R232, R233): the context of a faulted stream is in FAULT, and the other stream of a dual
command ends as the single-stream command on it alone leaves it. -/

namespace Sys2Proof.Proofs

open Sys2Proof.Machine Sys2Proof.Laws

/-! ## One stream -/

/-- Settles O39: the stream yields no bytes, so the command's one write is the fault. -/
theorem busErrorFaultsContext : Obligations.BusErrorFaultsContext := by
  intro i n core s hi hc hclear hbad
  have hnone := readSource_eq_none.mpr hbad
  have hexec : exec i s = .next (complete .bus n (faultAt n s)) := by
    rcases hi with rfl | rfl
    · rw [exec_process hc hclear, hnone]
      rfl
    · rw [exec_compress hc hclear, hnone]
      rfl
  have hw := ctxWrite_faultAt s n
  refine ⟨_, hexec, ?_, fun m hm => ?_, reported_complete hw _ _, outside_complete hw _ _⟩
  · rw [getCtx_complete, getCtx_faultAt_same, faultCtx]
  · rw [getCtx_complete, getCtx_faultAt_ne s hm]

/-! ## Two streams -/

/-- R232 item 3: a dual command `i` hit by a bus error, and the single-stream commands `iA` and `iB` on each stream alone,
make the same of the bytes a stream yields: `fA` of stream A's and `fB` of stream B's. -/
structure LaneRuns (i iA iB : Instr) (s : State) (fA fB : List Byte → Ctx) : Prop where
  dual : readSource s .a = none ∨ readSource s .b = none →
    exec i s = .next (pairOutcome ((readSource s .a).map fA, (readSource s .b).map fB) s)
  laneA : exec iA s = .next (singleOutcome .c0 s ((readSource s .a).map fA))
  laneB : exec iB (onStreamB s s) = .next (singleOutcome .c1 s ((readSource (onStreamB s s) .a).map fB))

theorem laneRuns_process {core : CoreSel} {s : State} (hc : firstError (checksOf (.processDual core) s) = none)
    (hA : SourceClear s .a) (hB : SourceClear s .b) :
    LaneRuns (.processDual core) (.process .c0 core) (.process .c1 core) s
      (fun data => feed core s.params.zeroDetect (copyPath (srcOf s .a)) data s.c0)
      (fun data => feed core s.params.zeroDetect (copyPath (srcOf s .b)) data s.c1) := by
  obtain ⟨hpA, hpB, -, hrangeA, hrangeB⟩ := passed_processDual_iff.mp hc
  refine ⟨fun hnone => ?_, exec_process (passed_process_iff.mpr ⟨hpA, hrangeA⟩) hA, ?_⟩
  · rw [exec_eq_bodyOf hc, bodyOf, dualStop_eq_none.mpr ⟨hA, hB⟩, unlessStopped_none, processCtxs]
    rcases hnone with h | h <;> rw [h]
    · cases readSource s .b <;> rfl
    · cases readSource s .a <;> rfl
  · have hcB : firstError (checksOf (.process .c1 core) (onStreamB s s)) = none :=
      passed_process_iff.mpr ⟨hpB, hrangeB⟩
    rw [exec_process hcB hB, onStreamB, singleOutcome_withLatched]
    rfl

theorem laneRuns_compress {core : CoreSel} {s : State} (hc : firstError (checksOf (.compressDual core) s) = none)
    (hA : SourceClear s .a) (hB : SourceClear s .b) :
    LaneRuns (.compressDual core) (.compress .c0 core) (.compress .c1 core) s
      (fun data => compressedCtx core s.params.zeroDetect data s.c0)
      (fun data => compressedCtx core s.params.zeroDetect data s.c1) := by
  obtain ⟨hpA, hpB, hab, hl, rA, rB, hrangeA, hrangeB⟩ := passed_compressDual_iff.mp hc
  refine ⟨fun hnone => ?_, exec_compress (passed_compress_iff.mpr ⟨hpA, hl, rA, hrangeA⟩) hA, ?_⟩
  · simp only [compressedCtx_core core .scalar]
    rw [exec_eq_bodyOf hc, bodyOf, dualStop_eq_none.mpr ⟨hA, hB⟩, unlessStopped_none, compressCtxs]
    rcases hnone with h | h <;> rw [h]
    · cases readSource s .b <;> rfl
    · cases readSource s .a <;> rfl
  · have hcB : firstError (checksOf (.compress .c1 core) (onStreamB s s)) = none :=
      passed_compress_iff.mpr ⟨hpB, hab ▸ hl, rB, hrangeB⟩
    rw [exec_compress hcB hB, onStreamB, singleOutcome_withLatched]
    rfl

/-- R72: with its stores visible and no race, stream B yields the same bytes as stream A of the single-stream command. -/
theorem readSource_onStreamB {s : State} (hread : SourceReadable s .b) (hset : SourceSettled s .b) :
    readSource (onStreamB s s) .a = some (sourceBytes s .b) :=
  readSource_of_settled (s := onStreamB s s) hread hset

theorem outside_pairOutcome (r : Option Ctx × Option Ctx) (s : State) : OutsideUnchanged s (pairOutcome r s) := by
  obtain ⟨code, c, u, hu, hw, -⟩ := pairOutcome_cases r s
  rw [hu]
  exact outside_complete hw code c

/-- Settles O40: by the streams that yield no bytes. -/
theorem busErrorIsolatesLanes : Obligations.BusErrorIsolatesLanes := by
  intro i iA iB core s hi hc hA hB badA badB
  obtain ⟨fA, fB, hdual, hlaneA, hlaneB⟩ : ∃ fA fB, LaneRuns i iA iB s fA fB := by
    rcases hi with ⟨rfl, rfl, rfl⟩ | ⟨rfl, rfl, rfl⟩
    · exact ⟨_, _, laneRuns_process hc hA hB⟩
    · exact ⟨_, _, laneRuns_compress hc hA hB⟩
  have hnoneA : badA → readSource s .a = none := readSource_eq_none.mpr
  have hnoneB : badB → readSource s .b = none := readSource_eq_none.mpr
  refine ⟨fun hreadA hb => ?_, fun ha hreadB hsetB => ?_, fun ha hb => ?_⟩
  · obtain ⟨dA, hdA, -⟩ := exists_reading hreadA
    have hexec := hdual (.inr (hnoneB hb))
    rw [hdA, hnoneB hb] at hexec
    rw [hdA] at hlaneA
    exact ⟨_, _, hexec, rfl, rfl, outside_pairOutcome _ s, hlaneA, rfl⟩
  · have hexec := hdual (.inl (hnoneA ha))
    rw [hnoneA ha, readSource_of_settled hreadB hsetB] at hexec
    rw [readSource_onStreamB hreadB hsetB] at hlaneB
    exact ⟨_, _, hexec, rfl, rfl, outside_pairOutcome _ s, hlaneB, rfl⟩
  · have hexec := hdual (.inl (hnoneA ha))
    rw [hnoneA ha, hnoneB hb] at hexec
    exact ⟨_, hexec, rfl, rfl, rfl, outside_pairOutcome _ s⟩

end Sys2Proof.Proofs
end

section
/-! The interrupt output (60_exceptions.md R240): a level that every completion raises when it is enabled, and that no
event of the host but an enabling write to CTRL raises. -/

namespace Sys2Proof.Proofs

open Sys2Proof.Machine Sys2Proof.Laws

theorem irq_iff {s : State} : irq s = true ↔ s.status.done = true ∧ s.ctrlIE = true := by
  rw [irq, Bool.and_eq_true]

/-- R107, R240: with DONE set, irq is IE. -/
theorem irq_complete {s u : State} (h : CtxWrite s u) (e : ErrCode) (c : CtxId) : irq (complete e c u) = s.ctrlIE := by
  obtain ⟨-, -, hIE, -⟩ := outside_complete h e c
  rw [irq, hIE]
  exact Bool.true_and _

/-- R240: every completion, successful or not. -/
theorem irq_of_engineNext {s t : State} (hb : s.status.busy = true) (h : EngineNext s t) : irq t = s.ctrlIE := by
  cases h with
  | waits hidle => cases hb.symm.trans hidle
  | illegal => exact irq_complete (ctxWrite_refl s) _ _
  | runs _ _ ht =>
    obtain ⟨code, c, u, rfl, hw, -⟩ := exec_next ht
    exact irq_complete hw code c

/-- R40: CTRL stands at one offset. -/
theorem eq_of_regAt_ctrl {off : Nat} (ho : accessOk off 4 = true) (h : regAt off = .ctrl) : off = 0x008 := by
  have hctrl : ∀ k < 32, regAt (4 * k) = .ctrl → 4 * k = 0x008 := by decide
  obtain ⟨k, hk, rfl⟩ := eq_of_accessOk ho
  exact hctrl k hk h

/-- R240: of the register writes only CTRL raises irq, while DONE = 1. -/
theorem irq_of_writeReg {r : Reg} {v : Word} {s : State} (h : irq (writeReg r v s) = true) :
    irq s = true ∨ (s.status.done = true ∧ r = .ctrl) := by
  obtain ⟨hd, hie⟩ := irq_iff.mp h
  cases r with
  | cmd =>
    simp only [writeReg, writeCmd] at h
    split at h
    · exact .inl h
    · cases h
  | status =>
    have hdone : s.status.done = true := by
      simp only [writeReg, statusWrite, Bool.and_eq_true] at hd
      exact hd.1
    exact .inl (irq_iff.mpr ⟨hdone, hie⟩)
  | ctrl => exact .inr ⟨hd, rfl⟩
  | _ => exact .inl h

/-- R240: of the host's events only a write to CTRL raises irq, while DONE = 1. -/
theorem irq_of_hostEvent {s t : State} {e : HostEvent} (hev : hostEvent e s = .next t) (h : irq t = true) :
    irq s = true ∨ (s.status.done = true ∧ ∃ v, e = .regWrite 0x008 4 v) := by
  cases e with
  | regWrite off width v =>
    obtain ⟨rfl, ho, rfl⟩ := regWrite_next hev
    refine (irq_of_writeReg h).imp id fun ⟨hd, hr⟩ => ⟨hd, v, ?_⟩
    rw [eq_of_regAt_ctrl ho hr]
  | reset =>
    cases hev
    cases h
  | _ =>
    obtain ⟨-, -, -, hst, hie, -⟩ := hostEvent_frame hev (by simp) (by simp)
    rw [irq, hst, hie] at h
    exact .inl h

/-- Settles O56: the completion by the engine's turn, and each event by what it leaves of DONE and IE. -/
theorem interruptLevel : Obligations.InterruptLevel := by
  refine ⟨fun _ => irq_iff, fun s t hb hin hstep => ?_, fun s t e rest hin hstep => ⟨fun h => ?_, fun hclear => ?_⟩⟩
  · rcases hin with hin | ⟨rest, hin⟩
    · rw [step_nil hin] at hstep
      exact irq_of_engineNext hb (engineTurn_next hstep)
    · rw [step_engine hin] at hstep
      exact irq_of_engineNext (s := { s with inputs := rest }) hb (engineTurn_next hstep)
  · rw [step_host hin] at hstep
    exact irq_of_hostEvent (s := { s with inputs := rest }) hstep h
  · rw [step_host hin] at hstep
    rcases hclear with ⟨v, rfl, hv⟩ | ⟨v, rfl, hv⟩ | ⟨⟨v, rfl⟩, hb⟩ | rfl
    · obtain ⟨-, -, rfl⟩ := regWrite_next hstep
      simp [writeReg, statusWrite, irq, hv]
    · obtain ⟨-, -, rfl⟩ := regWrite_next hstep
      simp only [regAt_ctrl, writeReg, ctrlWrite, irq, hv, Bool.and_false]
    · obtain ⟨-, -, rfl⟩ := regWrite_next hstep
      simp [writeReg, writeCmd, irq, hb]
    · cases hstep
      rfl

end Sys2Proof.Proofs
end

section
/-! Reset (70_reset_and_hazards.md R260 to R262): the values the machine starts with, that a RESET at any time brings them
back, and that what it leaves depends on nothing of the engine. -/

namespace Sys2Proof.Proofs

open Sys2Proof.Machine Sys2Proof.Laws

theorem statusWord_reset : statusWord Status.reset = 0 := by decide

theorem ctrlWord_false : ctrlWord false = 0 := by decide

/-- Settles O57: by the fields of the reset state and the reading of STATUS and CTRL at 0; CMD always reads 0. -/
theorem resetState : Obligations.ResetState := by
  refine ⟨rfl, rfl, rfl, statusWord_reset, rfl, rfl, rfl, rfl, fun r hr => ?_⟩
  have hreg : r = .status ∨ r = .ctrl ∨ r = .cmd := by simpa using hr
  rcases hreg with rfl | rfl | rfl
  · exact statusWord_reset
  · exact ctrlWord_false
  · rfl

theorem step_reset {s : State} {rest : List Input} (h : s.inputs = .host .reset :: rest) :
    step s = .next (resetEngine { s with inputs := rest }) := by
  rw [step_host h, hostEvent]

/-- R240, R260: DONE and IE are 0. -/
theorem irq_resetEngine (s : State) : irq (resetEngine s) = false := rfl

/-- Settles O58: the step is `resetEngine`, whatever the state before it. -/
theorem resetEventSetsResetValues : Obligations.ResetEventSetsResetValues := by
  intro s rest hin
  exact ⟨_, step_reset hin, rfl, rfl, rfl, rfl, rfl, irq_resetEngine _, rfl⟩

/-- R261: what a reset leaves is a function of the fields that are not the engine's. -/
theorem resetEngine_eq_of_agree {s s' : State} (hmem : s.mem = s'.mem) (hparams : s.params = s'.params)
    (hstale : s.stale = s'.stale) (hinputs : s.inputs = s'.inputs) (hrdata : s.rdata = s'.rdata)
    (hdraws : s.draws = s'.draws) : resetEngine s = resetEngine s' := by
  simp only [resetEngine, hmem, hparams, hstale, hinputs, hrdata, hdraws]

/-- Settles O59: both steps are `resetEngine` of states that agree outside the engine. -/
theorem resetLeavesNoTrace : Obligations.ResetLeavesNoTrace := by
  intro s s' rest hin hin' hmem hparams hstale hrdata hdraws
  obtain ⟨t, hstep, h0, h1, -⟩ := resetEventSetsResetValues s rest hin
  refine ⟨?_, t, hstep, h0, h1⟩
  rw [step_reset hin, step_reset hin']
  exact congrArg _ (resetEngine_eq_of_agree hmem hparams hstale rfl hrdata hdraws)

end Sys2Proof.Proofs
end
